-- ==== Sys2Proof/Word.lean ====
section
/-! DEFINITION. The block's word types (spec/00_scope.md R11, R12): bit 0 is the least significant bit
of every value, and no operand of the block is signed. -/

namespace Sys2Proof

/-- A byte of `IN` or `OUT` (R11). -/
abbrev Byte := BitVec 8

/-- A register of the register port, and the `value` operand of BP_ADD_LSB and BP_ADD_MSB (R11). -/
abbrev Word := BitVec 32

/-- A command word of the command port (R11, R70). -/
abbrev CommandWord := BitVec 64

/-- The key of the prefix table: the 24 bits of three input bytes (R27). -/
abbrev Key := BitVec 24

/-- The number of a register at the register port (R36: four bits, so 0 to 15). -/
abbrev RegNo := BitVec 4

end Sys2Proof
end

