-- ==== Sys2Proof/Syntax.lean ====
section
/-! DEFINITION. The block's commands, one constructor for each row of spec/opcode_table.json
(spec/30_encoding.md R76). Operand fields are the unsigned integers of R75; the widths their fields
give them are checked in Sys2Proof/WellFormed.lean. -/

namespace Sys2Proof

/-- A command. `n`, `length` and `distance` are counts, so they are natural numbers; `value` and `lit`
are bits that are placed into the stream, so they are bit vectors. -/
inductive Instr where
  /-- INIT (R210). -/
  | init
  /-- BP_ADD_LSB value, n (R102). -/
  | bpAddLsb (value : Word) (n : Nat)
  /-- BP_ADD_MSB value, n (R103). -/
  | bpAddMsb (value : Word) (n : Nat)
  /-- BP_FINISH (R104). -/
  | bpFinish
  /-- MF_STEP (R144). -/
  | mfStep
  /-- SE_HEADER (R180). -/
  | seHeader
  /-- SE_LITERAL lit (R181). -/
  | seLiteral (lit : Byte)
  /-- SE_MATCH length, distance (R182). -/
  | seMatch (length : Nat) (distance : Nat)
  /-- SE_TOKEN (R184). -/
  | seToken
  /-- SE_EOB (R183). -/
  | seEob
  /-- COMPRESS (R211). -/
  | compress
deriving DecidableEq, Repr

end Sys2Proof
end

