-- ==== Sys2Proof/WellFormed.lean ====
section
/-! DEFINITION. When a command is well formed: each operand fits the field that holds it
(spec/30_encoding.md R72, R74). A field value that fits but lies outside the legal range is well formed:
the command decodes and then faults (R78). -/

namespace Sys2Proof

/-- Each counting operand fits its field: `n` six bits (R72), `length` nine bits and `distance` sixteen
bits (R74). `value` and `lit` fit by their types. -/
def Instr.wf : Instr → Bool
  | .init => true
  | .bpAddLsb _ n => decide (n < 2 ^ 6)
  | .bpAddMsb _ n => decide (n < 2 ^ 6)
  | .bpFinish => true
  | .mfStep => true
  | .seHeader => true
  | .seLiteral _ => true
  | .seMatch length distance => decide (length < 2 ^ 9) && decide (distance < 2 ^ 16)
  | .seToken => true
  | .seEob => true
  | .compress => true

end Sys2Proof
end

