-- ==== Sys2Proof/Decode.lean ====
section
/-! DEFINITION. The decoder and the encoder of command words (spec/30_encoding.md R70 to R78). A command
is one 64-bit value, not bytes in a memory (spec/20_memory.md R60), so the decoder takes a 64-bit word. -/

namespace Sys2Proof

/-- Why a command word is illegal (R77). Both reasons raise ILLEGAL_CMD. -/
inductive IllegalCommand where
  /-- The opcode is none of the eleven of R76. -/
  | unassignedOpcode
  /-- The opcode is one of the eleven and a reserved bit of its format is 1. -/
  | reservedBitSet
deriving DecidableEq, Repr

/-- The fields of a command word (R70, R72, R73, R74), zero-extended (R75). -/
def opcodeField (w : CommandWord) : BitVec 8 := w.extractLsb' 56 8

/-- Format P, `n` = w[55:50] (R72). -/
def widthField (w : CommandWord) : Nat := (w.extractLsb' 50 6).toNat

/-- Format P, `value` = w[31:0] (R72). -/
def valueField (w : CommandWord) : Word := w.extractLsb' 0 32

/-- Format L, `lit` = w[7:0] (R73). -/
def litField (w : CommandWord) : Byte := w.extractLsb' 0 8

/-- Format M, `length` = w[40:32] (R74). -/
def lengthField (w : CommandWord) : Nat := (w.extractLsb' 32 9).toNat

/-- Format M, `distance` = w[15:0] (R74). -/
def distanceField (w : CommandWord) : Nat := (w.extractLsb' 0 16).toNat

/-- The mask of Format Z: all 64 bits are fixed (R71, R76). -/
def maskZ : CommandWord := 0xFFFFFFFFFFFFFFFF#64

/-- The mask of Format P (R72, R76). -/
def maskP : CommandWord := 0xFF03FFFF00000000#64

/-- The mask of Format L (R73, R76). -/
def maskL : CommandWord := 0xFFFFFFFFFFFFFF00#64

/-- The mask of Format M (R74, R76). -/
def maskM : CommandWord := 0xFFFFFE00FFFF0000#64

/-- The eleven opcodes of R76. -/
def assignedOpcodes : List (BitVec 8) :=
  [0x01#8, 0x10#8, 0x11#8, 0x12#8, 0x20#8, 0x30#8, 0x31#8, 0x32#8, 0x33#8, 0x34#8, 0x40#8]

/-- The decoder: a word selects the row with (w AND mask) = match (R76); any other word is illegal (R77). -/
def decode (w : CommandWord) : Except IllegalCommand Instr :=
  if w &&& maskZ = 0x0100000000000000#64 then .ok .init
  else if w &&& maskP = 0x1000000000000000#64 then .ok (.bpAddLsb (valueField w) (widthField w))
  else if w &&& maskP = 0x1100000000000000#64 then .ok (.bpAddMsb (valueField w) (widthField w))
  else if w &&& maskZ = 0x1200000000000000#64 then .ok .bpFinish
  else if w &&& maskZ = 0x2000000000000000#64 then .ok .mfStep
  else if w &&& maskZ = 0x3000000000000000#64 then .ok .seHeader
  else if w &&& maskL = 0x3100000000000000#64 then .ok (.seLiteral (litField w))
  else if w &&& maskM = 0x3200000000000000#64 then .ok (.seMatch (lengthField w) (distanceField w))
  else if w &&& maskZ = 0x3300000000000000#64 then .ok .seToken
  else if w &&& maskZ = 0x3400000000000000#64 then .ok .seEob
  else if w &&& maskZ = 0x4000000000000000#64 then .ok .compress
  else if assignedOpcodes.contains (opcodeField w) then .error .reservedBitSet
  else .error .unassignedOpcode

/-- Format Z: the opcode and 56 reserved zeros (R71). -/
def formatZ (op : BitVec 8) : CommandWord := op ++ 0#56

/-- Format P: opcode, `n`, 18 reserved zeros, `value` (R72). -/
def formatP (op : BitVec 8) (value : Word) (n : Nat) : CommandWord :=
  op ++ BitVec.ofNat 6 n ++ 0#18 ++ value

/-- Format L: opcode, 48 reserved zeros, `lit` (R73). -/
def formatL (op : BitVec 8) (lit : Byte) : CommandWord := op ++ 0#48 ++ lit

/-- Format M: opcode, 15 reserved zeros, `length`, 16 reserved zeros, `distance` (R74). -/
def formatM (op : BitVec 8) (length distance : Nat) : CommandWord :=
  op ++ 0#15 ++ BitVec.ofNat 9 length ++ 0#16 ++ BitVec.ofNat 16 distance

/-- The command word of a command, from the formats of R71 to R74 and the opcodes of R76. Reserved bits
must be 0, so a legal word is the encoding of what it decodes to. -/
def encode : Instr → CommandWord
  | .init => formatZ 0x01#8
  | .bpAddLsb value n => formatP 0x10#8 value n
  | .bpAddMsb value n => formatP 0x11#8 value n
  | .bpFinish => formatZ 0x12#8
  | .mfStep => formatZ 0x20#8
  | .seHeader => formatZ 0x30#8
  | .seLiteral lit => formatL 0x31#8 lit
  | .seMatch length distance => formatM 0x32#8 length distance
  | .seToken => formatZ 0x33#8
  | .seEob => formatZ 0x34#8
  | .compress => formatZ 0x40#8

/-- The command the decoder reads from the low `nbits` bits of `w`, every higher bit 0. Bit 0 is the least
significant bit of the command word (R12), which is how spec/opcode_table.json numbers its rows. -/
def decodeTableWord (nbits w : Nat) : Option Instr :=
  match decode (BitVec.ofNat 64 (w % 2 ^ nbits)) with
  | .ok i => some i
  | .error _ => none

end Sys2Proof
end

