-- ==== Sys2Proof/Config.lean ====
section
/-! DEFINITION. What is fixed when a block is built: the source's constants (spec/00_scope.md R8), the two
capacities the spec leaves open (R9), when they are well formed (R10), and the free values. -/

namespace Sys2Proof

/-- The open parameters of a built block (R9), held as the 32-bit constants that registers 8 and 9 read
(spec/10_state.md R36). Every statement that names none holds for all of them (spec/92_eei_decisions.md D4). -/
structure Config where
  /-- `IN_CAP`, the size of `IN` in bytes. -/
  inCap : Word
  /-- `OUT_CAP`, the size of `OUT` in bytes. -/
  outCap : Word
deriving DecidableEq, Repr

/-- A well-formed configuration (R9, R10): 1 <= IN_CAP, OUT_CAP >= ceil((9*IN_CAP + 10) / 8) and
OUT_CAP <= 2^29 - 1. -/
def Config.wf (c : Config) : Bool :=
  decide (1 ≤ c.inCap.toNat) &&
  decide ((9 * c.inCap.toNat + 10 + 7) / 8 ≤ c.outCap.toNat) &&
  decide (c.outCap.toNat ≤ 2 ^ 29 - 1)

/-- The configuration of `State.reset`. DESIGN CHOICE (log entry 1): the spec leaves both capacities
open. IN_CAP is 2^20 and OUT_CAP is 2^21. -/
def Config.chosen : Config := { inCap := 0x00100000#32, outCap := 0x00200000#32 }

/-- The byte a host read of a byte that nothing has written returns (spec/20_memory.md R52, R53): a free
draw at each read, applied to the model's count of draws. FREE VALUE (log entry 2): it has no body. -/
opaque Config.freeByte : Nat → Byte

/-- `WINDOW` (R8). -/
def window : Nat := 32768

/-- `MAX_MATCH` (R8). -/
def maxMatch : Nat := 258

/-- `MIN_MATCH` (R8). -/
def minMatch : Nat := 3

/-- `MIN_DIST` (R8). -/
def minDist : Nat := 1

/-- `BP_MAX_BITS` (R8). -/
def bpMaxBits : Nat := 32

end Sys2Proof
end

