-- ==== Sys2Proof/Machine/State.lean ====
section
/-! DEFINITION. The state of the block and of its host ports, the reasons a step can stop, and reset.
`Block` is the record of spec/10_state.md R20: exactly its elements and nothing else. `State` is the block
with what stands around it: the built block's capacities, the accesses the host has issued and the block has
not performed yet, the values host reads returned, and the count of free draws (log entry 3). -/

namespace Sys2Proof.Machine

/-- A byte memory: (address, byte) pairs at strictly rising addresses. An unlisted address holds no value,
since R36 leaves the contents after reset unspecified and R44 gives no value to a byte nothing has written. -/
abbrev Memory := List Host.Cell

/-- The written flags of a byte memory (R44): the addresses whose flag is true, strictly rising. -/
abbrev WrittenFlags := List Nat

/-- The prefix table `PT` (R27): the 24-bit key, as a number, with the positions registered under it in
registration order. Keys rise strictly and no listed key has an empty list, so equal maps are equal lists. -/
abbrev PrefixTable := List (Nat × List Nat)

/-- One access of the host (spec/20_memory.md R50): the command port, the register port, the two memories,
and reset, which is an external event and no command (spec/70_reset_and_hazards.md R260). -/
inductive HostAccess where
  /-- A word written to the command port (R58). -/
  | command (w : CommandWord)
  /-- WR_IN: a byte written to `IN` (R51). -/
  | writeIn (a : Nat) (b : Byte)
  /-- A read of `IN` (R52). -/
  | readIn (a : Nat)
  /-- A write to `OUT`, which is ignored (R54). -/
  | writeOut (a : Nat) (b : Byte)
  /-- RD_OUT: a read of `OUT` (R53). -/
  | readOut (a : Nat)
  /-- WR_REG: a write at the register port (R37, R38). -/
  | writeReg (r : RegNo) (v : Word)
  /-- RD_REG: a read at the register port (R37). -/
  | readReg (r : RegNo)
  /-- Reset (R260). -/
  | reset
deriving DecidableEq, Repr

/-- What one host read returned. -/
inductive HostReply where
  /-- A byte of `IN` or `OUT` (R52, R53). -/
  | byte (b : Byte)
  /-- A register (R57). -/
  | word (v : Word)
deriving DecidableEq, Repr

/-- The block's complete state, and nothing else (R20). -/
@[ext]
structure Block where
  /-- `IN`, IN_CAP bytes (R23). -/
  inMem : Memory
  /-- `IN_WRITTEN`, IN_CAP booleans (R44). -/
  inWritten : WrittenFlags
  /-- `IN_LEN`, 32 bits (R24). -/
  inLen : Word
  /-- `IN_LOCK`, 1 bit (R25). -/
  inLock : Bool
  /-- `MF_POS`, 32 bits (R26). -/
  mfPos : Word
  /-- `PT` (R27). -/
  pt : PrefixTable
  /-- `TOKEN`, 32 bits, in the token word format of spec/30_encoding.md R79 (R30). -/
  token : Word
  /-- `OUT`, OUT_CAP bytes (R33). -/
  outMem : Memory
  /-- `OUT_WRITTEN`, OUT_CAP booleans (R44). -/
  outWritten : WrittenFlags
  /-- `BP_K`, 32 bits (R31). -/
  bpK : Word
  /-- `CUR`, 8 bits (R31). -/
  cur : Byte
  /-- `FILL`, 3 bits (R31). -/
  fill : BitVec 3
  /-- `OUT_LEN`, 32 bits (R34). -/
  outLen : Word
  /-- `FAULT`, 1 bit (R35). -/
  fault : Bool
  /-- `CAUSE`, 4 bits (R35). -/
  cause : BitVec 4
  /-- `FAULT_CMD`, 64 bits (R35). -/
  faultCmd : CommandWord
deriving DecidableEq, Repr

/-- The machine: the block, the constants it was built with, and the host's side of its ports (log entry 3). -/
@[ext]
structure State extends Block where
  /-- The built block's capacities, read at registers 8 and 9: the model's arguments (R9, R36). -/
  cfg : Config
  /-- The host's accesses that the block has not performed yet, oldest first. The model's own field. -/
  pending : List HostAccess
  /-- What the host's reads returned, oldest first. The model's own field. -/
  replies : List HostReply
  /-- How many free bytes have been drawn. The model's own field. -/
  draws : Nat
deriving DecidableEq, Repr

/-- The fault causes the block raises (spec/60_exceptions.md R231); `CAUSE` 0 is no fault, and 8 to 15
are never raised. -/
inductive Cause where
  /-- The opcode is unassigned, or a reserved bit is 1 (R77). -/
  | illegalCmd
  /-- `n` > 32 (R102, R103). -/
  | badWidth
  /-- `length` outside 3..258 (R182). -/
  | badLength
  /-- `distance` outside 1..32768 (R182). -/
  | badDistance
  /-- The bits to place do not fit in `OUT` (R110). -/
  | outOverflow
  /-- `IN_LEN` > IN_CAP (R144, R211). -/
  | badInLen
  /-- A host write to `IN` or to register 3 while `IN_LOCK` = 1 (R51, R38). -/
  | lockedWrite
deriving DecidableEq, Repr

/-- Why the machine stops with a fault. The block's own fault causes are no stops: they enter the fault
state, which is a next state (spec/60_exceptions.md R232). -/
inductive Fault where
  /-- UNWRITTEN_READ (R240): MF_STEP or COMPRESS reads an `IN` byte that the host has not written since
  reset. The spec gives no state after it. Safe: the hardware goes on with whatever the byte holds. -/
  | unwrittenRead
deriving DecidableEq, Repr

/-- Why the machine has no meaning for a step. -/
inductive Refusal where
  /-- A command without a meaning in this model, by its mnemonic. No arm of `exec` answers it. Safe. -/
  | notModelled (mnemonic : String)
  /-- The configuration is ill formed: a model refuses it (spec/00_scope.md R10, U5 of
  spec/93_implementation_defined.md). Raised by every step of such a machine. Safe. -/
  | illFormedConfig
deriving DecidableEq, Repr

/-- The block right after reset (R36, R260): every register and flag 0, `PT` empty, no byte of `IN` or `OUT`
written and so none with a value. -/
def Block.reset : Block where
  inMem := []
  inWritten := []
  inLen := 0#32
  inLock := false
  mfPos := 0#32
  pt := []
  token := 0#32
  outMem := []
  outWritten := []
  bpK := 0#32
  cur := 0#8
  fill := 0#3
  outLen := 0#32
  fault := false
  cause := 0#4
  faultCmd := 0#64

/-- The machine right after reset of a block built with configuration `c`. The host has issued nothing. -/
def State.resetWith (c : Config) : State :=
  { Block.reset with cfg := c, pending := [], replies := [], draws := 0 }

/-- The machine right after reset, with the configuration of log entry 1. -/
def State.reset : State := State.resetWith Config.chosen

end Sys2Proof.Machine
end

