-- ==== Sys2Proof/Machine/Operands.lean ====
section
/-! DEFINITION. The values commands work on: Tokens and their token words (spec/10_state.md R40,
spec/30_encoding.md R79), Codes and the bits they place (spec/10_state.md R41, spec/40_bitpacker.md R102,
R103), and which operand values are legal (R102, R182). -/

namespace Sys2Proof.Machine

/-- A Token (R40). -/
inductive Token where
  /-- One input byte. -/
  | literal (b : Byte)
  /-- The next `length` bytes repeat the bytes starting `distance` bytes back. -/
  | copy (length : Nat) (distance : Nat)
deriving DecidableEq, Repr

/-- A Match is legal when 3 <= L <= 258 and 1 <= D <= 32768; every Literal is legal (R40). -/
def Token.legal : Token → Bool
  | .literal _ => true
  | .copy length distance =>
    decide (minMatch ≤ length) && decide (length ≤ maxMatch) &&
    decide (minDist ≤ distance) && decide (distance ≤ window)

/-- How many input bytes a Token covers (R40, R130). -/
def Token.consumed : Token → Nat
  | .literal _ => 1
  | .copy length _ => length

/-- The token word of a Token (R79): Literal(b) is 0x80000000 + b, Match(L, D) is
0xC0000000 + L*65536 + D. -/
def Token.word : Token → Word
  | .literal b => BitVec.ofNat 32 (0x80000000 + b.toNat)
  | .copy length distance => BitVec.ofNat 32 (0xC0000000 + length * 65536 + distance)

/-- `TOKEN.VALID`, bit 31 of a token word (R79). -/
def tokenWordValid (t : Word) : Bool := t.getLsbD 31

/-- `KIND`, bit 30 of a token word: 1 for a Match (R79). -/
def tokenWordKind (t : Word) : Bool := t.getLsbD 30

/-- What a token word with VALID = 1 stands for (R79, R179). -/
def tokenOfWord (t : Word) : Token :=
  if tokenWordKind t then .copy (t.extractLsb' 16 9).toNat (t.extractLsb' 0 16).toNat
  else .literal (t.extractLsb' 0 8)

/-- The order in which a Code's bits are placed (R41). -/
inductive BitOrder where
  /-- Bit 0 of the value first. -/
  | lsbFirst
  /-- Bit width-1 of the value first. -/
  | msbFirst
deriving DecidableEq, Repr

/-- A Code (R41). -/
structure Code where
  /-- An unsigned integer; bits at positions `width` and above are not placed (R109). -/
  value : Nat
  /-- How many bits are placed. -/
  width : Nat
  /-- In which order. -/
  order : BitOrder
deriving DecidableEq, Repr

/-- v[0], v[1], ..., v[n-1]: the order of BP_ADD_LSB (R102). -/
def bitsLsbFirst (v n : Nat) : List Bool := (List.range n).map fun j => v.testBit j

/-- v[n-1], ..., v[1], v[0]: the order of BP_ADD_MSB (R103). -/
def bitsMsbFirst (v n : Nat) : List Bool := (List.range n).map fun j => v.testBit (n - 1 - j)

/-- The bits a Code places, in stream order (R105). -/
def Code.bits (c : Code) : List Bool :=
  match c.order with
  | .lsbFirst => bitsLsbFirst c.value c.width
  | .msbFirst => bitsMsbFirst c.value c.width

/-- The bits a sequence of Codes places, in stream order (R105). -/
def codesBits (codes : List Code) : List Bool := codes.flatMap Code.bits

/-- The sum of the widths of a sequence of Codes (R105). -/
def codesWidth (codes : List Code) : Nat := (codes.map Code.width).sum

/-- `n` is at most 32 (R102, R103). -/
def legalWidth (n : Nat) : Bool := decide (n ≤ bpMaxBits)

/-- `length` is in 3..258 (R182). -/
def legalLength (length : Nat) : Bool := decide (minMatch ≤ length) && decide (length ≤ maxMatch)

/-- `distance` is in 1..32768 (R182). -/
def legalDistance (distance : Nat) : Bool := decide (minDist ≤ distance) && decide (distance ≤ window)

end Sys2Proof.Machine
end

