-- ==== Sys2Proof/Machine/Ops.lean ====
section
/-! DEFINITION. The operations over memory and registers that the commands share: reading and writing a
listed key, the two memories, the prefix table, the BitPacker's primitive and `emit`
(spec/40_bitpacker.md R100, R105, R110), entering the fault state and leaving it
(spec/60_exceptions.md R232, R236), and running one atomic command (spec/00_scope.md R16). -/

namespace Sys2Proof.Machine

/-! ## Keyed lists -/

/-- The entry at key `k`. -/
def lookupKey {α : Type} (k : Nat) : List (Nat × α) → Option α
  | [] => none
  | (a, v) :: rest => if a = k then some v else lookupKey k rest

/-- Set the entry at key `k`, keeping keys in rising order. -/
def insertKey {α : Type} (k : Nat) (v : α) : List (Nat × α) → List (Nat × α)
  | [] => [(k, v)]
  | (a, w) :: rest =>
    if k < a then (k, v) :: (a, w) :: rest
    else if k = a then (k, v) :: rest
    else (a, w) :: insertKey k v rest

/-- The keys rise strictly. -/
abbrev RisingKeys {α : Type} (l : List (Nat × α)) : Prop := l.Pairwise fun p q => p.1 < q.1

/-! ## Memories -/

/-- The canonical form of a memory: addresses strictly rising. An unlisted address holds no value, so no
entry can equal what an unlisted address reads as. -/
def Memory.wf (m : Memory) : Bool := decide (RisingKeys m)

/-- Every listed address is below `cap`: the memory lists only addresses that exist (R23, R33). -/
def Memory.below (cap : Nat) (m : Memory) : Bool := m.all fun c => decide (c.1 < cap)

/-- `MemRead` of one byte (R15): the byte at address `a`, or none where nothing gave it a value. -/
def Memory.read (m : Memory) (a : Nat) : Option Byte := lookupKey a m

/-- `MemWrite` of one byte (R15). -/
def Memory.write (m : Memory) (a : Nat) (b : Byte) : Memory := insertKey a b m

/-- The addresses a memory lists: those whose written flag is true (R44; MemoryInv of Safety.lean). -/
def Memory.addresses (m : Memory) : List Nat := m.map fun c => c.1

/-- The flag of address `a` (R44). -/
def WrittenFlags.get (f : WrittenFlags) (a : Nat) : Bool := f.contains a

/-- The flag of address `a` <- true (R44), keeping the addresses in rising order. -/
def WrittenFlags.set (f : WrittenFlags) (a : Nat) : WrittenFlags :=
  match f with
  | [] => [a]
  | x :: rest => if a < x then a :: x :: rest else if a = x then x :: rest else x :: WrittenFlags.set rest a

/-- `IN_WRITTEN[a]` (R44). -/
def State.inWrittenAt (s : State) (a : Nat) : Bool := WrittenFlags.get s.inWritten a

/-- `OUT_WRITTEN[a]` (R44). -/
def State.outWrittenAt (s : State) (a : Nat) : Bool := WrittenFlags.get s.outWritten a

/-- The value of IN[a]: none where `IN_WRITTEN[a]` is false (R44). For the MatchFinder this is InByte (R131). -/
def State.inByte (s : State) (a : Nat) : Option Byte :=
  match s.inWrittenAt a with
  | true => Memory.read s.inMem a
  | false => none

/-- The value of OUT[a]: none where `OUT_WRITTEN[a]` is false (R44). -/
def State.outByte (s : State) (a : Nat) : Option Byte :=
  match s.outWrittenAt a with
  | true => Memory.read s.outMem a
  | false => none

/-- Store a byte of `IN` and set its flag (R51). -/
def State.storeIn (s : State) (a : Nat) (b : Byte) : State :=
  { s with inMem := Memory.write s.inMem a b, inWritten := WrittenFlags.set s.inWritten a }

/-- Store a byte of `OUT` and set its flag (R56, R100, R104). -/
def State.storeOut (s : State) (a : Nat) (b : Byte) : State :=
  { s with outMem := Memory.write s.outMem a b, outWritten := WrittenFlags.set s.outWritten a }

/-- `IN_LEN` <- v (R38). -/
def State.withInLen (s : State) (v : Word) : State := { s with inLen := v }

/-- `OUT_LEN` <- v (R34). -/
def State.withOutLen (s : State) (v : Word) : State := { s with outLen := v }

/-! ## The prefix table -/

/-- PT[k]: the positions registered under key `k`, in registration order; empty if `k` has no entry (R27). -/
def PrefixTable.positions (pt : PrefixTable) (k : Key) : List Nat := (lookupKey k.toNat pt).getD []

/-- PT[k] <- append(PT[k], i); a key without an entry gets the list [i] (R135). -/
def PrefixTable.register (pt : PrefixTable) (k : Key) (i : Nat) : PrefixTable :=
  insertKey k.toNat (PrefixTable.positions pt k ++ [i]) pt

/-- The canonical form of the table: keys strictly rising and no empty list (R27). -/
def PrefixTable.wf (pt : PrefixTable) : Bool :=
  decide (RisingKeys pt) && pt.all fun e => !e.2.isEmpty

/-! ## The fault state -/

/-- The code of a cause in `CAUSE` (R231). -/
def Cause.code : Cause → BitVec 4
  | .illegalCmd => 1#4
  | .badWidth => 2#4
  | .badLength => 3#4
  | .badDistance => 4#4
  | .outOverflow => 5#4
  | .badInLen => 6#4
  | .lockedWrite => 7#4

/-- Fault entry (R232): `FAULT`, `CAUSE` and `FAULT_CMD` are written and nothing else changes. `w` is the
command word that raises the fault, 0 for a host write. -/
def State.enterFault (s : State) (c : Cause) (w : CommandWord) : State :=
  { s with fault := true, cause := c.code, faultCmd := w }

/-- `raise Fault(c)`: the first fault wins, so while `FAULT` = 1 a raise changes nothing (R233). -/
def State.raise (s : State) (c : Cause) (w : CommandWord) : State :=
  if s.fault then s else s.enterFault c w

/-- Reset, the only way out of the fault state (R236, R260): every element of R20 takes its reset value. The
built block's constants and the host's side stay. -/
def State.resetBlock (s : State) : State := { s with toBlock := Block.reset }

/-- How the pseudocode of a command ends early. -/
inductive Stop where
  /-- `raise Fault(c)` (R15). -/
  | raised (c : Cause)
  /-- The model fault UNWRITTEN_READ (R240). -/
  | unwrittenRead
deriving DecidableEq, Repr

/-- Run the pseudocode `body` of a command whose word is `w` as one atomic step (R16). While `FAULT` = 1
nothing happens (R234). A raise enters the fault state from the state before the command, so a faulting
command writes nothing but the fault registers (R16, R232). -/
def runCommand (w : CommandWord) (body : State → Except Stop State) (s : State) :
    Host.Outcome State Fault Refusal :=
  if s.fault then .next s
  else
    match body s with
    | .ok t => .next t
    | .error (.raised c) => .next (s.raise c w)
    | .error .unwrittenRead => .fault .unwrittenRead

/-! ## The BitPacker -/

/-- `BIT_LEN` = 8*BP_K + FILL (R32). -/
def State.bitLen (s : State) : Nat := 8 * s.bpK.toNat + s.fill.toNat

/-- `CUR` with the bit `b` placed at bit `FILL` (R100). -/
def State.curWith (s : State) (b : Bool) : Byte := s.cur ||| (BitVec.ofBool b).setWidth 8 <<< s.fill.toNat

/-- The eighth bit of a byte completes it: it goes to OUT[BP_K] and a fresh partial byte starts (R100). -/
def State.completeByte (s : State) (b : Bool) : State :=
  { s.storeOut s.bpK.toNat (s.curWith b) with bpK := s.bpK + 1#32, cur := 0#8, fill := 0#3 }

/-- A bit that does not complete the partial byte (R100). -/
def State.placeInCur (s : State) (b : Bool) : State :=
  { s with cur := s.curWith b, fill := s.fill + 1#3 }

/-- `put_bit(b)` (R100). -/
def State.putBit (s : State) (b : Bool) : State :=
  if s.fill = 7#3 then s.completeByte b else s.placeInCur b

/-- `put_bit` of each bit, in order (R101). -/
def State.putBits (s : State) (bits : List Bool) : State := bits.foldl State.putBit s

/-- `fits(m)` (R110): 8*BP_K + FILL + m <= 8*OUT_CAP. -/
def State.fits (s : State) (m : Nat) : Bool := decide (s.bitLen + m ≤ 8 * s.cfg.outCap.toNat)

/-- `emit(codes)` (R105): the Codes are placed as one unit, after the check that all their bits fit (R110). -/
def State.emit (s : State) (codes : List Code) : Except Stop State :=
  if s.fits (codesWidth codes) then .ok (s.putBits (codesBits codes))
  else .error (.raised .outOverflow)

/-- Stream bit `j` of the bits accumulated so far (R32): bit j mod 8 of OUT[j div 8] for the completed
bytes, of `CUR` for the rest, and none at or above `BIT_LEN`. -/
def State.streamBit (s : State) (j : Nat) : Option Bool :=
  if j < 8 * s.bpK.toNat then (s.outByte (j / 8)).map fun b => b.getLsbD (j % 8)
  else if j < s.bitLen then some (s.cur.getLsbD (j % 8))
  else none

/-! ## The host's side -/

/-- The block takes up the host's oldest access. -/
def State.withPending (s : State) (rest : List HostAccess) : State := { s with pending := rest }

/-- A host read returns a value. -/
def State.reply (s : State) (r : HostReply) : State := { s with replies := s.replies ++ [r] }

/-- A free byte has been drawn (log entry 2). -/
def State.drawn (s : State) : State := { s with draws := s.draws + 1 }

end Sys2Proof.Machine
end

