-- ==== Sys2Proof/Machine/BitPacker.lean ====
section
/-! DEFINITION. The BitPacker commands BP_ADD_LSB, BP_ADD_MSB and BP_FINISH (spec/40_bitpacker.md). -/

namespace Sys2Proof.Machine

/-- What BP_ADD_LSB and BP_ADD_MSB share (R102, R103): BAD_WIDTH for n > 32, then the low `n` bits of
`value` in the given order, as `emit` of the one Code (value, n, order) places them (R80, R105). -/
def bpAdd (order : BitOrder) (value : Word) (n : Nat) (s : State) : Except Stop State :=
  if legalWidth n then s.emit [{ value := value.toNat, width := n, order := order }]
  else .error (.raised .badWidth)

/-- BP_ADD_LSB value, n (R102): bit 0 of `value` first. -/
def execBpAddLsb (value : Word) (n : Nat) (s : State) : Host.Outcome State Fault Refusal :=
  runCommand (encode (.bpAddLsb value n)) (bpAdd .lsbFirst value n) s

/-- BP_ADD_MSB value, n (R103): bit n-1 of `value` first. -/
def execBpAddMsb (value : Word) (n : Nat) (s : State) : Host.Outcome State Fault Refusal :=
  runCommand (encode (.bpAddMsb value n)) (bpAdd .msbFirst value n) s

/-- The body of BP_FINISH (R104): a partial byte is written to OUT[BP_K], zero-padded at the top because
the bits of `CUR` from `FILL` up are 0 (R31), and `OUT_LEN` counts it. `BP_K`, `CUR` and `FILL` stay. -/
def State.finishBody (s : State) : State :=
  if s.fill = 0#3 then s.withOutLen s.bpK
  else (s.storeOut s.bpK.toNat s.cur).withOutLen (s.bpK + 1#32)

/-- BP_FINISH (R104). -/
def execBpFinish (s : State) : Host.Outcome State Fault Refusal :=
  runCommand (encode .bpFinish) (fun s => .ok s.finishBody) s

end Sys2Proof.Machine
end

