-- ==== Sys2Proof/Machine/MatchFinder.lean ====
section
/-! DEFINITION. The MatchFinder and its command MF_STEP (spec/41_matchfinder.md). The iteration is written
over a reader `rd` of input bytes that answers none for a byte nothing has written (R131), so that the
machine and the spec's function MF_tokens (R147) are one text. A result of none is UNWRITTEN_READ. -/

namespace Sys2Proof.Machine

/-- key(i): the three bytes at i, i+1 and i+2 (R131). The first byte is the most significant; the spec names
no order and no output depends on one (log entry 4). -/
def keyAt (rd : Nat → Option Byte) (i : Nat) : Option Key :=
  match rd i, rd (i + 1), rd (i + 2) with
  | some b0, some b1, some b2 => some (b0 ++ b1 ++ b2)
  | _, _, _ => none

/-- The loop of `extend` (R138): `room` more bytes may still match, which is L < MAX_MATCH. -/
def extendFrom (rd : Nat → Option Byte) (c i n : Nat) : (room : Nat) → (L : Nat) → Option Nat
  | 0, L => some L
  | room + 1, L =>
    if i + L < n then
      match rd (c + L), rd (i + L) with
      | some x, some y => if x = y then extendFrom rd c i n room (L + 1) else some L
      | _, _ => none
    else some L

/-- extend(c, i, n) (R138): the match length of candidate `c` for position `i`, starting at MIN_MATCH. -/
def extend (rd : Nat → Option Byte) (c i n : Nat) : Option Nat :=
  extendFrom rd c i n (maxMatch - minMatch) minMatch

/-- The scan (R136, R137, R139, R151) over candidates in the order examined. `best` is
(best_len, best_dist). -/
def scan (rd : Nat → Option Byte) (i n : Nat) : (candidates : List Nat) → (best : Nat × Nat) →
    Option (Nat × Nat)
  | [], best => some best
  | c :: older, best =>
    if window < i - c then some best
    else
      match extend rd c i n with
      | none => none
      | some L =>
        let best' := if best.1 < L then (L, i - c) else best
        if L = maxMatch then some best' else scan rd i n older best'

/-- One iteration at position `i` of an input of `n` bytes (R133, R134, R135, R140, R141): the Token it
produces, if any, and the prefix table after it. -/
def iterate (rd : Nat → Option Byte) (n i : Nat) (pt : PrefixTable) :
    Option (Option Token × PrefixTable) :=
  if n ≤ i then some (none, pt)
  else if n - i < minMatch then
    match rd i with
    | some b => some (some (.literal b), pt)
    | none => none
  else
    match keyAt rd i, rd i with
    | some k, some b =>
      match scan rd i n (PrefixTable.positions pt k).reverse (0, 0) with
      | some best =>
        some (some (if minMatch ≤ best.1 then .copy best.1 best.2 else .literal b),
          PrefixTable.register pt k i)
      | none => none
    | _, _ => none

/-- A step that produces Token `t` (R143): `TOKEN` holds its word, `MF_POS` moves past the bytes it covers,
and `IN_LOCK` is set. -/
def State.produce (s : State) (t : Token) (pt : PrefixTable) : State :=
  { s with
    token := t.word, mfPos := BitVec.ofNat 32 (s.mfPos.toNat + t.consumed), pt := pt, inLock := true }

/-- A step with no input left (R133): `TOKEN` <- 0 and nothing else changes. -/
def State.noToken (s : State) : State := { s with token := 0#32 }

/-- MF_STEP after its `IN_LEN` check (R144, R211). -/
def mfStepBody (s : State) : Except Stop State :=
  match iterate s.inByte s.inLen.toNat s.mfPos.toNat s.pt with
  | none => .error .unwrittenRead
  | some (none, _) => .ok s.noToken
  | some (some t, pt) => .ok (s.produce t pt)

/-- The check MF_STEP and COMPRESS make first (R144, R211): BAD_IN_LEN when `IN_LEN` > IN_CAP. -/
def checkInLen (s : State) : Except Stop Unit :=
  if s.cfg.inCap < s.inLen then .error (.raised .badInLen) else .ok ()

/-- The pseudocode of MF_STEP (R144). -/
def mfStep (s : State) : Except Stop State :=
  match checkInLen s with
  | .error e => .error e
  | .ok () => mfStepBody s

/-- MF_STEP (R144). -/
def execMfStep (s : State) : Host.Outcome State Fault Refusal :=
  runCommand (encode .mfStep) mfStep s

end Sys2Proof.Machine
end

