-- ==== Sys2Proof/Machine/Flags.lean ====
section
/-! DEFINITION. The block's status flags and the register map (spec/10_state.md R36 to R39). The block
has no condition codes: its flags are `FAULT`, `IN_LOCK` and `TOKEN.VALID`. -/

namespace Sys2Proof.Machine

/-- `TOKEN.VALID` = TOKEN[31] (R39). -/
def State.tokenValid (s : State) : Bool := tokenWordValid s.token

/-- Register 0, `STATUS` (R36): [31:9] 0, [8] IN_LOCK, [7:4] CAUSE, [3:1] 0, [0] FAULT. -/
def State.status (s : State) : Word :=
  0#23 ++ BitVec.ofBool s.inLock ++ s.cause ++ 0#3 ++ BitVec.ofBool s.fault

/-- The value of register `r`, assembled from the current state (R36, R37). -/
def State.readRegister (s : State) (r : RegNo) : Word :=
  match r.toNat with
  | 0 => s.status
  | 1 => s.faultCmd.extractLsb' 0 32
  | 2 => s.faultCmd.extractLsb' 32 32
  | 3 => s.inLen
  | 4 => s.mfPos
  | 5 => s.token
  | 6 => BitVec.ofNat 32 s.bitLen
  | 7 => s.outLen
  | 8 => s.cfg.inCap
  | 9 => s.cfg.outCap
  | _ => 0#32

/-- A host write of register `r` (R37, R38). Only register 3, `IN_LEN`, is writable: while `IN_LOCK` = 1 the
write is dropped and raises LOCKED_WRITE with `FAULT_CMD` = 0. Any other write is ignored. -/
def State.writeRegister (s : State) (r : RegNo) (v : Word) : State :=
  if r = 3#4 then
    if s.inLock then s.raise .lockedWrite 0#64 else s.withInLen v
  else s

end Sys2Proof.Machine
end

