-- ==== Sys2Proof/Machine/SymbolEncoder.lean ====
section
/-! DEFINITION. The SymbolEncoder's tables and codes, and its commands SE_HEADER, SE_LITERAL, SE_MATCH,
SE_EOB and SE_TOKEN (spec/42_symbol_encoder.md). The unit holds no state. -/

namespace Sys2Proof.Machine

/-- A row of the length table or of the distance table (R170, R171). -/
structure TableRow where
  /-- The symbol. -/
  symbol : Nat
  /-- How many extra bits follow its code. -/
  extra : Nat
  /-- The first value the row covers (rangeStart). -/
  start : Nat
deriving DecidableEq, Repr

/-- The 29 rows of the length table (R170). -/
def lengthTable : List TableRow :=
  [⟨257, 0, 3⟩, ⟨258, 0, 4⟩, ⟨259, 0, 5⟩, ⟨260, 0, 6⟩, ⟨261, 0, 7⟩, ⟨262, 0, 8⟩, ⟨263, 0, 9⟩, ⟨264, 0, 10⟩] ++
  [⟨265, 1, 11⟩, ⟨266, 1, 13⟩, ⟨267, 1, 15⟩, ⟨268, 1, 17⟩, ⟨269, 2, 19⟩, ⟨270, 2, 23⟩, ⟨271, 2, 27⟩, ⟨272, 2, 31⟩] ++
  [⟨273, 3, 35⟩, ⟨274, 3, 43⟩, ⟨275, 3, 51⟩, ⟨276, 3, 59⟩, ⟨277, 4, 67⟩, ⟨278, 4, 83⟩, ⟨279, 4, 99⟩, ⟨280, 4, 115⟩] ++
  [⟨281, 5, 131⟩, ⟨282, 5, 163⟩, ⟨283, 5, 195⟩, ⟨284, 5, 227⟩, ⟨285, 0, 258⟩]

/-- The 30 rows of the distance table (R171). -/
def distanceTable : List TableRow :=
  [⟨0, 0, 1⟩, ⟨1, 0, 2⟩, ⟨2, 0, 3⟩, ⟨3, 0, 4⟩, ⟨4, 1, 5⟩, ⟨5, 1, 7⟩, ⟨6, 2, 9⟩, ⟨7, 2, 13⟩] ++
  [⟨8, 3, 17⟩, ⟨9, 3, 25⟩, ⟨10, 4, 33⟩, ⟨11, 4, 49⟩, ⟨12, 5, 65⟩, ⟨13, 5, 97⟩, ⟨14, 6, 129⟩, ⟨15, 6, 193⟩] ++
  [⟨16, 7, 257⟩, ⟨17, 7, 385⟩, ⟨18, 8, 513⟩, ⟨19, 8, 769⟩, ⟨20, 9, 1025⟩, ⟨21, 9, 1537⟩, ⟨22, 10, 2049⟩] ++
  [⟨23, 10, 3073⟩, ⟨24, 11, 4097⟩, ⟨25, 11, 6145⟩, ⟨26, 12, 8193⟩, ⟨27, 12, 12289⟩, ⟨28, 13, 16385⟩,
    ⟨29, 13, 24577⟩]

/-- lookup(table, v) (R172): the last row whose start is at most `v`, the rows being in ascending order;
`first` is the table's first row. -/
def lookupFrom (first : TableRow) (table : List TableRow) (v : Nat) : TableRow :=
  table.foldl (fun e r => if r.start ≤ v then r else e) first

/-- The row of the length table for a length (R170, R172). -/
def lengthRow (length : Nat) : TableRow := lookupFrom ⟨257, 0, 3⟩ lengthTable length

/-- The row of the distance table for a distance (R171, R172). -/
def distanceRow (distance : Nat) : TableRow := lookupFrom ⟨0, 0, 1⟩ distanceTable distance

/-- The code of a length symbol (R174). -/
def huffLength (symbol : Nat) : Code :=
  if symbol ≤ 279 then ⟨symbol - 256, 7, .msbFirst⟩ else ⟨symbol - 280 + 0xC0, 8, .msbFirst⟩

/-- The code of a distance symbol (R175). -/
def huffDistance (symbol : Nat) : Code := ⟨symbol, 5, .msbFirst⟩

/-- The code of a Literal (R173). -/
def codesLiteral (b : Byte) : List Code :=
  if b.toNat ≤ 143 then [⟨b.toNat + 0x30, 8, .msbFirst⟩] else [⟨b.toNat - 144 + 0x190, 9, .msbFirst⟩]

/-- The extra bits of a value in its row, LSB-first; none for a row with no extra bits (R178). -/
def extraCodes (row : TableRow) (v : Nat) : List Code :=
  if 0 < row.extra then [⟨v - row.start, row.extra, .lsbFirst⟩] else []

/-- The codes of a Match (R178): length code, length extra bits, distance code, distance extra bits. -/
def codesMatch (length distance : Nat) : List Code :=
  [huffLength (lengthRow length).symbol] ++ extraCodes (lengthRow length) length ++
    [huffDistance (distanceRow distance).symbol] ++ extraCodes (distanceRow distance) distance

/-- The codes of a Token (R179). -/
def codesToken : Token → List Code
  | .literal b => codesLiteral b
  | .copy length distance => codesMatch length distance

/-- HEADER_CODES (R176): BFINAL = 1, then BTYPE = 0b01 LSB-first. -/
def headerCodes : List Code := [⟨1, 1, .msbFirst⟩, ⟨1, 2, .lsbFirst⟩]

/-- EOB_CODES (R177). -/
def eobCodes : List Code := [⟨0, 7, .msbFirst⟩]

/-- SE_HEADER (R180). -/
def execSeHeader (s : State) : Host.Outcome State Fault Refusal :=
  runCommand (encode .seHeader) (fun s => s.emit headerCodes) s

/-- SE_LITERAL lit (R181). -/
def execSeLiteral (lit : Byte) (s : State) : Host.Outcome State Fault Refusal :=
  runCommand (encode (.seLiteral lit)) (fun s => s.emit (codesLiteral lit)) s

/-- The pseudocode of SE_MATCH (R182): BAD_LENGTH, then BAD_DISTANCE, then `emit`. -/
def seMatch (length distance : Nat) (s : State) : Except Stop State :=
  if legalLength length then
    if legalDistance distance then s.emit (codesMatch length distance)
    else .error (.raised .badDistance)
  else .error (.raised .badLength)

/-- SE_MATCH length, distance (R182). -/
def execSeMatch (length distance : Nat) (s : State) : Host.Outcome State Fault Refusal :=
  runCommand (encode (.seMatch length distance)) (seMatch length distance) s

/-- SE_EOB (R183). -/
def execSeEob (s : State) : Host.Outcome State Fault Refusal :=
  runCommand (encode .seEob) (fun s => s.emit eobCodes) s

/-- The pseudocode of SE_TOKEN (R184): no effect when `TOKEN` holds no token. -/
def seToken (s : State) : Except Stop State :=
  if s.tokenValid then s.emit (codesToken (tokenOfWord s.token)) else .ok s

/-- SE_TOKEN (R184). -/
def execSeToken (s : State) : Host.Outcome State Fault Refusal :=
  runCommand (encode .seToken) seToken s

end Sys2Proof.Machine
end

