-- ==== Sys2Proof/Machine/Encoder.lean ====
section
/-! DEFINITION. The Encoder sequencer's commands INIT and COMPRESS (spec/43_encoder.md). -/

namespace Sys2Proof.Machine

/-- datapath_init() (R210). -/
def State.datapathInit (s : State) : State :=
  { s with
    mfPos := 0#32, pt := [], token := 0#32, inLock := false, bpK := 0#32, cur := 0#8, fill := 0#3,
    outLen := 0#32 }

/-- INIT (R210). -/
def execInit (s : State) : Host.Outcome State Fault Refusal :=
  runCommand (encode .init) (fun s => .ok s.datapathInit) s

/-- The MatchFinder state is discarded at the end of COMPRESS (R211, R218). -/
def State.discardMatchFinder (s : State) : State :=
  { s with pt := [], mfPos := 0#32, token := 0#32, inLock := false }

/-- The loop of COMPRESS (R211). `fuel` bounds its iterations; from `MF_POS` = 0 an input of n bytes needs at
most n + 1 of them (R147), so the loop always leaves by its own exit (log entry 5). -/
def compressLoop : (fuel : Nat) → State → Except Stop State
  | 0, s => .ok s
  | fuel + 1, s =>
    match mfStepBody s with
    | .error e => .error e
    | .ok t =>
      if t.tokenValid then
        match t.emit (codesToken (tokenOfWord t.token)) with
        | .error e => .error e
        | .ok u => compressLoop fuel u
      else .ok t

/-- COMPRESS after its `IN_LEN` check (R211). -/
def compressBody (s : State) : Except Stop State :=
  match s.datapathInit.emit headerCodes with
  | .error e => .error e
  | .ok t =>
    match compressLoop (s.inLen.toNat + 1) t with
    | .error e => .error e
    | .ok u =>
      match u.emit eobCodes with
      | .error e => .error e
      | .ok v => .ok v.finishBody.discardMatchFinder

/-- The pseudocode of COMPRESS (R211). -/
def compress (s : State) : Except Stop State :=
  match checkInLen s with
  | .error e => .error e
  | .ok () => compressBody s

/-- COMPRESS (R211). -/
def execCompress (s : State) : Host.Outcome State Fault Refusal :=
  runCommand (encode .compress) compress s

end Sys2Proof.Machine
end

