-- ==== Sys2Proof/Machine/Dispatch.lean ====
section
/-! DEFINITION. The meaning of each command (spec/30_encoding.md R76), one arm per constructor. -/

namespace Sys2Proof.Machine

/-- What a command does. -/
def exec (i : Instr) (s : State) : Host.Outcome State Fault Refusal :=
  match i with
  | .init => Sys2Proof.Machine.execInit s
  | .bpAddLsb value n => Sys2Proof.Machine.execBpAddLsb value n s
  | .bpAddMsb value n => Sys2Proof.Machine.execBpAddMsb value n s
  | .bpFinish => Sys2Proof.Machine.execBpFinish s
  | .mfStep => Sys2Proof.Machine.execMfStep s
  | .seHeader => Sys2Proof.Machine.execSeHeader s
  | .seLiteral lit => Sys2Proof.Machine.execSeLiteral lit s
  | .seMatch length distance => Sys2Proof.Machine.execSeMatch length distance s
  | .seToken => Sys2Proof.Machine.execSeToken s
  | .seEob => Sys2Proof.Machine.execSeEob s
  | .compress => Sys2Proof.Machine.execCompress s

end Sys2Proof.Machine
end

