-- ==== Sys2Proof/Machine/HostPort.lean ====
section
/-! DEFINITION. The accesses of the host (spec/20_memory.md R51 to R58, spec/10_state.md R37, R38,
spec/70_reset_and_hazards.md R260). Each is one atomic step (R62), and they take effect in the order the
host issues them (R66). -/

namespace Sys2Proof.Machine

/-- A word at the command port (R58): an illegal one raises ILLEGAL_CMD with `FAULT_CMD` = the word (R77), a
legal one runs. While `FAULT` = 1 either does nothing (R234). -/
def writeCommand (w : CommandWord) (s : State) : Host.Outcome State Fault Refusal :=
  match decode w with
  | .ok i => exec i s
  | .error _ => .next (s.raise .illegalCmd w)

/-- HostWriteIn(a, b) (R51). -/
def hostWriteIn (a : Nat) (b : Byte) (s : State) : State :=
  if s.cfg.inCap.toNat ≤ a then s
  else if s.inLock then s.raise .lockedWrite 0#64
  else s.storeIn a b

/-- A host read of address `a` of a byte memory of `cap` bytes (R52, R53), where `value` is what the byte
holds: 0x00 at or above `cap`, a free byte where nothing has been written. -/
def hostReadByte (value : Option Byte) (cap : Nat) (a : Nat) (s : State) : State :=
  if cap ≤ a then s.reply (.byte 0x00#8)
  else
    match value with
    | some b => s.reply (.byte b)
    | none => (s.reply (.byte (Config.freeByte s.draws))).drawn

/-- A host read of `IN` (R52). -/
def hostReadIn (a : Nat) (s : State) : State := hostReadByte (s.inByte a) s.cfg.inCap.toNat a s

/-- A host read of `OUT` (R53). -/
def hostReadOut (a : Nat) (s : State) : State := hostReadByte (s.outByte a) s.cfg.outCap.toNat a s

/-- A host write to `OUT` is ignored (R54). -/
def hostWriteOut (_a : Nat) (_b : Byte) (s : State) : State := s

/-- A host write at the register port (R57). -/
def hostWriteReg (r : RegNo) (v : Word) (s : State) : State := s.writeRegister r v

/-- A host read at the register port (R57). -/
def hostReadReg (r : RegNo) (s : State) : State := s.reply (.word (s.readRegister r))

/-- One host access. -/
def access (x : HostAccess) (s : State) : Host.Outcome State Fault Refusal :=
  match x with
  | .command w => writeCommand w s
  | .writeIn a b => .next (hostWriteIn a b s)
  | .readIn a => .next (hostReadIn a s)
  | .writeOut a b => .next (hostWriteOut a b s)
  | .readOut a => .next (hostReadOut a s)
  | .writeReg r v => .next (hostWriteReg r v s)
  | .readReg r => .next (hostReadReg r s)
  | .reset => .next s.resetBlock

/-- The accesses of the pseudo-instruction LOAD_INPUT (R85): the bytes in order, then `IN_LEN`. -/
def loadInput (x : List Byte) : List HostAccess :=
  (List.range x.length).map (fun j => .writeIn j (x.getD j 0#8)) ++
    [.writeReg 3#4 (BitVec.ofNat 32 x.length)]

/-- The accesses issued in order, stopping at the first that does not answer a next state (R66). -/
def accesses : List HostAccess → State → Host.Outcome State Fault Refusal
  | [], s => .next s
  | x :: rest, s =>
    match access x s with
    | .next t => accesses rest t
    | .fault r => .fault r
    | .refused r => .refused r

end Sys2Proof.Machine
end

