-- ==== Sys2Proof/Machine/Step.lean ====
section
/-! DEFINITION. One step: the block performs the host's oldest access completely before it takes up another
(spec/20_memory.md R58, R66). It has no program counter and fetches no instruction (spec/10_state.md R22). -/

namespace Sys2Proof.Machine

/-- One step. A machine with an ill-formed configuration is refused (R10). With no access issued the block
waits for the host (R261). -/
def step (s : State) : Host.Outcome State Fault Refusal :=
  if s.cfg.wf then
    match s.pending with
    | [] => .next s
    | x :: rest => access x (s.withPending rest)
  else .refused .illFormedConfig

/-- `s` with the command word held in the low `nbits` bits of `w` as the host's next access (log entry 6). -/
def State.withFetchWord (s : State) (nbits w : Nat) : State :=
  s.withPending (.command (BitVec.ofNat 64 (w % 2 ^ nbits)) :: s.pending)

end Sys2Proof.Machine
end

