-- ==== Sys2Proof/Machine/Reference.lean ====
section
/-! DEFINITION. The spec's functions on byte sequences, which no step calls: MF_tokens (spec/41_matchfinder.md
R147), compress (spec/43_encoder.md R212), what Tokens stand for (R148), and a decoder of one fixed-Huffman
block (R216, written from spec/30_encoding.md R81 to R83 and the tables of R170 and R171; log entry 7). -/

namespace Sys2Proof.Machine

/-- The Tokens from position `i` on, with prefix table `pt` (R147); `fuel` bounds the iterations. -/
def tokensFrom (x : List Byte) : (fuel : Nat) → (i : Nat) → PrefixTable → List Token
  | 0, _, _ => []
  | fuel + 1, i, pt =>
    match iterate (fun j => x[j]?) x.length i pt with
    | some (some t, pt') => t :: tokensFrom x fuel (i + t.consumed) pt'
    | _ => []

/-- MF_tokens(x) (R147): the Tokens from position 0 and an empty table, in at most n + 1 iterations. -/
def mfTokens (x : List Byte) : List Token := tokensFrom x (x.length + 1) 0 []

/-- The Codes of the block of `x` (R185). -/
def blockCodes (x : List Byte) : List Code := headerCodes ++ (mfTokens x).flatMap codesToken ++ eobCodes

/-- The bit stream of the block of `x` (R212). -/
def blockBits (x : List Byte) : List Bool := codesBits (blockCodes x)

/-- A byte of up to eight bits, the first at bit 0, zero-padded at the top (spec/20_memory.md R59). -/
def byteOfBits (bits : List Bool) : Byte :=
  BitVec.ofNat 8 (bits.foldr (fun b acc => b.toNat + 2 * acc) 0)

/-- The bytes of a bit stream (R59): stream bit s is bit s mod 8 of byte s div 8. -/
def packBytes (bits : List Bool) : List Byte :=
  (List.range ((bits.length + 7) / 8)).map fun k => byteOfBits ((bits.drop (8 * k)).take 8)

/-- compress(x) (R212). -/
def compressBytes (x : List Byte) : List Byte := packBytes (blockBits x)

/-! ## What Tokens stand for (R148) -/

/-- Append `length` bytes, each the byte `distance` back (R148: copied byte by byte). None if the distance
refers to before the first byte. -/
def copyBack (distance : Nat) : (length : Nat) → List Byte → Option (List Byte)
  | 0, acc => some acc
  | length + 1, acc =>
    if 1 ≤ distance ∧ distance ≤ acc.length then
      match acc[acc.length - distance]? with
      | some b => copyBack distance length (acc ++ [b])
      | none => none
    else none

/-- The bytes one Token adds. -/
def expandToken (acc : List Byte) : Token → Option (List Byte)
  | .literal b => some (acc ++ [b])
  | .copy length distance => copyBack distance length acc

/-- The bytes a Token sequence stands for, after the bytes `acc` (R148). -/
def expandTokens : List Byte → List Token → Option (List Byte)
  | acc, [] => some acc
  | acc, t :: ts =>
    match expandToken acc t with
    | some acc' => expandTokens acc' ts
    | none => none

/-! ## A decoder of one fixed-Huffman block (R216) -/

/-- Read `n` bits, the first the most significant. -/
def takeMsb : (n : Nat) → List Bool → Option (Nat × List Bool)
  | 0, bits => some (0, bits)
  | _ + 1, [] => none
  | n + 1, b :: bits =>
    match takeMsb n bits with
    | some (v, rest) => some (b.toNat * 2 ^ n + v, rest)
    | none => none

/-- Read `n` bits, the first the least significant. -/
def takeLsb : (n : Nat) → List Bool → Option (Nat × List Bool)
  | 0, bits => some (0, bits)
  | _ + 1, [] => none
  | n + 1, b :: bits =>
    match takeLsb n bits with
    | some (v, rest) => some (b.toNat + 2 * v, rest)
    | none => none

/-- Read one literal/length symbol: the first seven bits tell the length of the code (R81, R82). -/
def takeSymbol (bits : List Bool) : Option (Nat × List Bool) :=
  match takeMsb 7 bits with
  | none => none
  | some (v, rest) =>
    if v ≤ 0b0010111 then some (256 + v, rest)
    else if v ≤ 0b1011111 then
      match takeMsb 8 bits with
      | some (u, rest) => some (u - 0x30, rest)
      | none => none
    else if v ≤ 0b1100011 then
      match takeMsb 8 bits with
      | some (u, rest) => some (280 + (u - 0xC0), rest)
      | none => none
    else
      match takeMsb 9 bits with
      | some (u, rest) => some (144 + (u - 0x190), rest)
      | none => none

/-- Read a length after its symbol, or a distance after its symbol: the row's start plus its extra bits. -/
def takeExtra (table : List TableRow) (symbol : Nat) (bits : List Bool) : Option (Nat × List Bool) :=
  match table.find? fun r => r.symbol == symbol with
  | none => none
  | some row =>
    match takeLsb row.extra bits with
    | some (v, rest) => some (row.start + v, rest)
    | none => none

/-- Decode the symbols of a block up to its end-of-block symbol; `fuel` bounds their number. -/
def inflateSymbols : (fuel : Nat) → List Bool → List Byte → Option (List Byte)
  | 0, _, _ => none
  | fuel + 1, bits, acc =>
    match takeSymbol bits with
    | none => none
    | some (symbol, rest) =>
      if symbol < 256 then inflateSymbols fuel rest (acc ++ [BitVec.ofNat 8 symbol])
      else if symbol = 256 then some acc
      else
        match takeExtra lengthTable symbol rest with
        | none => none
        | some (length, rest) =>
          match takeMsb 5 rest with
          | none => none
          | some (dsymbol, rest) =>
            match takeExtra distanceTable dsymbol rest with
            | none => none
            | some (distance, rest) =>
              match copyBack distance length acc with
              | none => none
              | some acc' => inflateSymbols fuel rest acc'

/-- Decode a bit stream that starts with the header of a final fixed-Huffman block (R83). -/
def inflateBits : List Bool → Option (List Byte)
  | true :: true :: false :: bits => inflateSymbols (bits.length + 1) bits []
  | _ => none

/-- The bits of a byte sequence in stream order (R59). -/
def bytesBits (y : List Byte) : List Bool :=
  y.flatMap fun b => (List.range 8).map fun j => b.getLsbD j

/-- Decode the bytes of one final fixed-Huffman block (R216). -/
def inflateBytes (y : List Byte) : Option (List Byte) := inflateBits (bytesBits y)

end Sys2Proof.Machine
end

