-- ==== Sys2Proof/Safety.lean ====
section
/-! DEFINITION. The terms claims use: what a safe step is, when the input is in memory, and the invariants
of the state that the spec's rules give (spec/10_state.md R26, R28, R31, R35, spec/20_memory.md R55, R56,
spec/40_bitpacker.md R110, spec/41_matchfinder.md R145, spec/60_exceptions.md R231). -/

namespace Sys2Proof.Machine

/-- A step that neither stops with a fault nor is refused. The block's own fault state is a next state. -/
def SafeStep (s : State) : Prop := ∃ t, step s = .next t

/-- The host has written every input byte below `IN_LEN` since reset (R240, R263). -/
abbrev InputLoaded (s : State) : Prop := ∀ j, j < s.inLen.toNat → (s.inByte j).isSome = true

/-- The input bytes of the state are `x`: `IN_LEN` is its length and IN[j] is x[j] (R23). -/
abbrev HoldsInput (s : State) (x : List Byte) : Prop :=
  s.inLen.toNat = x.length ∧ ∀ j, j < x.length → s.inByte j = x[j]?

/-- The result of the block is `y`: `OUT_LEN` is its length and OUT[k] is y[k] (R53). -/
abbrev HoldsOutput (s : State) (y : List Byte) : Prop :=
  s.outLen.toNat = y.length ∧ ∀ k, k < y.length → s.outByte k = y[k]?

/-! ## What a command does to the BitPacker and to the MatchFinder -/

/-- Nothing but the BitPacker's own state differs: `OUT` with `OUT_WRITTEN`, `BP_K`, `CUR` and `FILL`. -/
def SameExceptBitPacker (s t : State) : Prop :=
  t = { s with outMem := t.outMem, outWritten := t.outWritten, bpK := t.bpK, cur := t.cur, fill := t.fill }

/-- IN[a] and IN_WRITTEN[a] are the same in both states. -/
abbrev SameInAt (s t : State) (a : Nat) : Prop :=
  Memory.read t.inMem a = Memory.read s.inMem a ∧ t.inWrittenAt a = s.inWrittenAt a

/-- OUT[a] and OUT_WRITTEN[a] are the same in both states. -/
abbrev SameOutAt (s t : State) (a : Nat) : Prop :=
  Memory.read t.outMem a = Memory.read s.outMem a ∧ t.outWrittenAt a = s.outWrittenAt a

/-- `t` is `s` after `bits` have been placed at the bit cursor (R56, R101): the stream grows by them, no bit
placed before changes, the partial byte is clean, `OUT` is written only at the bytes completed (from `BP_K`
before to `BP_K` after), and nothing outside the BitPacker changes. -/
def PlacesBits (s t : State) (bits : List Bool) : Prop :=
  t.bitLen = s.bitLen + bits.length ∧
  (∀ j, j < s.bitLen → t.streamBit j = s.streamBit j) ∧
  (∀ j, j < bits.length → t.streamBit (s.bitLen + j) = bits[j]?) ∧
  t.cur.toNat < 2 ^ t.fill.toNat ∧
  (∀ a, a < s.bpK.toNat ∨ t.bpK.toNat ≤ a → SameOutAt s t a) ∧
  SameExceptBitPacker s t

/-- `s` after fault entry with cause code `cause` and command word `w` (R232). -/
def Faulted (s : State) (cause : BitVec 4) (w : CommandWord) : State :=
  { s with fault := true, cause := cause, faultCmd := w }

/-- What `FAULT_CMD` records of an access that raises a fault: the command word, and 0 for a host write (R35). -/
def HostAccess.faultWord : HostAccess → CommandWord
  | .command w => w
  | .writeIn _ _ => 0#64
  | .readIn _ => 0#64
  | .writeOut _ _ => 0#64
  | .readOut _ => 0#64
  | .writeReg _ _ => 0#64
  | .readReg _ => 0#64
  | .reset => 0#64

/-- The number R79 gives for a Token's token word. -/
def Token.wordNumber : Token → Nat
  | .literal b => 0x80000000 + b.toNat
  | .copy length distance => 0xC0000000 + length * 65536 + distance

/-- The command that emits a Token's fields: SE_LITERAL or SE_MATCH (R184). -/
def Token.emitCommand : Token → Instr
  | .literal b => .seLiteral b
  | .copy length distance => .seMatch length distance

/-- `L` is the match length of candidate `c` for position `i` (R138): all `L` bytes are equal, `L` is in 3..258
and inside the input, and it stops for one of the three reasons. -/
abbrev MatchLength (s : State) (c i L : Nat) : Prop :=
  (minMatch ≤ L ∧ L ≤ maxMatch ∧ i + L ≤ s.inLen.toNat) ∧
  (∀ k, k < L → s.inByte (c + k) = s.inByte (i + k)) ∧
  (L = maxMatch ∨ i + L = s.inLen.toNat ∨ s.inByte (c + L) ≠ s.inByte (i + L))

/-- How many bits a command places, for the commands that place bits one by one (R102 to R105, R180 to R184). -/
def bitsToPlace (i : Instr) (s : State) : Nat :=
  match i with
  | .init => 0
  | .bpAddLsb _ n => n
  | .bpAddMsb _ n => n
  | .bpFinish => 0
  | .mfStep => 0
  | .seHeader => 3
  | .seLiteral lit => if lit.toNat ≤ 143 then 8 else 9
  | .seMatch length distance => codesWidth (codesMatch length distance)
  | .seToken => if s.tokenValid then codesWidth (codesToken (tokenOfWord s.token)) else 0
  | .seEob => 7
  | .compress => 0

/-- The first fault condition that holds, in the order of R235 after decoding: BAD_IN_LEN, BAD_WIDTH,
BAD_LENGTH, BAD_DISTANCE, OUT_OVERFLOW, each for the commands R235 names. -/
def firstCause (i : Instr) (s : State) : Option Cause :=
  if (i = .mfStep ∨ i = .compress) ∧ s.cfg.inCap.toNat < s.inLen.toNat then some .badInLen
  else
    match i with
    | .bpAddLsb _ n => if 32 < n then some .badWidth else overflow
    | .bpAddMsb _ n => if 32 < n then some .badWidth else overflow
    | .seMatch length distance =>
      if length < 3 ∨ 258 < length then some .badLength
      else if distance < 1 ∨ 32768 < distance then some .badDistance
      else overflow
    | _ => overflow
where
  /-- OUT_OVERFLOW when the command's bits do not fit (R110). -/
  overflow : Option Cause :=
    if 0 < bitsToPlace i s ∧ 8 * s.cfg.outCap.toNat < s.bitLen + bitsToPlace i s then some .outOverflow
    else none

/-! ## Invariants -/

/-- Bits 7 down to `FILL` of `CUR` are 0 (R31). -/
abbrev CurClean (s : State) : Prop := s.cur.toNat < 2 ^ s.fill.toNat

/-- `BIT_LEN` <= 8*OUT_CAP (R110). -/
abbrev StreamFits (s : State) : Prop := s.bitLen ≤ 8 * s.cfg.outCap.toNat

/-- Both memories are in canonical form and list only addresses that exist (R23, R33), and the written flags
are true at exactly the addresses that hold a value (R44). -/
abbrev MemoryInv (s : State) : Prop :=
  Memory.wf s.inMem = true ∧ Memory.below s.cfg.inCap.toNat s.inMem = true ∧
  Memory.wf s.outMem = true ∧ Memory.below s.cfg.outCap.toNat s.outMem = true ∧
  s.inWritten = Memory.addresses s.inMem ∧ s.outWritten = Memory.addresses s.outMem

/-- The BitPacker's state (R31, R33, R110): the partial byte is clean, the stream fits, every complete byte
is held in `OUT`, and so is every byte of the last result. -/
abbrev BitPackerInv (s : State) : Prop :=
  CurClean s ∧ StreamFits s ∧
  (∀ a, a < s.bpK.toNat → (s.outByte a).isSome = true) ∧ (∀ a, a < s.outLen.toNat → (s.outByte a).isSome = true)

/-- The prefix table during a run (R28): keys rise; each list is not empty and strictly increasing; every
position p of key k has p < `MF_POS`, p + 3 <= `IN_LEN` and the three bytes at p equal to k; and at most
`MF_POS` positions are held in all. That no position appears twice follows. -/
abbrev PrefixTableInv (s : State) : Prop :=
  RisingKeys s.pt ∧
  (∀ e ∈ s.pt, e.2 ≠ [] ∧ e.2.Pairwise (· < ·) ∧
    ∀ p ∈ e.2, p < s.mfPos.toNat ∧ p + minMatch ≤ s.inLen.toNat ∧
      (keyAt s.inByte p).map BitVec.toNat = some e.1) ∧
  ((s.pt.map fun e => e.2.length).sum ≤ s.mfPos.toNat)

/-- The MatchFinder's cursor and lock (R25, R26): `MF_POS` <= `IN_LEN`; outside a run the MatchFinder is in
its fresh state; during a run `IN_LEN` <= IN_CAP. -/
abbrev CursorInv (s : State) : Prop :=
  s.mfPos.toNat ≤ s.inLen.toNat ∧
  (s.inLock = false → s.mfPos = 0#32 ∧ s.pt = []) ∧
  (s.inLock = true → s.inLen.toNat ≤ s.cfg.inCap.toNat)

/-- `TOKEN` is 0 or the token word of a legal Token (R30, R145). -/
abbrev TokenInv (s : State) : Prop :=
  s.token = 0#32 ∨ ((tokenOfWord s.token).legal = true ∧ s.token = (tokenOfWord s.token).word)

/-- Which command words a cause code can stand beside in the fault registers (R231): 0 with `FAULT_CMD` 0;
ILLEGAL_CMD with an illegal word; BAD_WIDTH, BAD_LENGTH and BAD_DISTANCE with a command whose operand is out
of range; OUT_OVERFLOW with a command that emits bits and passed those checks; BAD_IN_LEN with MF_STEP or
COMPRESS; LOCKED_WRITE with `FAULT_CMD` 0; no other code. -/
def causeRecords (cause : BitVec 4) (w : CommandWord) : Bool :=
  match cause.toNat, decode w with
  | 0, _ => w == 0#64
  | 1, .error _ => true
  | 2, .ok (.bpAddLsb _ n) => !legalWidth n
  | 2, .ok (.bpAddMsb _ n) => !legalWidth n
  | 3, .ok (.seMatch length _) => !legalLength length
  | 4, .ok (.seMatch length distance) => legalLength length && !legalDistance distance
  | 5, .ok (.bpAddLsb _ n) => legalWidth n
  | 5, .ok (.bpAddMsb _ n) => legalWidth n
  | 5, .ok .seHeader => true
  | 5, .ok (.seLiteral _) => true
  | 5, .ok (.seMatch length distance) => legalLength length && legalDistance distance
  | 5, .ok .seToken => true
  | 5, .ok .seEob => true
  | 6, .ok .mfStep => true
  | 6, .ok .compress => true
  | 7, _ => w == 0#64
  | _, _ => false

/-- The fault registers (R35, R231): `FAULT` is 1 exactly when `CAUSE` is not 0, and `FAULT_CMD` is a word
that can raise that cause. -/
abbrev FaultInv (s : State) : Prop :=
  (s.fault = true ↔ s.cause ≠ 0#4) ∧ causeRecords s.cause s.faultCmd = true

/-- All the invariants. -/
abbrev Inv (s : State) : Prop :=
  MemoryInv s ∧ BitPackerInv s ∧ CursorInv s ∧ PrefixTableInv s ∧ TokenInv s ∧ FaultInv s

end Sys2Proof.Machine
end

