-- ==== Sys2Proof/Certificates/Slice0/Obligations.lean ====
section
/-! DEFINITION. The statements for the provers. Each docstring names the rules of spec/ it formalises. -/

open Sys2Proof Sys2Proof.Machine

/-! ## Encoding -/

/-- Words written out from the formats of R71 to R74 and the opcodes of R76 (the vectors of
spec/95_test_vectors.md) decode to the commands they stand for. -/
def Obligations.DecodeWrittenWords : Prop :=
  decode 0x0100000000000000#64 = .ok .init ∧
  decode 0x110C000000000005#64 = .ok (.bpAddMsb 5#32 3) ∧
  decode 0x10800000DEADBEEF#64 = .ok (.bpAddLsb 0xDEADBEEF#32 32) ∧
  decode 0x2000000000000000#64 = .ok .mfStep ∧
  decode 0x310000000000008F#64 = .ok (.seLiteral 143#8) ∧
  decode 0x3200010200008000#64 = .ok (.seMatch 258 32768) ∧
  decode 0x4000000000000000#64 = .ok .compress ∧
  decode 0x0000000000000000#64 = .error .unassignedOpcode ∧
  decode 0x3200020000000000#64 = .error .reservedBitSet

/-- R70 to R76: decoding the encoding of a well-formed command gives it back, with every operand at every
value its field admits. -/
def Obligations.DecodeOfEncode : Prop :=
  ∀ i : Instr, i.wf = true → decode (encode i) = .ok i

/-- R71 to R77: a legal word decodes to a well-formed command and is that command's encoding, so no two words
share a meaning and FAULT_CMD is the word that was written. -/
def Obligations.EncodeOfDecode : Prop :=
  ∀ (w : CommandWord) (i : Instr), decode w = .ok i → i.wf = true ∧ encode i = w

/-- R75, R76: the rows of the opcode map, each with its match, its mask and the command it stands for, whose
operands are the bits of the word's fields. A word decodes to a command exactly when a row selects it and
gives that command, and no word is selected by two rows. -/
def Obligations.DecodeFollowsOpcodeMap : Prop :=
  let rows : List (CommandWord × CommandWord × (CommandWord → Instr)) :=
    [(0x0100000000000000#64, 0xFFFFFFFFFFFFFFFF#64, fun _ => .init),
     (0x1000000000000000#64, 0xFF03FFFF00000000#64,
       fun w => .bpAddLsb (w.extractLsb' 0 32) (w.extractLsb' 50 6).toNat),
     (0x1100000000000000#64, 0xFF03FFFF00000000#64,
       fun w => .bpAddMsb (w.extractLsb' 0 32) (w.extractLsb' 50 6).toNat),
     (0x1200000000000000#64, 0xFFFFFFFFFFFFFFFF#64, fun _ => .bpFinish),
     (0x2000000000000000#64, 0xFFFFFFFFFFFFFFFF#64, fun _ => .mfStep),
     (0x3000000000000000#64, 0xFFFFFFFFFFFFFFFF#64, fun _ => .seHeader),
     (0x3100000000000000#64, 0xFFFFFFFFFFFFFF00#64, fun w => .seLiteral (w.extractLsb' 0 8)),
     (0x3200000000000000#64, 0xFFFFFE00FFFF0000#64,
       fun w => .seMatch (w.extractLsb' 32 9).toNat (w.extractLsb' 0 16).toNat),
     (0x3300000000000000#64, 0xFFFFFFFFFFFFFFFF#64, fun _ => .seToken),
     (0x3400000000000000#64, 0xFFFFFFFFFFFFFFFF#64, fun _ => .seEob),
     (0x4000000000000000#64, 0xFFFFFFFFFFFFFFFF#64, fun _ => .compress)]
  (∀ (w : CommandWord) (i : Instr),
    decode w = .ok i ↔ ∃ r ∈ rows, w &&& r.2.1 = r.1 ∧ i = r.2.2 w) ∧
  (∀ w : CommandWord, ∀ r ∈ rows, ∀ r' ∈ rows, w &&& r.2.1 = r.1 → w &&& r'.2.1 = r'.1 → r.1 = r'.1)

/-- R77: a word is illegal exactly when its opcode is none of the eleven or a reserved bit of its format (R71
to R74) is 1; it raises ILLEGAL_CMD with FAULT_CMD = the word and has no other effect; the all-zero and the
all-ones word are illegal. -/
def Obligations.IllegalWordsRaiseIllegalCmd : Prop :=
  (∀ w : CommandWord,
    (∃ e, decode w = .error e) ↔
      (w.extractLsb' 56 8 ∉ assignedOpcodes ∨
       (w.extractLsb' 56 8 ∈ [0x01#8, 0x12#8, 0x20#8, 0x30#8, 0x33#8, 0x34#8, 0x40#8] ∧
          w.extractLsb' 0 56 ≠ 0#56) ∨
       (w.extractLsb' 56 8 ∈ [0x10#8, 0x11#8] ∧ w.extractLsb' 32 18 ≠ 0#18) ∨
       (w.extractLsb' 56 8 = 0x31#8 ∧ w.extractLsb' 8 48 ≠ 0#48) ∨
       (w.extractLsb' 56 8 = 0x32#8 ∧ (w.extractLsb' 41 15 ≠ 0#15 ∨ w.extractLsb' 16 16 ≠ 0#16)))) ∧
  (∀ (w : CommandWord) (e : IllegalCommand) (s : State), decode w = .error e → s.fault = false →
    access (.command w) s = .next (Faulted s 1#4 w)) ∧
  (∃ e, decode 0x0000000000000000#64 = .error e) ∧ (∃ e, decode 0xFFFFFFFFFFFFFFFF#64 = .error e)

/-- R79: the token word of a legal Token has VALID = 1, stands for that Token and no other, and is the number
R79 gives; the no-token word 0 has VALID = 0. -/
def Obligations.TokenWordHoldsItsToken : Prop :=
  tokenWordValid 0#32 = false ∧ ∀ t : Token, t.legal = true →
    tokenWordValid t.word = true ∧ tokenOfWord t.word = t ∧ t.word ≠ 0#32 ∧ t.word.toNat = t.wordNumber

/-! ## The step and the host's accesses -/

/-- R58, R66: when the host's oldest access is a word at the command port that decodes to `i`, one step is
`i` run at the state whose queue has moved past it. -/
def Obligations.StepRunsTheDecodedCommand : Prop :=
  ∀ (s : State) (w : CommandWord) (rest : List HostAccess) (i : Instr),
    s.cfg.wf = true → s.pending = .command w :: rest → decode w = .ok i →
    i.wf = true ∧ step s = exec i { s with pending := rest }

/-- R10, R58, R66, R261: a machine with an ill-formed configuration is refused; one with no access to perform
waits; otherwise the oldest access is performed, and one access leaves the later ones queued. -/
def Obligations.StepPerformsTheOldestAccess : Prop :=
  (∀ s : State, s.cfg.wf = false → step s = .refused .illFormedConfig) ∧
  (∀ s : State, s.cfg.wf = true → s.pending = [] → step s = .next s) ∧
  (∀ (s : State) (x : HostAccess) (rest : List HostAccess), s.cfg.wf = true → s.pending = x :: rest →
    step s = access x { s with pending := rest }) ∧
  (∀ (x : HostAccess) (s t : State), access x s = .next t → t.pending = s.pending ∧ t.cfg = s.cfg)

/-- R260, R36: the reset state, and reset as an event: every element takes its value, whatever the state
before, and afterwards registers 0 to 7 and 10 to 15 read 0 and registers 8 and 9 read the capacities. -/
def Obligations.ResetLeavesTheResetState : Prop :=
  (∀ s : State, ∃ t, access .reset s = .next t ∧
    t = { State.resetWith s.cfg with pending := s.pending, replies := s.replies, draws := s.draws }) ∧
  (∀ c : Config, let t := State.resetWith c
    t.fault = false ∧ t.cause = 0#4 ∧ t.faultCmd = 0#64 ∧ t.inLen = 0#32 ∧ t.inLock = false ∧
    t.mfPos = 0#32 ∧ t.pt = [] ∧ t.token = 0#32 ∧ t.bpK = 0#32 ∧ t.cur = 0#8 ∧ t.fill = 0#3 ∧
    t.bitLen = 0 ∧ t.outLen = 0#32 ∧ (∀ a, t.inWrittenAt a = false) ∧ (∀ a, t.outWrittenAt a = false) ∧
    t.readRegister 8#4 = c.inCap ∧ t.readRegister 9#4 = c.outCap ∧
    ∀ r : RegNo, r ≠ 8#4 → r ≠ 9#4 → t.readRegister r = 0#32)

/-- R36, R37: a host read of a register returns the map's value, assembled from the current state, and changes
nothing in the block. -/
def Obligations.RegisterReadsFollowTheMap : Prop :=
  (∀ (s : State) (r : RegNo), access (.readReg r) s =
    .next { s with replies := s.replies ++ [.word (s.readRegister r)] }) ∧
  (∀ s : State,
    (s.readRegister 0#4).getLsbD 0 = s.fault ∧ (s.readRegister 0#4).extractLsb' 1 3 = 0#3 ∧
    (s.readRegister 0#4).extractLsb' 4 4 = s.cause ∧ (s.readRegister 0#4).getLsbD 8 = s.inLock ∧
    (s.readRegister 0#4).extractLsb' 9 23 = 0#23 ∧
    s.readRegister 2#4 ++ s.readRegister 1#4 = s.faultCmd ∧
    s.readRegister 3#4 = s.inLen ∧ s.readRegister 4#4 = s.mfPos ∧ s.readRegister 5#4 = s.token ∧
    s.readRegister 6#4 = BitVec.ofNat 32 (8 * s.bpK.toNat + s.fill.toNat) ∧
    s.readRegister 7#4 = s.outLen ∧ s.readRegister 8#4 = s.cfg.inCap ∧ s.readRegister 9#4 = s.cfg.outCap ∧
    ∀ r : RegNo, 10 ≤ r.toNat → s.readRegister r = 0#32)

/-- R37, R38: a host write of register 3 is accepted while IN_LOCK = 0, FAULT = 1 included, and otherwise is
dropped and raises LOCKED_WRITE with FAULT_CMD = 0, with no second fault while FAULT = 1; a write of any other
register changes nothing. -/
def Obligations.RegisterWritesReachOnlyInLen : Prop :=
  ∀ (s : State) (r : RegNo) (v : Word),
    (r ≠ 3#4 → access (.writeReg r v) s = .next s) ∧
    (s.inLock = false → access (.writeReg 3#4 v) s = .next { s with inLen := v }) ∧
    (s.inLock = true → s.fault = false → access (.writeReg 3#4 v) s = .next (Faulted s 7#4 0#64)) ∧
    (s.inLock = true → s.fault = true → access (.writeReg 3#4 v) s = .next s)

/-- R51, R54: a host write to IN at or above IN_CAP is ignored; while IN_LOCK = 1 it is dropped and raises
LOCKED_WRITE with FAULT_CMD = 0, with no second fault while FAULT = 1; otherwise, FAULT = 1 included, that
byte reads as written, IN_WRITTEN of it is set, and every other byte and flag is as before. A host write to
OUT changes nothing. -/
def Obligations.HostWritesOfTheMemories : Prop :=
  ∀ (s : State) (a : Nat) (b : Byte),
    (s.cfg.inCap.toNat ≤ a → access (.writeIn a b) s = .next s) ∧
    (a < s.cfg.inCap.toNat → s.inLock = true → s.fault = false →
      access (.writeIn a b) s = .next (Faulted s 7#4 0#64)) ∧
    (a < s.cfg.inCap.toNat → s.inLock = true → s.fault = true → access (.writeIn a b) s = .next s) ∧
    (a < s.cfg.inCap.toNat → s.inLock = false →
      ∃ t, access (.writeIn a b) s = .next t ∧ t = { s with inMem := t.inMem, inWritten := t.inWritten } ∧
        t.inWrittenAt a = true ∧ t.inByte a = some b ∧ ∀ a', a' ≠ a → SameInAt s t a') ∧
    access (.writeOut a b) s = .next s

/-- R52, R53, R63: a host read of IN or OUT returns 0x00 at or above its capacity, the byte where it has been
written, and otherwise a byte drawn freely at that read; it changes nothing in the block. A byte whose written
flag is false holds no value (R44). The draw is the model's free value (log entry 2), so the statement says only
that some byte is returned. -/
def Obligations.HostReadsOfTheMemories : Prop :=
  ∀ (s : State) (a : Nat),
    (s.cfg.inCap.toNat ≤ a →
      access (.readIn a) s = .next { s with replies := s.replies ++ [.byte 0x00#8] }) ∧
    (∀ b, a < s.cfg.inCap.toNat → s.inByte a = some b →
      access (.readIn a) s = .next { s with replies := s.replies ++ [.byte b] }) ∧
    (s.inWrittenAt a = false → s.inByte a = none) ∧
    (a < s.cfg.inCap.toNat → s.inByte a = none →
      ∃ b, access (.readIn a) s = .next { s with replies := s.replies ++ [.byte b], draws := s.draws + 1 }) ∧
    (s.cfg.outCap.toNat ≤ a →
      access (.readOut a) s = .next { s with replies := s.replies ++ [.byte 0x00#8] }) ∧
    (∀ b, a < s.cfg.outCap.toNat → s.outByte a = some b →
      access (.readOut a) s = .next { s with replies := s.replies ++ [.byte b] }) ∧
    (s.outWrittenAt a = false → s.outByte a = none) ∧
    (a < s.cfg.outCap.toNat → s.outByte a = none →
      ∃ b, access (.readOut a) s = .next { s with replies := s.replies ++ [.byte b], draws := s.draws + 1 })

/-- R85: with IN_LOCK = 0 and an input no longer than IN_CAP, the accesses of LOAD_INPUT leave exactly that
input in memory and change nothing but IN below its length, IN_WRITTEN there, and IN_LEN. -/
def Obligations.LoadInputHoldsTheInput : Prop :=
  ∀ (s : State) (x : List Byte), s.inLock = false → x.length ≤ s.cfg.inCap.toNat →
    ∃ t, accesses (loadInput x) s = .next t ∧ HoldsInput t x ∧
      t = { s with inMem := t.inMem, inWritten := t.inWritten, inLen := t.inLen } ∧
      ∀ a, x.length ≤ a → SameInAt s t a

/-! ## Memory and table laws -/

/-- R15, R27, R44: a read after a write; a write keeps the canonical form; two memories in canonical form that
read the same at every address are equal; setting a written flag sets that flag alone, and a write that sets it
keeps the flags true at exactly the addresses that hold a value; and the same of the prefix table. -/
def Obligations.MemoriesAreCanonicalMaps : Prop :=
  (∀ (m : Memory) (a a' : Nat) (b : Byte),
    Memory.read (Memory.write m a b) a' = if a' = a then some b else Memory.read m a') ∧
  (∀ (m : Memory) (a : Nat) (b : Byte), Memory.wf m = true → Memory.wf (Memory.write m a b) = true) ∧
  (∀ m m' : Memory, Memory.wf m = true → Memory.wf m' = true →
    (∀ a, Memory.read m a = Memory.read m' a) → m = m') ∧
  (∀ (f : WrittenFlags) (a a' : Nat),
    WrittenFlags.get (WrittenFlags.set f a) a' = if a' = a then true else WrittenFlags.get f a') ∧
  (∀ (m : Memory) (a : Nat) (b : Byte),
    WrittenFlags.set (Memory.addresses m) a = Memory.addresses (Memory.write m a b) ∧
    WrittenFlags.get (Memory.addresses m) a = (Memory.read m a).isSome) ∧
  (∀ (pt : PrefixTable) (k : Key) (i : Nat), PrefixTable.wf pt = true →
    PrefixTable.wf (PrefixTable.register pt k i) = true ∧
    PrefixTable.positions (PrefixTable.register pt k i) k = PrefixTable.positions pt k ++ [i] ∧
    ∀ k', k' ≠ k →
      PrefixTable.positions (PrefixTable.register pt k i) k' = PrefixTable.positions pt k')

/-! ## Faults -/

/-- R234, R233: while FAULT = 1 a command word, legal or not, changes nothing; and no access but reset changes
FAULT, CAUSE or FAULT_CMD. -/
def Obligations.FaultedBlockIgnoresCommands : Prop :=
  (∀ (s : State) (w : CommandWord), s.fault = true → access (.command w) s = .next s) ∧
  (∀ (s t : State) (x : HostAccess), s.fault = true → x ≠ .reset → access x s = .next t →
    t.fault = true ∧ t.cause = s.cause ∧ t.faultCmd = s.faultCmd)

/-- R232, R16: fault entry writes FAULT, CAUSE and FAULT_CMD and nothing else. Whatever access takes FAULT from
0 to 1, the state after it is the state before it plus the three fault fields, with a cause code of 1 to 7,
and FAULT_CMD is the command word, or 0 for a host write. -/
def Obligations.FaultsArePrecise : Prop :=
  ∀ (s t : State) (x : HostAccess), s.fault = false → access x s = .next t → t.fault = true →
    1 ≤ t.cause.toNat ∧ t.cause.toNat ≤ 7 ∧
    t = Faulted s t.cause x.faultWord

/-- R235: a command whose conditions hold reports exactly the first of them in R235's order, with its own word
as FAULT_CMD, and a command none of whose conditions hold raises nothing. FAULT = 1 comes first of all, and
the decoder before the operands. In states where BIT_LEN <= 8*OUT_CAP (R110), which every step keeps
(StepKeepsTheBitPacker). -/
def Obligations.FaultPriority : Prop :=
  ∀ (w : CommandWord) (s : State), s.cfg.wf = true → StreamFits s →
    (s.fault = true → access (.command w) s = .next s) ∧
    (s.fault = false → ∀ e, decode w = .error e → access (.command w) s = .next (Faulted s 1#4 w)) ∧
    (s.fault = false → ∀ i, decode w = .ok i →
      (∀ c, firstCause i s = some c → access (.command w) s = .next (Faulted s c.code w)) ∧
      (firstCause i s = none → ∀ t, access (.command w) s = .next t → t.fault = false))

/-- R39, R236: FAULT is cleared by reset alone, and only a command word or a host write to IN or register 3
sets it. -/
def Obligations.OnlyResetClearsFault : Prop :=
  ∀ (s t : State) (x : HostAccess), access x s = .next t →
    (s.fault = true → t.fault = false → x = .reset) ∧
    (s.fault = false → t.fault = true →
      (∃ w, x = .command w) ∨ (s.inLock = true ∧ ((∃ a b, x = .writeIn a b) ∨ ∃ v, x = .writeReg 3#4 v)))

/-! ## Whole-machine rules -/

/-- R25, R39, R143: IN_LOCK goes from 0 to 1 only by an MF_STEP that produces a token, and from 1 to 0 only by
INIT, COMPRESS or reset; every MF_STEP that moves MF_POS leaves it 1. -/
def Obligations.InLockFollowsTheRun : Prop :=
  ∀ (s t : State) (x : HostAccess), access x s = .next t →
    (s.inLock = false → t.inLock = true →
      ∃ w, x = .command w ∧ decode w = .ok .mfStep ∧ tokenWordValid t.token = true) ∧
    (s.inLock = true → t.inLock = false →
      x = .reset ∨ ∃ w, x = .command w ∧ (decode w = .ok .init ∨ decode w = .ok .compress)) ∧
    (∀ w, x = .command w → decode w = .ok .mfStep → t.mfPos ≠ s.mfPos → t.inLock = true)

/-- R34: OUT_LEN is written only by BP_FINISH, COMPRESS, INIT (to 0) and reset (to 0). -/
def Obligations.OutLenIsWrittenByFinishes : Prop :=
  ∀ (s t : State) (x : HostAccess), access x s = .next t → t.outLen ≠ s.outLen →
    (x = .reset ∧ t.outLen = 0#32) ∨
    ∃ w, x = .command w ∧ (decode w = .ok .bpFinish ∨ decode w = .ok .compress ∨
      (decode w = .ok .init ∧ t.outLen = 0#32))

/-- R56: the bytes OUT[0] .. OUT[BP_K - 1] are not rewritten, nor does BP_K fall, until INIT, COMPRESS or reset
(whose memory holds no written byte) sets BP_K to 0. -/
def Obligations.CompleteBytesAreFinal : Prop :=
  ∀ (s t : State) (x : HostAccess), access x s = .next t → x ≠ .reset →
    (∀ w, x = .command w → decode w ≠ .ok .init ∧ decode w ≠ .ok .compress) →
    s.bpK.toNat ≤ t.bpK.toNat ∧
    ∀ a, a < s.bpK.toNat → SameOutAt s t a

/-- R24, R55, R36: no command writes IN, IN_WRITTEN or IN_LEN, the capacities or anything of the host's side;
and a command either leaves all three fault registers alone or is fault entry and nothing else. -/
def Obligations.CommandsLeaveTheInputAlone : Prop :=
  ∀ (i : Instr) (s t : State), exec i s = .next t →
    t.cfg = s.cfg ∧ t.inMem = s.inMem ∧ t.inWritten = s.inWritten ∧ t.inLen = s.inLen ∧
    t.pending = s.pending ∧ t.replies = s.replies ∧ t.draws = s.draws ∧
    ((t.fault = s.fault ∧ t.cause = s.cause ∧ t.faultCmd = s.faultCmd) ∨
      ∃ c : Cause, t = Faulted s c.code (encode i))

/-- R210 to R218, R56: the frames of the commands by what they may write. The seven commands that place bits
write nothing but the BitPacker's state, and OUT only from BP_K before to BP_K after; BP_FINISH writes nothing
but OUT_LEN and OUT[BP_K] with its flag; MF_STEP writes nothing but PT, TOKEN, MF_POS and IN_LOCK. Fault entry
is not an effect of a command and is left out here. The frame of BP_FINISH holds in the states of log entry 16
too, where BP_K is at or above OUT_CAP and no run comes. -/
def Obligations.CommandFrames : Prop :=
  (∀ (i : Instr) (s t : State), exec i s = .next t → t.fault = s.fault →
    ((∃ v n, i = .bpAddLsb v n) ∨ (∃ v n, i = .bpAddMsb v n) ∨ i = .seHeader ∨ (∃ b, i = .seLiteral b) ∨
      (∃ l d, i = .seMatch l d) ∨ i = .seToken ∨ i = .seEob) →
    SameExceptBitPacker s t ∧
    ∀ a, a < s.bpK.toNat ∨ t.bpK.toNat ≤ a → SameOutAt s t a) ∧
  (∀ s t : State, exec .bpFinish s = .next t →
    t = { s with outMem := t.outMem, outWritten := t.outWritten, outLen := t.outLen } ∧
    ∀ a, a ≠ s.bpK.toNat → SameOutAt s t a) ∧
  (∀ s t : State, exec .mfStep s = .next t → t.fault = s.fault →
    t = { s with pt := t.pt, token := t.token, mfPos := t.mfPos, inLock := t.inLock })

/-! ## The BitPacker -/

/-- R102: BP_ADD_LSB value, n. -/
def Obligations.BpAddLsbPlacesLowBitsFirst : Prop :=
  ∀ (s : State) (value : Word) (n : Nat), s.fault = false →
    (32 < n → exec (.bpAddLsb value n) s = .next (Faulted s 2#4 (encode (.bpAddLsb value n)))) ∧
    (n ≤ 32 → 8 * s.cfg.outCap.toNat < s.bitLen + n →
      exec (.bpAddLsb value n) s = .next (Faulted s 5#4 (encode (.bpAddLsb value n)))) ∧
    (n ≤ 32 → s.bitLen + n ≤ 8 * s.cfg.outCap.toNat → CurClean s →
      ∃ t, exec (.bpAddLsb value n) s = .next t ∧
        PlacesBits s t ((List.range n).map fun j => value.getLsbD j))

/-- R103: BP_ADD_MSB value, n. -/
def Obligations.BpAddMsbPlacesHighBitsFirst : Prop :=
  ∀ (s : State) (value : Word) (n : Nat), s.fault = false →
    (32 < n → exec (.bpAddMsb value n) s = .next (Faulted s 2#4 (encode (.bpAddMsb value n)))) ∧
    (n ≤ 32 → 8 * s.cfg.outCap.toNat < s.bitLen + n →
      exec (.bpAddMsb value n) s = .next (Faulted s 5#4 (encode (.bpAddMsb value n)))) ∧
    (n ≤ 32 → s.bitLen + n ≤ 8 * s.cfg.outCap.toNat → CurClean s →
      ∃ t, exec (.bpAddMsb value n) s = .next t ∧
        PlacesBits s t ((List.range n).map fun j => value.getLsbD (n - 1 - j)))

/-- R109: bits of `value` at positions n and above do not fault and do not reach the output: where the n bits
fit, two values with the same low n bits have the same effect. -/
def Obligations.HighBitsAreIgnored : Prop :=
  ∀ (s : State) (v v' : Word) (n : Nat), n ≤ 32 → s.bitLen + n ≤ 8 * s.cfg.outCap.toNat →
    (∀ j, j < n → v.getLsbD j = v'.getLsbD j) →
    exec (.bpAddLsb v n) s = exec (.bpAddLsb v' n) s ∧ exec (.bpAddMsb v n) s = exec (.bpAddMsb v' n) s

/-- R107: the LSB split law. -/
def Obligations.LsbSplitLaw : Prop :=
  ∀ (s : State) (a b p q : Nat), s.fault = false → p + q ≤ 32 → a < 2 ^ p → b < 2 ^ q →
    s.bitLen + (p + q) ≤ 8 * s.cfg.outCap.toNat →
    ∃ t u, exec (.bpAddLsb (BitVec.ofNat 32 a) p) s = .next t ∧
      exec (.bpAddLsb (BitVec.ofNat 32 b) q) t = .next u ∧
      exec (.bpAddLsb (BitVec.ofNat 32 (a + b * 2 ^ p)) (p + q)) s = .next u

/-- R108: the MSB split law. -/
def Obligations.MsbSplitLaw : Prop :=
  ∀ (s : State) (a b p q : Nat), s.fault = false → p + q ≤ 32 → a < 2 ^ p → b < 2 ^ q →
    s.bitLen + (p + q) ≤ 8 * s.cfg.outCap.toNat →
    ∃ t u, exec (.bpAddMsb (BitVec.ofNat 32 a) p) s = .next t ∧
      exec (.bpAddMsb (BitVec.ofNat 32 b) q) t = .next u ∧
      exec (.bpAddMsb (BitVec.ofNat 32 (a * 2 ^ q + b)) (p + q)) s = .next u

/-- R104: BP_FINISH. With FILL > 0 it writes CUR to OUT[BP_K], which exists, and OUT_LEN counts that byte; the
byte is zero-padded at the top: its bits from FILL up are 0, as those of a clean CUR are. With FILL = 0 it writes
no byte. OUT_LEN is ceil(BIT_LEN / 8), and nothing else changes. For states whose stream fits OUT (R110), which
every step keeps (StepKeepsTheBitPacker), as it keeps CUR clean. -/
def Obligations.BpFinishWritesThePartialByte : Prop :=
  ∀ s : State, s.fault = false → StreamFits s →
    ∃ t, exec .bpFinish s = .next t ∧
      t = { s with outMem := t.outMem, outWritten := t.outWritten, outLen := t.outLen } ∧
      t.outLen.toNat = (s.bitLen + 7) / 8 ∧
      (s.fill = 0#3 → t.outMem = s.outMem ∧ t.outWritten = s.outWritten ∧ t.outLen = s.bpK) ∧
      (s.fill ≠ 0#3 → s.bpK.toNat < s.cfg.outCap.toNat ∧ t.outLen.toNat = s.bpK.toNat + 1 ∧
        t.outWrittenAt s.bpK.toNat = true ∧
        ∃ b, t.outByte s.bpK.toNat = some b ∧ b = s.cur ∧
          (CurClean s → ∀ j, s.fill.toNat ≤ j → b.getLsbD j = false)) ∧
      ∀ a, a ≠ s.bpK.toNat → SameOutAt s t a

/-- R104, R106: BP_FINISH is idempotent and non-destructive: a second one changes nothing, and a BP_ADD_LSB or a
BP_ADD_MSB after it goes on from the same cursor as if the finish had not happened, and leaves the byte the
finish wrote at BP_K alone until that byte completes. The second part is for states whose partial byte is clean
(R31, StepKeepsTheBitPacker) and adds that are legal and fit. -/
def Obligations.BpFinishIsIdempotent : Prop :=
  ∀ s t : State, exec .bpFinish s = .next t →
    exec .bpFinish t = .next t ∧
    (s.fault = false → CurClean s → ∀ (v : Word) (n : Nat), n ≤ 32 →
      s.bitLen + n ≤ 8 * s.cfg.outCap.toNat →
      ∀ add ∈ [Instr.bpAddLsb v n, Instr.bpAddMsb v n],
        ∃ s' t', exec add s = .next s' ∧ exec add t = .next t' ∧
          t'.bpK = s'.bpK ∧ t'.cur = s'.cur ∧ t'.fill = s'.fill ∧ (∀ j, t'.streamBit j = s'.streamBit j) ∧
          (s.fill.toNat + n < 8 → SameOutAt t t' s.bpK.toNat))

/-- R59, R104: after a finish, bit r of output byte k is stream bit 8k + r, and 0 above the end of the stream.
For states that meet the BitPacker's invariant (StepKeepsTheBitPacker). -/
def Obligations.FinishedOutputIsTheStream : Prop :=
  ∀ s : State, s.fault = false → BitPackerInv s →
    ∃ t, exec .bpFinish s = .next t ∧ t.outLen.toNat = (s.bitLen + 7) / 8 ∧
      ∀ k, k < t.outLen.toNat → ∃ b, t.outByte k = some b ∧
        ∀ r, r < 8 → b.getLsbD r = (s.streamBit (8 * k + r)).getD false

/-! ## The SymbolEncoder -/

/-- R180, R176: SE_HEADER places the stream bits 1, 1, 0. -/
def Obligations.SeHeaderPlacesTheBlockHeader : Prop :=
  ∀ s : State, s.fault = false →
    (8 * s.cfg.outCap.toNat < s.bitLen + 3 →
      exec .seHeader s = .next (Faulted s 5#4 0x3000000000000000#64)) ∧
    (s.bitLen + 3 ≤ 8 * s.cfg.outCap.toNat → CurClean s →
      ∃ t, exec .seHeader s = .next t ∧ PlacesBits s t [true, true, false])

/-- R183, R177: SE_EOB places seven 0 bits. -/
def Obligations.SeEobPlacesSevenZeros : Prop :=
  ∀ s : State, s.fault = false →
    (8 * s.cfg.outCap.toNat < s.bitLen + 7 →
      exec .seEob s = .next (Faulted s 5#4 0x3400000000000000#64)) ∧
    (s.bitLen + 7 ≤ 8 * s.cfg.outCap.toNat → CurClean s →
      ∃ t, exec .seEob s = .next t ∧ PlacesBits s t (List.replicate 7 false))

/-- R181, R173: SE_LITERAL lit places lit + 0x30 in 8 bits for lit <= 143 and lit - 144 + 0x190 in 9 bits
otherwise, most significant bit first. -/
def Obligations.SeLiteralPlacesTheLiteralCode : Prop :=
  ∀ (s : State) (lit : Byte), s.fault = false →
    let bits := if lit.toNat ≤ 143 then bitsMsbFirst (lit.toNat + 0x30) 8
      else bitsMsbFirst (lit.toNat - 144 + 0x190) 9
    (8 * s.cfg.outCap.toNat < s.bitLen + bits.length →
      exec (.seLiteral lit) s = .next (Faulted s 5#4 (encode (.seLiteral lit)))) ∧
    (s.bitLen + bits.length ≤ 8 * s.cfg.outCap.toNat → CurClean s →
      ∃ t, exec (.seLiteral lit) s = .next t ∧ PlacesBits s t bits)

/-- R182, R178, R172, R174, R175: SE_MATCH length, distance. BAD_LENGTH comes first, then BAD_DISTANCE, then
OUT_OVERFLOW; otherwise it places the length code, the length's extra bits, the distance code and the
distance's extra bits, of the last row of each table whose start is at most the value. -/
def Obligations.SeMatchPlacesTheMatchCodes : Prop :=
  ∀ (s : State) (length distance : Nat), s.fault = false →
    let w := encode (.seMatch length distance)
    (length < 3 ∨ 258 < length → exec (.seMatch length distance) s = .next (Faulted s 3#4 w)) ∧
    (3 ≤ length → length ≤ 258 → distance < 1 ∨ 32768 < distance →
      exec (.seMatch length distance) s = .next (Faulted s 4#4 w)) ∧
    (3 ≤ length → length ≤ 258 → 1 ≤ distance → distance ≤ 32768 →
      ∃ lrow ∈ lengthTable, ∃ drow ∈ distanceTable,
        (lrow.start ≤ length ∧ ∀ r ∈ lengthTable, r.start ≤ length → r.start ≤ lrow.start) ∧
        (drow.start ≤ distance ∧ ∀ r ∈ distanceTable, r.start ≤ distance → r.start ≤ drow.start) ∧
        let bits :=
          (if lrow.symbol ≤ 279 then bitsMsbFirst (lrow.symbol - 256) 7
            else bitsMsbFirst (lrow.symbol - 280 + 0xC0) 8) ++
          bitsLsbFirst (length - lrow.start) lrow.extra ++ bitsMsbFirst drow.symbol 5 ++
          bitsLsbFirst (distance - drow.start) drow.extra
        (8 * s.cfg.outCap.toNat < s.bitLen + bits.length →
          exec (.seMatch length distance) s = .next (Faulted s 5#4 w)) ∧
        (s.bitLen + bits.length ≤ 8 * s.cfg.outCap.toNat → CurClean s →
          ∃ t, exec (.seMatch length distance) s = .next t ∧ PlacesBits s t bits))

/-- R184, R179: SE_TOKEN has no effect when TOKEN holds no token; for the token word of a legal Token it has the
effect SE_LITERAL or SE_MATCH has for that Token's fields, completing exactly when that one does. -/
def Obligations.SeTokenEmitsTheToken : Prop :=
  (∀ s : State, s.fault = false → s.token.getLsbD 31 = false → exec .seToken s = .next s) ∧
  (∀ (s : State) (tk : Token), s.fault = false → tk.legal = true → s.token = tk.word →
    let bits := codesBits (codesToken tk)
    (8 * s.cfg.outCap.toNat < s.bitLen + bits.length →
      exec .seToken s = .next (Faulted s 5#4 0x3300000000000000#64)) ∧
    (s.bitLen + bits.length ≤ 8 * s.cfg.outCap.toNat → CurClean s →
      ∃ t, exec .seToken s = .next t ∧ exec tk.emitCommand s = .next t ∧ PlacesBits s t bits))

/-- R170, R171, R172: every legal length and every legal distance lies in the row the lookup selects, at an
offset that fits the row's extra bits; symbols run from 257 to 285 and from 0 to 29; a value equal to a row's
start selects that row; and the three rows the source states are 3, 10 and 258. Each row's range is exactly
2^extra wide: the next row starts there, but for length symbol 284, whose 5 extra bits cover the 31 lengths from
227 to 257; and the last distance row ends at 32768. -/
def Obligations.LookupSelectsTheRow : Prop :=
  (∀ length, 3 ≤ length → length ≤ 258 →
    lengthRow length ∈ lengthTable ∧ (lengthRow length).start ≤ length ∧
    length - (lengthRow length).start < 2 ^ (lengthRow length).extra) ∧
  (∀ distance, 1 ≤ distance → distance ≤ 32768 →
    distanceRow distance ∈ distanceTable ∧ (distanceRow distance).start ≤ distance ∧
    distance - (distanceRow distance).start < 2 ^ (distanceRow distance).extra) ∧
  (∀ r ∈ lengthTable, lengthRow r.start = r) ∧ (∀ r ∈ distanceTable, distanceRow r.start = r) ∧
  lengthTable.map (·.symbol) = List.range' 257 29 ∧ distanceTable.map (·.symbol) = List.range 30 ∧
  lengthRow 3 = ⟨257, 0, 3⟩ ∧ lengthRow 10 = ⟨264, 0, 10⟩ ∧ lengthRow 258 = ⟨285, 0, 258⟩ ∧
  (∀ p ∈ lengthTable.zip lengthTable.tail, p.1.symbol ≠ 284 → p.2.start = p.1.start + 2 ^ p.1.extra) ∧
  lengthRow 227 = ⟨284, 5, 227⟩ ∧ lengthRow 257 = ⟨284, 5, 227⟩ ∧
  (∀ p ∈ distanceTable.zip distanceTable.tail, p.2.start = p.1.start + 2 ^ p.1.extra) ∧
  (distanceRow 32768).start + 2 ^ (distanceRow 32768).extra = 32769

/-- R187, R188: every Code of a legal Token, of the header and of the end of block has a value below 2^width
and a width of 1 to 13. -/
def Obligations.CodesFitTheirWidths : Prop :=
  (∀ t : Token, t.legal = true → ∀ c ∈ codesToken t, c.value < 2 ^ c.width ∧ 1 ≤ c.width ∧ c.width ≤ 13) ∧
  ∀ c ∈ headerCodes ++ eobCodes, c.value < 2 ^ c.width ∧ 1 ≤ c.width ∧ c.width ≤ 13

/-- R189: a Literal costs 8 or 9 bits; a Match costs 12 to 31 bits and never more than 9 bits for each byte it
covers. -/
def Obligations.TokenBitCounts : Prop :=
  (∀ b : Byte, codesWidth (codesToken (.literal b)) = 8 ∨ codesWidth (codesToken (.literal b)) = 9) ∧
  (∀ length distance, (Token.copy length distance).legal = true →
    12 ≤ codesWidth (codesToken (.copy length distance)) ∧
    codesWidth (codesToken (.copy length distance)) ≤ 31 ∧
    codesWidth (codesToken (.copy length distance)) ≤ 9 * length)

/-! ## The MatchFinder -/

/-- R133: with no input left MF_STEP writes TOKEN = 0 and nothing else. -/
def Obligations.MfStepAtEndOfInput : Prop :=
  ∀ s : State, s.fault = false → s.inLen.toNat ≤ s.cfg.inCap.toNat → s.inLen.toNat ≤ s.mfPos.toNat →
    exec .mfStep s = .next { s with token := 0#32 }

/-- R134, R143: with one or two bytes left MF_STEP produces Literal(IN[i]), advances MF_POS by 1, sets IN_LOCK
and registers nothing. -/
def Obligations.MfStepOnTheTail : Prop :=
  ∀ (s : State) (b : Byte), s.fault = false → s.inLen.toNat ≤ s.cfg.inCap.toNat →
    1 ≤ s.inLen.toNat - s.mfPos.toNat → s.inLen.toNat - s.mfPos.toNat ≤ 2 →
    s.inByte s.mfPos.toNat = some b →
    exec .mfStep s = .next { s with
      token := BitVec.ofNat 32 (0x80000000 + b.toNat), mfPos := s.mfPos + 1#32, inLock := true }

/-- R135, R138 to R146, R151: MF_STEP with three or more bytes left and the input in memory. It registers the
position under its key and nothing else. It produces a Literal when no position registered under the key lies
within the window, and otherwise the Match of a candidate c within the window whose match length no other
candidate within the window exceeds and every more recent one falls short of. For states that meet the
prefix table's invariant (StepKeepsTheMatchFinder). -/
def Obligations.MfStepFindsTheBestMatch : Prop :=
  ∀ s : State, s.fault = false → s.inLen.toNat ≤ s.cfg.inCap.toNat → InputLoaded s → PrefixTableInv s →
    s.mfPos.toNat + 3 ≤ s.inLen.toNat →
    ∃ k b, keyAt s.inByte s.mfPos.toNat = some k ∧ s.inByte s.mfPos.toNat = some b ∧
      let i := s.mfPos.toNat
      let cs := (PrefixTable.positions s.pt k).filter fun c => decide (i - c ≤ window)
      let t : State := { s with pt := PrefixTable.register s.pt k i, inLock := true }
      (cs = [] → exec .mfStep s = .next { t with
        token := BitVec.ofNat 32 (0x80000000 + b.toNat), mfPos := BitVec.ofNat 32 (i + 1) }) ∧
      (cs ≠ [] → ∃ c ∈ cs, ∃ L, MatchLength s c i L ∧ 1 ≤ i - c ∧
        (∀ c' ∈ cs, ∀ L', MatchLength s c' i L' → L' ≤ L ∧ (c < c' → L' < L)) ∧
        exec .mfStep s = .next { t with
          token := BitVec.ofNat 32 (0xC0000000 + L * 65536 + (i - c)), mfPos := BitVec.ofNat 32 (i + L) })

/-- R131, R144, R240: MF_STEP raises BAD_IN_LEN when IN_LEN > IN_CAP, before anything is read; otherwise it stops
with UNWRITTEN_READ when a byte it must read was never written (the byte at MF_POS on the tail, one of the three
key bytes with three or more bytes left); and it stops in no other way than that, and only when some input byte
below IN_LEN was never written. -/
def Obligations.MfStepStopsOnlyOnUnwrittenInput : Prop :=
  ∀ s : State, s.fault = false →
    (s.cfg.inCap.toNat < s.inLen.toNat → exec .mfStep s = .next (Faulted s 6#4 0x2000000000000000#64)) ∧
    (s.inLen.toNat ≤ s.cfg.inCap.toNat →
      (s.mfPos.toNat < s.inLen.toNat → s.inByte s.mfPos.toNat = none →
        exec .mfStep s = .fault .unwrittenRead) ∧
      (s.mfPos.toNat + 3 ≤ s.inLen.toNat → ∀ j, j < 3 → s.inByte (s.mfPos.toNat + j) = none →
        exec .mfStep s = .fault .unwrittenRead)) ∧
    (∀ f, exec .mfStep s = .fault f → PrefixTableInv s →
      f = .unwrittenRead ∧ s.inLen.toNat ≤ s.cfg.inCap.toNat ∧ ∃ j, j < s.inLen.toNat ∧ s.inByte j = none)

/-- R29: dropping positions more than WINDOW back, or keeping only the most recent WINDOW positions of a list,
leaves the scan's answer unchanged, for a list that is strictly increasing and below the position. -/
def Obligations.EvictionLeavesTheScanUnchanged : Prop :=
  ∀ (rd : Nat → Option Byte) (i n : Nat) (ps : List Nat), ps.Pairwise (· < ·) → (∀ p ∈ ps, p < i) →
    scan rd i n (ps.filter fun p => decide (i - p ≤ window)).reverse (0, 0) = scan rd i n ps.reverse (0, 0) ∧
    scan rd i n (ps.reverse.take window) (0, 0) = scan rd i n ps.reverse (0, 0)

/-- R145, R147, R148: for every input, every Token is legal, and the Tokens in order reproduce the input and
cover it exactly once. -/
def Obligations.TokensReproduceTheInput : Prop :=
  ∀ x : List Byte,
    (∀ t ∈ mfTokens x, t.legal = true) ∧ ((mfTokens x).map Token.consumed).sum = x.length ∧
    expandTokens [] (mfTokens x) = some x

/-- R150: for an input of at most three bytes every Token is a Literal. -/
def Obligations.SmallInputsGiveLiterals : Prop :=
  ∀ x : List Byte, x.length ≤ 3 → mfTokens x = x.map Token.literal

/-! ## The Encoder -/

/-- R210: INIT. -/
def Obligations.InitStartsAFreshCall : Prop :=
  ∀ s : State,
    (s.fault = true → exec .init s = .next s) ∧
    (s.fault = false → exec .init s = .next { s with
      mfPos := 0#32, pt := [], token := 0#32, inLock := false,
      bpK := 0#32, cur := 0#8, fill := 0#3, outLen := 0#32 })

/-- R211, R212, R218: COMPRESS, in a well-formed configuration and with an input x in memory, leaves compress(x)
in OUT with its length in OUT_LEN and the length of its bit stream in BIT_LEN, a clean partial byte, and the
MatchFinder discarded. OUT above the result, the input, the fault registers and the host's side stay. -/
def Obligations.CompressComputesCompress : Prop :=
  ∀ (s : State) (x : List Byte), s.cfg.wf = true → s.fault = false → x.length ≤ s.cfg.inCap.toNat →
    HoldsInput s x →
    ∃ t, exec .compress s = .next t ∧ HoldsOutput t (compressBytes x) ∧
      t.bitLen = (blockBits x).length ∧ t.cur.toNat < 2 ^ t.fill.toNat ∧
      (∀ a, (compressBytes x).length ≤ a → SameOutAt s t a) ∧
      t = { s with
        outMem := t.outMem, outWritten := t.outWritten, bpK := t.bpK, cur := t.cur, fill := t.fill,
        outLen := t.outLen,
        pt := [], mfPos := 0#32, token := 0#32, inLock := false }

/-- R211, R217, R240: COMPRESS raises BAD_IN_LEN when IN_LEN > IN_CAP, before any state changes; otherwise, in
a well-formed configuration, it completes with no fault when every input byte was written and stops with
UNWRITTEN_READ when one was not, and has no third way to end. -/
def Obligations.CompressAlwaysSucceedsOnLoadedInput : Prop :=
  ∀ s : State, s.cfg.wf = true → s.fault = false →
    (s.cfg.inCap.toNat < s.inLen.toNat → exec .compress s = .next (Faulted s 6#4 0x4000000000000000#64)) ∧
    (s.inLen.toNat ≤ s.cfg.inCap.toNat → InputLoaded s →
      ∃ t, exec .compress s = .next t ∧ t.fault = false) ∧
    (s.inLen.toNat ≤ s.cfg.inCap.toNat → ¬ InputLoaded s → exec .compress s = .fault .unwrittenRead)

/-- R213: COMPRESS of the empty input gives the two bytes 03 00 and BIT_LEN = 10. -/
def Obligations.CompressOfTheEmptyInput : Prop :=
  compressBytes [] = [0x03#8, 0x00#8] ∧
  ∀ s : State, s.cfg.wf = true → s.fault = false → s.inLen = 0#32 →
    ∃ t, exec .compress s = .next t ∧ t.outLen = 2#32 ∧ t.bitLen = 10 ∧
      t.outByte 0 = some 0x03#8 ∧ t.outByte 1 = some 0x00#8

/-- R214, R43: COMPRESS reads no state an earlier call left, apart from the input: two machines with the same
well-formed configuration and the same input bytes, both without a fault, end alike and leave the same
result, whatever else they hold. -/
def Obligations.CompressDependsOnlyOnTheInput : Prop :=
  ∀ s s' : State, s.cfg.wf = true → s'.cfg = s.cfg → s.fault = false → s'.fault = false →
    s'.inLen = s.inLen → s.inLen.toNat ≤ s.cfg.inCap.toNat →
    (∀ j, j < s.inLen.toNat → s'.inByte j = s.inByte j) →
    (exec .compress s = .fault .unwrittenRead ∧ exec .compress s' = .fault .unwrittenRead) ∨
    ∃ t t', exec .compress s = .next t ∧ exec .compress s' = .next t' ∧
      t'.outLen = t.outLen ∧ t'.bpK = t.bpK ∧ t'.cur = t.cur ∧ t'.fill = t.fill ∧
      ∀ a, a < t.outLen.toNat → t'.outByte a = t.outByte a

/-- R215: the output is never longer than ceil((9*n + 10) / 8) bytes for an input of n bytes. -/
def Obligations.OutputIsBounded : Prop :=
  ∀ x : List Byte, (compressBytes x).length ≤ (9 * x.length + 10 + 7) / 8

/-- R216: what COMPRESS leaves in OUT, a decoder of fixed-Huffman blocks turns back into the input. The decoder
is `inflateBytes`, written from R81 to R83 and the tables of R170 and R171 (log entry 7). -/
def Obligations.CompressRoundTrips : Prop :=
  ∀ (s : State) (x : List Byte), s.cfg.wf = true → s.fault = false → x.length ≤ s.cfg.inCap.toNat →
    HoldsInput s x →
    ∃ t y, exec .compress s = .next t ∧ HoldsOutput t y ∧ inflateBytes y = some x

/-! ## Invariants -/

/-- R26, R28, R31, R35, R110: every reset state meets all the invariants. -/
def Obligations.ResetMeetsTheInvariants : Prop :=
  (∀ c : Config, Inv (State.resetWith c)) ∧ Inv State.reset ∧ State.reset.cfg.wf = true

/-- R23, R31, R33, R44, R110: every step keeps both memories canonical and inside their capacities, the written
flags true at exactly the addresses that hold a value, the bits of CUR from FILL up 0, the stream within OUT, and
every complete byte and every byte of the last result held. -/
def Obligations.StepKeepsTheBitPacker : Prop :=
  ∀ s t : State, MemoryInv s → BitPackerInv s → step s = .next t → MemoryInv t ∧ BitPackerInv t

/-- R26, R28: every step keeps 0 <= MF_POS <= IN_LEN, the fresh MatchFinder state outside a run, and the prefix
table's invariants. -/
def Obligations.StepKeepsTheMatchFinder : Prop :=
  ∀ s t : State, CursorInv s → PrefixTableInv s → step s = .next t → CursorInv t ∧ PrefixTableInv t

/-- R30, R145: every step leaves TOKEN 0 or the token word of a legal Token, which is why SE_TOKEN needs no range
check. -/
def Obligations.StepKeepsTheTokenLegal : Prop :=
  ∀ s t : State, CursorInv s → PrefixTableInv s → TokenInv s → step s = .next t → TokenInv t

/-- R35, R231: every step keeps FAULT = 1 exactly when CAUSE is not 0, and CAUSE and FAULT_CMD a pair that the
table of causes allows: no other code, and no cause beside a command that cannot raise it. -/
def Obligations.StepKeepsTheFaultRecordTrue : Prop :=
  ∀ s t : State, FaultInv s → step s = .next t → FaultInv t
end

