-- ==== Sys2Proof/Laws/State.lean ====
section
/-! SUPPORT. One lemma for each field of State after each named update, true by rfl, so that no later proof
unfolds a record update; and for what `IN` and `OUT` hold where the update does not store to them. -/

namespace Sys2Proof.Machine

/-! ## The block right after reset (Machine/State.lean) -/

@[simp] theorem Block.reset_inMem : Block.reset.inMem = [] := rfl
@[simp] theorem Block.reset_inWritten : Block.reset.inWritten = [] := rfl
@[simp] theorem Block.reset_outWritten : Block.reset.outWritten = [] := rfl
@[simp] theorem Block.reset_inLen : Block.reset.inLen = 0#32 := rfl
@[simp] theorem Block.reset_inLock : Block.reset.inLock = false := rfl
@[simp] theorem Block.reset_mfPos : Block.reset.mfPos = 0#32 := rfl
@[simp] theorem Block.reset_pt : Block.reset.pt = [] := rfl
@[simp] theorem Block.reset_token : Block.reset.token = 0#32 := rfl
@[simp] theorem Block.reset_outMem : Block.reset.outMem = [] := rfl
@[simp] theorem Block.reset_bpK : Block.reset.bpK = 0#32 := rfl
@[simp] theorem Block.reset_cur : Block.reset.cur = 0#8 := rfl
@[simp] theorem Block.reset_fill : Block.reset.fill = 0#3 := rfl
@[simp] theorem Block.reset_outLen : Block.reset.outLen = 0#32 := rfl
@[simp] theorem Block.reset_fault : Block.reset.fault = false := rfl
@[simp] theorem Block.reset_cause : Block.reset.cause = 0#4 := rfl
@[simp] theorem Block.reset_faultCmd : Block.reset.faultCmd = 0#64 := rfl

/-! ## BitPacker and memory updates (Machine/Ops.lean) -/

@[simp] theorem State.storeIn_cfg (s : State) (a : Nat) (b : Byte) : (s.storeIn a b).cfg = s.cfg := rfl
@[simp] theorem State.storeIn_inMem (s : State) (a : Nat) (b : Byte) : (s.storeIn a b).inMem = Memory.write s.inMem a b := rfl
@[simp] theorem State.storeIn_inWritten (s : State) (a : Nat) (b : Byte) : (s.storeIn a b).inWritten = WrittenFlags.set s.inWritten a := rfl
@[simp] theorem State.storeIn_inLen (s : State) (a : Nat) (b : Byte) : (s.storeIn a b).inLen = s.inLen := rfl
@[simp] theorem State.storeIn_inLock (s : State) (a : Nat) (b : Byte) : (s.storeIn a b).inLock = s.inLock := rfl
@[simp] theorem State.storeIn_mfPos (s : State) (a : Nat) (b : Byte) : (s.storeIn a b).mfPos = s.mfPos := rfl
@[simp] theorem State.storeIn_pt (s : State) (a : Nat) (b : Byte) : (s.storeIn a b).pt = s.pt := rfl
@[simp] theorem State.storeIn_token (s : State) (a : Nat) (b : Byte) : (s.storeIn a b).token = s.token := rfl
@[simp] theorem State.storeIn_outMem (s : State) (a : Nat) (b : Byte) : (s.storeIn a b).outMem = s.outMem := rfl
@[simp] theorem State.storeIn_outWritten (s : State) (a : Nat) (b : Byte) : (s.storeIn a b).outWritten = s.outWritten := rfl
@[simp] theorem State.storeIn_bpK (s : State) (a : Nat) (b : Byte) : (s.storeIn a b).bpK = s.bpK := rfl
@[simp] theorem State.storeIn_cur (s : State) (a : Nat) (b : Byte) : (s.storeIn a b).cur = s.cur := rfl
@[simp] theorem State.storeIn_fill (s : State) (a : Nat) (b : Byte) : (s.storeIn a b).fill = s.fill := rfl
@[simp] theorem State.storeIn_outLen (s : State) (a : Nat) (b : Byte) : (s.storeIn a b).outLen = s.outLen := rfl
@[simp] theorem State.storeIn_fault (s : State) (a : Nat) (b : Byte) : (s.storeIn a b).fault = s.fault := rfl
@[simp] theorem State.storeIn_cause (s : State) (a : Nat) (b : Byte) : (s.storeIn a b).cause = s.cause := rfl
@[simp] theorem State.storeIn_faultCmd (s : State) (a : Nat) (b : Byte) : (s.storeIn a b).faultCmd = s.faultCmd := rfl
@[simp] theorem State.storeIn_pending (s : State) (a : Nat) (b : Byte) : (s.storeIn a b).pending = s.pending := rfl
@[simp] theorem State.storeIn_replies (s : State) (a : Nat) (b : Byte) : (s.storeIn a b).replies = s.replies := rfl
@[simp] theorem State.storeIn_draws (s : State) (a : Nat) (b : Byte) : (s.storeIn a b).draws = s.draws := rfl
@[simp] theorem State.storeIn_outByte (s : State) (a : Nat) (b : Byte) : (s.storeIn a b).outByte = s.outByte := rfl

@[simp] theorem State.storeOut_cfg (s : State) (a : Nat) (b : Byte) : (s.storeOut a b).cfg = s.cfg := rfl
@[simp] theorem State.storeOut_inMem (s : State) (a : Nat) (b : Byte) : (s.storeOut a b).inMem = s.inMem := rfl
@[simp] theorem State.storeOut_inWritten (s : State) (a : Nat) (b : Byte) : (s.storeOut a b).inWritten = s.inWritten := rfl
@[simp] theorem State.storeOut_inLen (s : State) (a : Nat) (b : Byte) : (s.storeOut a b).inLen = s.inLen := rfl
@[simp] theorem State.storeOut_inLock (s : State) (a : Nat) (b : Byte) : (s.storeOut a b).inLock = s.inLock := rfl
@[simp] theorem State.storeOut_mfPos (s : State) (a : Nat) (b : Byte) : (s.storeOut a b).mfPos = s.mfPos := rfl
@[simp] theorem State.storeOut_pt (s : State) (a : Nat) (b : Byte) : (s.storeOut a b).pt = s.pt := rfl
@[simp] theorem State.storeOut_token (s : State) (a : Nat) (b : Byte) : (s.storeOut a b).token = s.token := rfl
@[simp] theorem State.storeOut_outMem (s : State) (a : Nat) (b : Byte) : (s.storeOut a b).outMem = Memory.write s.outMem a b := rfl
@[simp] theorem State.storeOut_outWritten (s : State) (a : Nat) (b : Byte) : (s.storeOut a b).outWritten = WrittenFlags.set s.outWritten a := rfl
@[simp] theorem State.storeOut_bpK (s : State) (a : Nat) (b : Byte) : (s.storeOut a b).bpK = s.bpK := rfl
@[simp] theorem State.storeOut_cur (s : State) (a : Nat) (b : Byte) : (s.storeOut a b).cur = s.cur := rfl
@[simp] theorem State.storeOut_fill (s : State) (a : Nat) (b : Byte) : (s.storeOut a b).fill = s.fill := rfl
@[simp] theorem State.storeOut_outLen (s : State) (a : Nat) (b : Byte) : (s.storeOut a b).outLen = s.outLen := rfl
@[simp] theorem State.storeOut_fault (s : State) (a : Nat) (b : Byte) : (s.storeOut a b).fault = s.fault := rfl
@[simp] theorem State.storeOut_cause (s : State) (a : Nat) (b : Byte) : (s.storeOut a b).cause = s.cause := rfl
@[simp] theorem State.storeOut_faultCmd (s : State) (a : Nat) (b : Byte) : (s.storeOut a b).faultCmd = s.faultCmd := rfl
@[simp] theorem State.storeOut_pending (s : State) (a : Nat) (b : Byte) : (s.storeOut a b).pending = s.pending := rfl
@[simp] theorem State.storeOut_replies (s : State) (a : Nat) (b : Byte) : (s.storeOut a b).replies = s.replies := rfl
@[simp] theorem State.storeOut_draws (s : State) (a : Nat) (b : Byte) : (s.storeOut a b).draws = s.draws := rfl
@[simp] theorem State.storeOut_inByte (s : State) (a : Nat) (b : Byte) : (s.storeOut a b).inByte = s.inByte := rfl

@[simp] theorem State.withInLen_cfg (s : State) (v : Word) : (s.withInLen v).cfg = s.cfg := rfl
@[simp] theorem State.withInLen_inMem (s : State) (v : Word) : (s.withInLen v).inMem = s.inMem := rfl
@[simp] theorem State.withInLen_inWritten (s : State) (v : Word) : (s.withInLen v).inWritten = s.inWritten := rfl
@[simp] theorem State.withInLen_inLen (s : State) (v : Word) : (s.withInLen v).inLen = v := rfl
@[simp] theorem State.withInLen_inLock (s : State) (v : Word) : (s.withInLen v).inLock = s.inLock := rfl
@[simp] theorem State.withInLen_mfPos (s : State) (v : Word) : (s.withInLen v).mfPos = s.mfPos := rfl
@[simp] theorem State.withInLen_pt (s : State) (v : Word) : (s.withInLen v).pt = s.pt := rfl
@[simp] theorem State.withInLen_token (s : State) (v : Word) : (s.withInLen v).token = s.token := rfl
@[simp] theorem State.withInLen_outMem (s : State) (v : Word) : (s.withInLen v).outMem = s.outMem := rfl
@[simp] theorem State.withInLen_outWritten (s : State) (v : Word) : (s.withInLen v).outWritten = s.outWritten := rfl
@[simp] theorem State.withInLen_bpK (s : State) (v : Word) : (s.withInLen v).bpK = s.bpK := rfl
@[simp] theorem State.withInLen_cur (s : State) (v : Word) : (s.withInLen v).cur = s.cur := rfl
@[simp] theorem State.withInLen_fill (s : State) (v : Word) : (s.withInLen v).fill = s.fill := rfl
@[simp] theorem State.withInLen_outLen (s : State) (v : Word) : (s.withInLen v).outLen = s.outLen := rfl
@[simp] theorem State.withInLen_fault (s : State) (v : Word) : (s.withInLen v).fault = s.fault := rfl
@[simp] theorem State.withInLen_cause (s : State) (v : Word) : (s.withInLen v).cause = s.cause := rfl
@[simp] theorem State.withInLen_faultCmd (s : State) (v : Word) : (s.withInLen v).faultCmd = s.faultCmd := rfl
@[simp] theorem State.withInLen_pending (s : State) (v : Word) : (s.withInLen v).pending = s.pending := rfl
@[simp] theorem State.withInLen_replies (s : State) (v : Word) : (s.withInLen v).replies = s.replies := rfl
@[simp] theorem State.withInLen_draws (s : State) (v : Word) : (s.withInLen v).draws = s.draws := rfl
@[simp] theorem State.withInLen_inByte (s : State) (v : Word) : (s.withInLen v).inByte = s.inByte := rfl
@[simp] theorem State.withInLen_outByte (s : State) (v : Word) : (s.withInLen v).outByte = s.outByte := rfl

@[simp] theorem State.withOutLen_cfg (s : State) (v : Word) : (s.withOutLen v).cfg = s.cfg := rfl
@[simp] theorem State.withOutLen_inMem (s : State) (v : Word) : (s.withOutLen v).inMem = s.inMem := rfl
@[simp] theorem State.withOutLen_inWritten (s : State) (v : Word) : (s.withOutLen v).inWritten = s.inWritten := rfl
@[simp] theorem State.withOutLen_inLen (s : State) (v : Word) : (s.withOutLen v).inLen = s.inLen := rfl
@[simp] theorem State.withOutLen_inLock (s : State) (v : Word) : (s.withOutLen v).inLock = s.inLock := rfl
@[simp] theorem State.withOutLen_mfPos (s : State) (v : Word) : (s.withOutLen v).mfPos = s.mfPos := rfl
@[simp] theorem State.withOutLen_pt (s : State) (v : Word) : (s.withOutLen v).pt = s.pt := rfl
@[simp] theorem State.withOutLen_token (s : State) (v : Word) : (s.withOutLen v).token = s.token := rfl
@[simp] theorem State.withOutLen_outMem (s : State) (v : Word) : (s.withOutLen v).outMem = s.outMem := rfl
@[simp] theorem State.withOutLen_outWritten (s : State) (v : Word) : (s.withOutLen v).outWritten = s.outWritten := rfl
@[simp] theorem State.withOutLen_bpK (s : State) (v : Word) : (s.withOutLen v).bpK = s.bpK := rfl
@[simp] theorem State.withOutLen_cur (s : State) (v : Word) : (s.withOutLen v).cur = s.cur := rfl
@[simp] theorem State.withOutLen_fill (s : State) (v : Word) : (s.withOutLen v).fill = s.fill := rfl
@[simp] theorem State.withOutLen_outLen (s : State) (v : Word) : (s.withOutLen v).outLen = v := rfl
@[simp] theorem State.withOutLen_fault (s : State) (v : Word) : (s.withOutLen v).fault = s.fault := rfl
@[simp] theorem State.withOutLen_cause (s : State) (v : Word) : (s.withOutLen v).cause = s.cause := rfl
@[simp] theorem State.withOutLen_faultCmd (s : State) (v : Word) : (s.withOutLen v).faultCmd = s.faultCmd := rfl
@[simp] theorem State.withOutLen_pending (s : State) (v : Word) : (s.withOutLen v).pending = s.pending := rfl
@[simp] theorem State.withOutLen_replies (s : State) (v : Word) : (s.withOutLen v).replies = s.replies := rfl
@[simp] theorem State.withOutLen_draws (s : State) (v : Word) : (s.withOutLen v).draws = s.draws := rfl
@[simp] theorem State.withOutLen_inByte (s : State) (v : Word) : (s.withOutLen v).inByte = s.inByte := rfl
@[simp] theorem State.withOutLen_outByte (s : State) (v : Word) : (s.withOutLen v).outByte = s.outByte := rfl

@[simp] theorem State.placeInCur_cfg (s : State) (b : Bool) : (s.placeInCur b).cfg = s.cfg := rfl
@[simp] theorem State.placeInCur_inMem (s : State) (b : Bool) : (s.placeInCur b).inMem = s.inMem := rfl
@[simp] theorem State.placeInCur_inWritten (s : State) (b : Bool) : (s.placeInCur b).inWritten = s.inWritten := rfl
@[simp] theorem State.placeInCur_inLen (s : State) (b : Bool) : (s.placeInCur b).inLen = s.inLen := rfl
@[simp] theorem State.placeInCur_inLock (s : State) (b : Bool) : (s.placeInCur b).inLock = s.inLock := rfl
@[simp] theorem State.placeInCur_mfPos (s : State) (b : Bool) : (s.placeInCur b).mfPos = s.mfPos := rfl
@[simp] theorem State.placeInCur_pt (s : State) (b : Bool) : (s.placeInCur b).pt = s.pt := rfl
@[simp] theorem State.placeInCur_token (s : State) (b : Bool) : (s.placeInCur b).token = s.token := rfl
@[simp] theorem State.placeInCur_outMem (s : State) (b : Bool) : (s.placeInCur b).outMem = s.outMem := rfl
@[simp] theorem State.placeInCur_outWritten (s : State) (b : Bool) : (s.placeInCur b).outWritten = s.outWritten := rfl
@[simp] theorem State.placeInCur_bpK (s : State) (b : Bool) : (s.placeInCur b).bpK = s.bpK := rfl
@[simp] theorem State.placeInCur_cur (s : State) (b : Bool) : (s.placeInCur b).cur = s.curWith b := rfl
@[simp] theorem State.placeInCur_fill (s : State) (b : Bool) : (s.placeInCur b).fill = s.fill + 1#3 := rfl
@[simp] theorem State.placeInCur_outLen (s : State) (b : Bool) : (s.placeInCur b).outLen = s.outLen := rfl
@[simp] theorem State.placeInCur_fault (s : State) (b : Bool) : (s.placeInCur b).fault = s.fault := rfl
@[simp] theorem State.placeInCur_cause (s : State) (b : Bool) : (s.placeInCur b).cause = s.cause := rfl
@[simp] theorem State.placeInCur_faultCmd (s : State) (b : Bool) : (s.placeInCur b).faultCmd = s.faultCmd := rfl
@[simp] theorem State.placeInCur_pending (s : State) (b : Bool) : (s.placeInCur b).pending = s.pending := rfl
@[simp] theorem State.placeInCur_replies (s : State) (b : Bool) : (s.placeInCur b).replies = s.replies := rfl
@[simp] theorem State.placeInCur_draws (s : State) (b : Bool) : (s.placeInCur b).draws = s.draws := rfl
@[simp] theorem State.placeInCur_inByte (s : State) (b : Bool) : (s.placeInCur b).inByte = s.inByte := rfl
@[simp] theorem State.placeInCur_outByte (s : State) (b : Bool) : (s.placeInCur b).outByte = s.outByte := rfl

@[simp] theorem State.completeByte_cfg (s : State) (b : Bool) : (s.completeByte b).cfg = s.cfg := rfl
@[simp] theorem State.completeByte_inMem (s : State) (b : Bool) : (s.completeByte b).inMem = s.inMem := rfl
@[simp] theorem State.completeByte_inWritten (s : State) (b : Bool) : (s.completeByte b).inWritten = s.inWritten := rfl
@[simp] theorem State.completeByte_inLen (s : State) (b : Bool) : (s.completeByte b).inLen = s.inLen := rfl
@[simp] theorem State.completeByte_inLock (s : State) (b : Bool) : (s.completeByte b).inLock = s.inLock := rfl
@[simp] theorem State.completeByte_mfPos (s : State) (b : Bool) : (s.completeByte b).mfPos = s.mfPos := rfl
@[simp] theorem State.completeByte_pt (s : State) (b : Bool) : (s.completeByte b).pt = s.pt := rfl
@[simp] theorem State.completeByte_token (s : State) (b : Bool) : (s.completeByte b).token = s.token := rfl
@[simp] theorem State.completeByte_outMem (s : State) (b : Bool) : (s.completeByte b).outMem = Memory.write s.outMem s.bpK.toNat (s.curWith b) := rfl
@[simp] theorem State.completeByte_outWritten (s : State) (b : Bool) : (s.completeByte b).outWritten = WrittenFlags.set s.outWritten s.bpK.toNat := rfl
@[simp] theorem State.completeByte_bpK (s : State) (b : Bool) : (s.completeByte b).bpK = s.bpK + 1#32 := rfl
@[simp] theorem State.completeByte_cur (s : State) (b : Bool) : (s.completeByte b).cur = 0#8 := rfl
@[simp] theorem State.completeByte_fill (s : State) (b : Bool) : (s.completeByte b).fill = 0#3 := rfl
@[simp] theorem State.completeByte_outLen (s : State) (b : Bool) : (s.completeByte b).outLen = s.outLen := rfl
@[simp] theorem State.completeByte_fault (s : State) (b : Bool) : (s.completeByte b).fault = s.fault := rfl
@[simp] theorem State.completeByte_cause (s : State) (b : Bool) : (s.completeByte b).cause = s.cause := rfl
@[simp] theorem State.completeByte_faultCmd (s : State) (b : Bool) : (s.completeByte b).faultCmd = s.faultCmd := rfl
@[simp] theorem State.completeByte_pending (s : State) (b : Bool) : (s.completeByte b).pending = s.pending := rfl
@[simp] theorem State.completeByte_replies (s : State) (b : Bool) : (s.completeByte b).replies = s.replies := rfl
@[simp] theorem State.completeByte_draws (s : State) (b : Bool) : (s.completeByte b).draws = s.draws := rfl
@[simp] theorem State.completeByte_inByte (s : State) (b : Bool) : (s.completeByte b).inByte = s.inByte := rfl

/-! ## The fault state (Machine/Ops.lean) -/

@[simp] theorem State.enterFault_cfg (s : State) (c : Cause) (w : CommandWord) : (s.enterFault c w).cfg = s.cfg := rfl
@[simp] theorem State.enterFault_inMem (s : State) (c : Cause) (w : CommandWord) : (s.enterFault c w).inMem = s.inMem := rfl
@[simp] theorem State.enterFault_inWritten (s : State) (c : Cause) (w : CommandWord) : (s.enterFault c w).inWritten = s.inWritten := rfl
@[simp] theorem State.enterFault_inLen (s : State) (c : Cause) (w : CommandWord) : (s.enterFault c w).inLen = s.inLen := rfl
@[simp] theorem State.enterFault_inLock (s : State) (c : Cause) (w : CommandWord) : (s.enterFault c w).inLock = s.inLock := rfl
@[simp] theorem State.enterFault_mfPos (s : State) (c : Cause) (w : CommandWord) : (s.enterFault c w).mfPos = s.mfPos := rfl
@[simp] theorem State.enterFault_pt (s : State) (c : Cause) (w : CommandWord) : (s.enterFault c w).pt = s.pt := rfl
@[simp] theorem State.enterFault_token (s : State) (c : Cause) (w : CommandWord) : (s.enterFault c w).token = s.token := rfl
@[simp] theorem State.enterFault_outMem (s : State) (c : Cause) (w : CommandWord) : (s.enterFault c w).outMem = s.outMem := rfl
@[simp] theorem State.enterFault_outWritten (s : State) (c : Cause) (w : CommandWord) : (s.enterFault c w).outWritten = s.outWritten := rfl
@[simp] theorem State.enterFault_bpK (s : State) (c : Cause) (w : CommandWord) : (s.enterFault c w).bpK = s.bpK := rfl
@[simp] theorem State.enterFault_cur (s : State) (c : Cause) (w : CommandWord) : (s.enterFault c w).cur = s.cur := rfl
@[simp] theorem State.enterFault_fill (s : State) (c : Cause) (w : CommandWord) : (s.enterFault c w).fill = s.fill := rfl
@[simp] theorem State.enterFault_outLen (s : State) (c : Cause) (w : CommandWord) : (s.enterFault c w).outLen = s.outLen := rfl
@[simp] theorem State.enterFault_fault (s : State) (c : Cause) (w : CommandWord) : (s.enterFault c w).fault = true := rfl
@[simp] theorem State.enterFault_cause (s : State) (c : Cause) (w : CommandWord) : (s.enterFault c w).cause = c.code := rfl
@[simp] theorem State.enterFault_faultCmd (s : State) (c : Cause) (w : CommandWord) : (s.enterFault c w).faultCmd = w := rfl
@[simp] theorem State.enterFault_pending (s : State) (c : Cause) (w : CommandWord) : (s.enterFault c w).pending = s.pending := rfl
@[simp] theorem State.enterFault_replies (s : State) (c : Cause) (w : CommandWord) : (s.enterFault c w).replies = s.replies := rfl
@[simp] theorem State.enterFault_draws (s : State) (c : Cause) (w : CommandWord) : (s.enterFault c w).draws = s.draws := rfl
@[simp] theorem State.enterFault_inByte (s : State) (c : Cause) (w : CommandWord) : (s.enterFault c w).inByte = s.inByte := rfl
@[simp] theorem State.enterFault_outByte (s : State) (c : Cause) (w : CommandWord) : (s.enterFault c w).outByte = s.outByte := rfl

@[simp] theorem State.resetBlock_cfg (s : State) : s.resetBlock.cfg = s.cfg := rfl
@[simp] theorem State.resetBlock_inMem (s : State) : s.resetBlock.inMem = [] := rfl
@[simp] theorem State.resetBlock_inWritten (s : State) : s.resetBlock.inWritten = [] := rfl
@[simp] theorem State.resetBlock_inLen (s : State) : s.resetBlock.inLen = 0#32 := rfl
@[simp] theorem State.resetBlock_inLock (s : State) : s.resetBlock.inLock = false := rfl
@[simp] theorem State.resetBlock_mfPos (s : State) : s.resetBlock.mfPos = 0#32 := rfl
@[simp] theorem State.resetBlock_pt (s : State) : s.resetBlock.pt = [] := rfl
@[simp] theorem State.resetBlock_token (s : State) : s.resetBlock.token = 0#32 := rfl
@[simp] theorem State.resetBlock_outMem (s : State) : s.resetBlock.outMem = [] := rfl
@[simp] theorem State.resetBlock_outWritten (s : State) : s.resetBlock.outWritten = [] := rfl
@[simp] theorem State.resetBlock_bpK (s : State) : s.resetBlock.bpK = 0#32 := rfl
@[simp] theorem State.resetBlock_cur (s : State) : s.resetBlock.cur = 0#8 := rfl
@[simp] theorem State.resetBlock_fill (s : State) : s.resetBlock.fill = 0#3 := rfl
@[simp] theorem State.resetBlock_outLen (s : State) : s.resetBlock.outLen = 0#32 := rfl
@[simp] theorem State.resetBlock_fault (s : State) : s.resetBlock.fault = false := rfl
@[simp] theorem State.resetBlock_cause (s : State) : s.resetBlock.cause = 0#4 := rfl
@[simp] theorem State.resetBlock_faultCmd (s : State) : s.resetBlock.faultCmd = 0#64 := rfl
@[simp] theorem State.resetBlock_pending (s : State) : s.resetBlock.pending = s.pending := rfl
@[simp] theorem State.resetBlock_replies (s : State) : s.resetBlock.replies = s.replies := rfl
@[simp] theorem State.resetBlock_draws (s : State) : s.resetBlock.draws = s.draws := rfl

/-! ## The MatchFinder and the sequencer (Machine/MatchFinder.lean, Machine/Encoder.lean) -/

@[simp] theorem State.produce_cfg (s : State) (t : Token) (p : PrefixTable) : (s.produce t p).cfg = s.cfg := rfl
@[simp] theorem State.produce_inMem (s : State) (t : Token) (p : PrefixTable) : (s.produce t p).inMem = s.inMem := rfl
@[simp] theorem State.produce_inWritten (s : State) (t : Token) (p : PrefixTable) : (s.produce t p).inWritten = s.inWritten := rfl
@[simp] theorem State.produce_inLen (s : State) (t : Token) (p : PrefixTable) : (s.produce t p).inLen = s.inLen := rfl
@[simp] theorem State.produce_inLock (s : State) (t : Token) (p : PrefixTable) : (s.produce t p).inLock = true := rfl
@[simp] theorem State.produce_mfPos (s : State) (t : Token) (p : PrefixTable) : (s.produce t p).mfPos = BitVec.ofNat 32 (s.mfPos.toNat + t.consumed) := rfl
@[simp] theorem State.produce_pt (s : State) (t : Token) (p : PrefixTable) : (s.produce t p).pt = p := rfl
@[simp] theorem State.produce_token (s : State) (t : Token) (p : PrefixTable) : (s.produce t p).token = t.word := rfl
@[simp] theorem State.produce_outMem (s : State) (t : Token) (p : PrefixTable) : (s.produce t p).outMem = s.outMem := rfl
@[simp] theorem State.produce_outWritten (s : State) (t : Token) (p : PrefixTable) : (s.produce t p).outWritten = s.outWritten := rfl
@[simp] theorem State.produce_bpK (s : State) (t : Token) (p : PrefixTable) : (s.produce t p).bpK = s.bpK := rfl
@[simp] theorem State.produce_cur (s : State) (t : Token) (p : PrefixTable) : (s.produce t p).cur = s.cur := rfl
@[simp] theorem State.produce_fill (s : State) (t : Token) (p : PrefixTable) : (s.produce t p).fill = s.fill := rfl
@[simp] theorem State.produce_outLen (s : State) (t : Token) (p : PrefixTable) : (s.produce t p).outLen = s.outLen := rfl
@[simp] theorem State.produce_fault (s : State) (t : Token) (p : PrefixTable) : (s.produce t p).fault = s.fault := rfl
@[simp] theorem State.produce_cause (s : State) (t : Token) (p : PrefixTable) : (s.produce t p).cause = s.cause := rfl
@[simp] theorem State.produce_faultCmd (s : State) (t : Token) (p : PrefixTable) : (s.produce t p).faultCmd = s.faultCmd := rfl
@[simp] theorem State.produce_pending (s : State) (t : Token) (p : PrefixTable) : (s.produce t p).pending = s.pending := rfl
@[simp] theorem State.produce_replies (s : State) (t : Token) (p : PrefixTable) : (s.produce t p).replies = s.replies := rfl
@[simp] theorem State.produce_draws (s : State) (t : Token) (p : PrefixTable) : (s.produce t p).draws = s.draws := rfl
@[simp] theorem State.produce_inByte (s : State) (t : Token) (p : PrefixTable) : (s.produce t p).inByte = s.inByte := rfl
@[simp] theorem State.produce_outByte (s : State) (t : Token) (p : PrefixTable) : (s.produce t p).outByte = s.outByte := rfl

@[simp] theorem State.noToken_cfg (s : State) : s.noToken.cfg = s.cfg := rfl
@[simp] theorem State.noToken_inMem (s : State) : s.noToken.inMem = s.inMem := rfl
@[simp] theorem State.noToken_inWritten (s : State) : s.noToken.inWritten = s.inWritten := rfl
@[simp] theorem State.noToken_inLen (s : State) : s.noToken.inLen = s.inLen := rfl
@[simp] theorem State.noToken_inLock (s : State) : s.noToken.inLock = s.inLock := rfl
@[simp] theorem State.noToken_mfPos (s : State) : s.noToken.mfPos = s.mfPos := rfl
@[simp] theorem State.noToken_pt (s : State) : s.noToken.pt = s.pt := rfl
@[simp] theorem State.noToken_token (s : State) : s.noToken.token = 0#32 := rfl
@[simp] theorem State.noToken_outMem (s : State) : s.noToken.outMem = s.outMem := rfl
@[simp] theorem State.noToken_outWritten (s : State) : s.noToken.outWritten = s.outWritten := rfl
@[simp] theorem State.noToken_bpK (s : State) : s.noToken.bpK = s.bpK := rfl
@[simp] theorem State.noToken_cur (s : State) : s.noToken.cur = s.cur := rfl
@[simp] theorem State.noToken_fill (s : State) : s.noToken.fill = s.fill := rfl
@[simp] theorem State.noToken_outLen (s : State) : s.noToken.outLen = s.outLen := rfl
@[simp] theorem State.noToken_fault (s : State) : s.noToken.fault = s.fault := rfl
@[simp] theorem State.noToken_cause (s : State) : s.noToken.cause = s.cause := rfl
@[simp] theorem State.noToken_faultCmd (s : State) : s.noToken.faultCmd = s.faultCmd := rfl
@[simp] theorem State.noToken_pending (s : State) : s.noToken.pending = s.pending := rfl
@[simp] theorem State.noToken_replies (s : State) : s.noToken.replies = s.replies := rfl
@[simp] theorem State.noToken_draws (s : State) : s.noToken.draws = s.draws := rfl
@[simp] theorem State.noToken_inByte (s : State) : s.noToken.inByte = s.inByte := rfl
@[simp] theorem State.noToken_outByte (s : State) : s.noToken.outByte = s.outByte := rfl

@[simp] theorem State.datapathInit_cfg (s : State) : s.datapathInit.cfg = s.cfg := rfl
@[simp] theorem State.datapathInit_inMem (s : State) : s.datapathInit.inMem = s.inMem := rfl
@[simp] theorem State.datapathInit_inWritten (s : State) : s.datapathInit.inWritten = s.inWritten := rfl
@[simp] theorem State.datapathInit_inLen (s : State) : s.datapathInit.inLen = s.inLen := rfl
@[simp] theorem State.datapathInit_inLock (s : State) : s.datapathInit.inLock = false := rfl
@[simp] theorem State.datapathInit_mfPos (s : State) : s.datapathInit.mfPos = 0#32 := rfl
@[simp] theorem State.datapathInit_pt (s : State) : s.datapathInit.pt = [] := rfl
@[simp] theorem State.datapathInit_token (s : State) : s.datapathInit.token = 0#32 := rfl
@[simp] theorem State.datapathInit_outMem (s : State) : s.datapathInit.outMem = s.outMem := rfl
@[simp] theorem State.datapathInit_outWritten (s : State) : s.datapathInit.outWritten = s.outWritten := rfl
@[simp] theorem State.datapathInit_bpK (s : State) : s.datapathInit.bpK = 0#32 := rfl
@[simp] theorem State.datapathInit_cur (s : State) : s.datapathInit.cur = 0#8 := rfl
@[simp] theorem State.datapathInit_fill (s : State) : s.datapathInit.fill = 0#3 := rfl
@[simp] theorem State.datapathInit_outLen (s : State) : s.datapathInit.outLen = 0#32 := rfl
@[simp] theorem State.datapathInit_fault (s : State) : s.datapathInit.fault = s.fault := rfl
@[simp] theorem State.datapathInit_cause (s : State) : s.datapathInit.cause = s.cause := rfl
@[simp] theorem State.datapathInit_faultCmd (s : State) : s.datapathInit.faultCmd = s.faultCmd := rfl
@[simp] theorem State.datapathInit_pending (s : State) : s.datapathInit.pending = s.pending := rfl
@[simp] theorem State.datapathInit_replies (s : State) : s.datapathInit.replies = s.replies := rfl
@[simp] theorem State.datapathInit_draws (s : State) : s.datapathInit.draws = s.draws := rfl
@[simp] theorem State.datapathInit_inByte (s : State) : s.datapathInit.inByte = s.inByte := rfl
@[simp] theorem State.datapathInit_outByte (s : State) : s.datapathInit.outByte = s.outByte := rfl

@[simp] theorem State.discardMatchFinder_cfg (s : State) : s.discardMatchFinder.cfg = s.cfg := rfl
@[simp] theorem State.discardMatchFinder_inMem (s : State) : s.discardMatchFinder.inMem = s.inMem := rfl
@[simp] theorem State.discardMatchFinder_inWritten (s : State) : s.discardMatchFinder.inWritten = s.inWritten := rfl
@[simp] theorem State.discardMatchFinder_inLen (s : State) : s.discardMatchFinder.inLen = s.inLen := rfl
@[simp] theorem State.discardMatchFinder_inLock (s : State) : s.discardMatchFinder.inLock = false := rfl
@[simp] theorem State.discardMatchFinder_mfPos (s : State) : s.discardMatchFinder.mfPos = 0#32 := rfl
@[simp] theorem State.discardMatchFinder_pt (s : State) : s.discardMatchFinder.pt = [] := rfl
@[simp] theorem State.discardMatchFinder_token (s : State) : s.discardMatchFinder.token = 0#32 := rfl
@[simp] theorem State.discardMatchFinder_outMem (s : State) : s.discardMatchFinder.outMem = s.outMem := rfl
@[simp] theorem State.discardMatchFinder_outWritten (s : State) : s.discardMatchFinder.outWritten = s.outWritten := rfl
@[simp] theorem State.discardMatchFinder_bpK (s : State) : s.discardMatchFinder.bpK = s.bpK := rfl
@[simp] theorem State.discardMatchFinder_cur (s : State) : s.discardMatchFinder.cur = s.cur := rfl
@[simp] theorem State.discardMatchFinder_fill (s : State) : s.discardMatchFinder.fill = s.fill := rfl
@[simp] theorem State.discardMatchFinder_outLen (s : State) : s.discardMatchFinder.outLen = s.outLen := rfl
@[simp] theorem State.discardMatchFinder_fault (s : State) : s.discardMatchFinder.fault = s.fault := rfl
@[simp] theorem State.discardMatchFinder_cause (s : State) : s.discardMatchFinder.cause = s.cause := rfl
@[simp] theorem State.discardMatchFinder_faultCmd (s : State) : s.discardMatchFinder.faultCmd = s.faultCmd := rfl
@[simp] theorem State.discardMatchFinder_pending (s : State) : s.discardMatchFinder.pending = s.pending := rfl
@[simp] theorem State.discardMatchFinder_replies (s : State) : s.discardMatchFinder.replies = s.replies := rfl
@[simp] theorem State.discardMatchFinder_draws (s : State) : s.discardMatchFinder.draws = s.draws := rfl
@[simp] theorem State.discardMatchFinder_inByte (s : State) : s.discardMatchFinder.inByte = s.inByte := rfl
@[simp] theorem State.discardMatchFinder_outByte (s : State) : s.discardMatchFinder.outByte = s.outByte := rfl

/-! ## The host's side (Machine/Ops.lean) -/

@[simp] theorem State.withPending_cfg (s : State) (rest : List HostAccess) : (s.withPending rest).cfg = s.cfg := rfl
@[simp] theorem State.withPending_inMem (s : State) (rest : List HostAccess) : (s.withPending rest).inMem = s.inMem := rfl
@[simp] theorem State.withPending_inWritten (s : State) (rest : List HostAccess) : (s.withPending rest).inWritten = s.inWritten := rfl
@[simp] theorem State.withPending_inLen (s : State) (rest : List HostAccess) : (s.withPending rest).inLen = s.inLen := rfl
@[simp] theorem State.withPending_inLock (s : State) (rest : List HostAccess) : (s.withPending rest).inLock = s.inLock := rfl
@[simp] theorem State.withPending_mfPos (s : State) (rest : List HostAccess) : (s.withPending rest).mfPos = s.mfPos := rfl
@[simp] theorem State.withPending_pt (s : State) (rest : List HostAccess) : (s.withPending rest).pt = s.pt := rfl
@[simp] theorem State.withPending_token (s : State) (rest : List HostAccess) : (s.withPending rest).token = s.token := rfl
@[simp] theorem State.withPending_outMem (s : State) (rest : List HostAccess) : (s.withPending rest).outMem = s.outMem := rfl
@[simp] theorem State.withPending_outWritten (s : State) (rest : List HostAccess) : (s.withPending rest).outWritten = s.outWritten := rfl
@[simp] theorem State.withPending_bpK (s : State) (rest : List HostAccess) : (s.withPending rest).bpK = s.bpK := rfl
@[simp] theorem State.withPending_cur (s : State) (rest : List HostAccess) : (s.withPending rest).cur = s.cur := rfl
@[simp] theorem State.withPending_fill (s : State) (rest : List HostAccess) : (s.withPending rest).fill = s.fill := rfl
@[simp] theorem State.withPending_outLen (s : State) (rest : List HostAccess) : (s.withPending rest).outLen = s.outLen := rfl
@[simp] theorem State.withPending_fault (s : State) (rest : List HostAccess) : (s.withPending rest).fault = s.fault := rfl
@[simp] theorem State.withPending_cause (s : State) (rest : List HostAccess) : (s.withPending rest).cause = s.cause := rfl
@[simp] theorem State.withPending_faultCmd (s : State) (rest : List HostAccess) : (s.withPending rest).faultCmd = s.faultCmd := rfl
@[simp] theorem State.withPending_pending (s : State) (rest : List HostAccess) : (s.withPending rest).pending = rest := rfl
@[simp] theorem State.withPending_replies (s : State) (rest : List HostAccess) : (s.withPending rest).replies = s.replies := rfl
@[simp] theorem State.withPending_draws (s : State) (rest : List HostAccess) : (s.withPending rest).draws = s.draws := rfl
@[simp] theorem State.withPending_inByte (s : State) (rest : List HostAccess) : (s.withPending rest).inByte = s.inByte := rfl
@[simp] theorem State.withPending_outByte (s : State) (rest : List HostAccess) : (s.withPending rest).outByte = s.outByte := rfl

@[simp] theorem State.reply_cfg (s : State) (r : HostReply) : (s.reply r).cfg = s.cfg := rfl
@[simp] theorem State.reply_inMem (s : State) (r : HostReply) : (s.reply r).inMem = s.inMem := rfl
@[simp] theorem State.reply_inWritten (s : State) (r : HostReply) : (s.reply r).inWritten = s.inWritten := rfl
@[simp] theorem State.reply_inLen (s : State) (r : HostReply) : (s.reply r).inLen = s.inLen := rfl
@[simp] theorem State.reply_inLock (s : State) (r : HostReply) : (s.reply r).inLock = s.inLock := rfl
@[simp] theorem State.reply_mfPos (s : State) (r : HostReply) : (s.reply r).mfPos = s.mfPos := rfl
@[simp] theorem State.reply_pt (s : State) (r : HostReply) : (s.reply r).pt = s.pt := rfl
@[simp] theorem State.reply_token (s : State) (r : HostReply) : (s.reply r).token = s.token := rfl
@[simp] theorem State.reply_outMem (s : State) (r : HostReply) : (s.reply r).outMem = s.outMem := rfl
@[simp] theorem State.reply_outWritten (s : State) (r : HostReply) : (s.reply r).outWritten = s.outWritten := rfl
@[simp] theorem State.reply_bpK (s : State) (r : HostReply) : (s.reply r).bpK = s.bpK := rfl
@[simp] theorem State.reply_cur (s : State) (r : HostReply) : (s.reply r).cur = s.cur := rfl
@[simp] theorem State.reply_fill (s : State) (r : HostReply) : (s.reply r).fill = s.fill := rfl
@[simp] theorem State.reply_outLen (s : State) (r : HostReply) : (s.reply r).outLen = s.outLen := rfl
@[simp] theorem State.reply_fault (s : State) (r : HostReply) : (s.reply r).fault = s.fault := rfl
@[simp] theorem State.reply_cause (s : State) (r : HostReply) : (s.reply r).cause = s.cause := rfl
@[simp] theorem State.reply_faultCmd (s : State) (r : HostReply) : (s.reply r).faultCmd = s.faultCmd := rfl
@[simp] theorem State.reply_pending (s : State) (r : HostReply) : (s.reply r).pending = s.pending := rfl
@[simp] theorem State.reply_replies (s : State) (r : HostReply) : (s.reply r).replies = s.replies ++ [r] := rfl
@[simp] theorem State.reply_draws (s : State) (r : HostReply) : (s.reply r).draws = s.draws := rfl
@[simp] theorem State.reply_inByte (s : State) (r : HostReply) : (s.reply r).inByte = s.inByte := rfl
@[simp] theorem State.reply_outByte (s : State) (r : HostReply) : (s.reply r).outByte = s.outByte := rfl

@[simp] theorem State.drawn_cfg (s : State) : s.drawn.cfg = s.cfg := rfl
@[simp] theorem State.drawn_inMem (s : State) : s.drawn.inMem = s.inMem := rfl
@[simp] theorem State.drawn_inWritten (s : State) : s.drawn.inWritten = s.inWritten := rfl
@[simp] theorem State.drawn_inLen (s : State) : s.drawn.inLen = s.inLen := rfl
@[simp] theorem State.drawn_inLock (s : State) : s.drawn.inLock = s.inLock := rfl
@[simp] theorem State.drawn_mfPos (s : State) : s.drawn.mfPos = s.mfPos := rfl
@[simp] theorem State.drawn_pt (s : State) : s.drawn.pt = s.pt := rfl
@[simp] theorem State.drawn_token (s : State) : s.drawn.token = s.token := rfl
@[simp] theorem State.drawn_outMem (s : State) : s.drawn.outMem = s.outMem := rfl
@[simp] theorem State.drawn_outWritten (s : State) : s.drawn.outWritten = s.outWritten := rfl
@[simp] theorem State.drawn_bpK (s : State) : s.drawn.bpK = s.bpK := rfl
@[simp] theorem State.drawn_cur (s : State) : s.drawn.cur = s.cur := rfl
@[simp] theorem State.drawn_fill (s : State) : s.drawn.fill = s.fill := rfl
@[simp] theorem State.drawn_outLen (s : State) : s.drawn.outLen = s.outLen := rfl
@[simp] theorem State.drawn_fault (s : State) : s.drawn.fault = s.fault := rfl
@[simp] theorem State.drawn_cause (s : State) : s.drawn.cause = s.cause := rfl
@[simp] theorem State.drawn_faultCmd (s : State) : s.drawn.faultCmd = s.faultCmd := rfl
@[simp] theorem State.drawn_pending (s : State) : s.drawn.pending = s.pending := rfl
@[simp] theorem State.drawn_replies (s : State) : s.drawn.replies = s.replies := rfl
@[simp] theorem State.drawn_draws (s : State) : s.drawn.draws = s.draws + 1 := rfl
@[simp] theorem State.drawn_inByte (s : State) : s.drawn.inByte = s.inByte := rfl
@[simp] theorem State.drawn_outByte (s : State) : s.drawn.outByte = s.outByte := rfl

end Sys2Proof.Machine
end

