-- ==== Sys2Proof/Laws/Operands.lean ====
section
/-! SUPPORT. The small laws of the operand checks and of token words (R79, R102, R182). -/

namespace Sys2Proof.Machine

@[simp] theorem legalWidth_iff (n : Nat) : legalWidth n = true ↔ n ≤ 32 := by
  simp only [legalWidth, decide_eq_true_eq]; rfl

@[simp] theorem legalLength_iff (length : Nat) : legalLength length = true ↔ 3 ≤ length ∧ length ≤ 258 := by
  simp only [legalLength, Bool.and_eq_true, decide_eq_true_eq]; rfl

@[simp] theorem legalDistance_iff (distance : Nat) :
    legalDistance distance = true ↔ 1 ≤ distance ∧ distance ≤ 32768 := by
  simp only [legalDistance, Bool.and_eq_true, decide_eq_true_eq]; rfl

@[simp] theorem Token.legal_literal (b : Byte) : (Token.literal b).legal = true := rfl

theorem Token.legal_copy_iff (length distance : Nat) : (Token.copy length distance).legal = true ↔
    3 ≤ length ∧ length ≤ 258 ∧ 1 ≤ distance ∧ distance ≤ 32768 := by
  simp only [Token.legal, Bool.and_eq_true, decide_eq_true_eq, and_assoc]; rfl

/-- The number a Literal's token word holds (R79). -/
theorem Token.toNat_word_literal (b : Byte) : (Token.literal b).word.toNat = 0x80000000 + b.toNat := by
  have hb := b.isLt
  show (BitVec.ofNat 32 _).toNat = _
  rw [BitVec.toNat_ofNat, Nat.mod_eq_of_lt (by omega)]

/-- The number a Match's token word holds (R79). -/
theorem Token.toNat_word_copy {length distance : Nat} (hl : length < 2 ^ 9) (hd : distance < 2 ^ 16) :
    (Token.copy length distance).word.toNat = 0xC0000000 + length * 65536 + distance := by
  show (BitVec.ofNat 32 _).toNat = _
  rw [BitVec.toNat_ofNat, Nat.mod_eq_of_lt (by omega)]

/-- A Token covers at least one byte if it is legal (R40). -/
theorem Token.one_le_consumed {t : Token} (h : t.legal = true) : 1 ≤ t.consumed := by
  cases t with
  | literal b => exact le_refl _
  | copy l d => rw [Token.legal_copy_iff] at h; show 1 ≤ l; omega

end Sys2Proof.Machine
end

