-- ==== Sys2Proof/Laws/Memory.lean ====
section
/-! SUPPORT. The laws of keyed lists, of the memories, of the written flags and of the prefix table: a read after a write, what a
write leaves alone, and that every operation keeps the canonical form. -/

namespace Sys2Proof.Machine

section KeyedLists

variable {α : Type}

@[simp] theorem lookupKey_nil (k : Nat) : lookupKey k ([] : List (Nat × α)) = none := rfl

theorem lookupKey_cons (k a : Nat) (v : α) (rest : List (Nat × α)) :
    lookupKey k ((a, v) :: rest) = if a = k then some v else lookupKey k rest := rfl

/-- A key that was set reads as what it was set to, and every other key reads as before. -/
theorem lookupKey_insertKey (k k' : Nat) (v : α) (l : List (Nat × α)) :
    lookupKey k' (insertKey k v l) = if k' = k then some v else lookupKey k' l := by
  induction l with
  | nil => simp [insertKey, lookupKey_cons, eq_comm]
  | cons e rest ih =>
    obtain ⟨a, w⟩ := e
    simp only [insertKey]
    split
    · simp [lookupKey_cons, eq_comm]
    · split
      · subst_vars
        by_cases h : k' = a
        · simp [lookupKey_cons, h]
        · simp [lookupKey_cons, h, Ne.symm h]
      · rename_i hne
        rw [lookupKey_cons, ih, lookupKey_cons]
        by_cases ha : a = k'
        · subst ha; simp [Ne.symm hne]
        · simp [ha]

/-- Setting a key twice to one value is setting it once. -/
theorem insertKey_insertKey_self (k : Nat) (v : α) (l : List (Nat × α)) :
    insertKey k v (insertKey k v l) = insertKey k v l := by
  induction l with
  | nil => simp [insertKey]
  | cons d rest ih =>
    obtain ⟨a, w⟩ := d
    simp only [insertKey]
    split
    · simp [insertKey]
    · split
      · simp [insertKey]
      · simp [insertKey, *]

theorem lookupKey_insertKey_self (k : Nat) (v : α) (l : List (Nat × α)) :
    lookupKey k (insertKey k v l) = some v := by simp [lookupKey_insertKey]

theorem lookupKey_insertKey_ne {k k' : Nat} (h : k' ≠ k) (v : α) (l : List (Nat × α)) :
    lookupKey k' (insertKey k v l) = lookupKey k' l := by simp [lookupKey_insertKey, h]

/-- What is listed after a key is set: the new entry, or an entry that was listed before. -/
theorem mem_insertKey {k : Nat} {v : α} {l : List (Nat × α)} {e : Nat × α}
    (h : e ∈ insertKey k v l) : e = (k, v) ∨ e ∈ l := by
  induction l with
  | nil => simpa [insertKey] using h
  | cons d rest ih =>
    obtain ⟨a, w⟩ := d
    simp only [insertKey] at h
    split at h
    · simpa using h
    · split at h
      · rcases List.mem_cons.1 h with h | h
        · exact .inl h
        · exact .inr (List.mem_cons_of_mem _ h)
      · rcases List.mem_cons.1 h with h | h
        · exact .inr (by simp [h])
        · exact (ih h).imp id (List.mem_cons_of_mem _)

/-- Setting a key keeps the keys strictly rising. -/
theorem risingKeys_insertKey (k : Nat) (v : α) {l : List (Nat × α)} (h : RisingKeys l) :
    RisingKeys (insertKey k v l) := by
  induction l with
  | nil => simp [insertKey]
  | cons d rest ih =>
    obtain ⟨a, w⟩ := d
    obtain ⟨hd, hr⟩ := List.pairwise_cons.1 h
    simp only [insertKey]
    split
    · rename_i hk
      refine List.pairwise_cons.2 ⟨fun e he => ?_, h⟩
      rcases List.mem_cons.1 he with he | he
      · simpa [he] using hk
      · exact lt_trans hk (hd e he)
    · split
      · rename_i hk
        subst hk
        exact List.pairwise_cons.2 ⟨hd, hr⟩
      · refine List.pairwise_cons.2 ⟨fun e he => ?_, ih hr⟩
        rcases mem_insertKey he with he | he
        · subst he; show a < k; omega
        · exact hd e he

/-- In a list whose keys rise, a listed entry is what its key reads as. -/
theorem lookupKey_of_mem {l : List (Nat × α)} (h : RisingKeys l) {k : Nat} {v : α} (hm : (k, v) ∈ l) :
    lookupKey k l = some v := by
  induction l with
  | nil => simp at hm
  | cons d rest ih =>
    obtain ⟨a, w⟩ := d
    obtain ⟨hd, hr⟩ := List.pairwise_cons.1 h
    rw [lookupKey_cons]
    rcases List.mem_cons.1 hm with hm | hm
    · cases hm; simp
    · have := hd _ hm
      simp only at this
      rw [if_neg (by omega), ih hr hm]

/-- What a key reads as is listed under it. -/
theorem mem_of_lookupKey {l : List (Nat × α)} {k : Nat} {v : α} (h : lookupKey k l = some v) :
    (k, v) ∈ l := by
  induction l with
  | nil => simp at h
  | cons d rest ih =>
    obtain ⟨a, w⟩ := d
    rw [lookupKey_cons] at h
    split at h
    · rename_i ha; cases h; simp [ha]
    · exact List.mem_cons_of_mem _ (ih h)

end KeyedLists

/-! ## Memories -/

@[simp] theorem Memory.read_nil (a : Nat) : Memory.read [] a = none := rfl

@[simp] theorem Memory.read_write (m : Memory) (a a' : Nat) (b : Byte) :
    Memory.read (Memory.write m a b) a' = if a' = a then some b else Memory.read m a' :=
  lookupKey_insertKey a a' b m

@[simp] theorem Memory.write_write_self (m : Memory) (a : Nat) (b : Byte) :
    Memory.write (Memory.write m a b) a b = Memory.write m a b := insertKey_insertKey_self a b m

theorem Memory.wf_iff (m : Memory) : Memory.wf m = true ↔ RisingKeys m := by simp [Memory.wf]

/-- Every memory operation keeps the canonical form. -/
theorem Memory.wf_write {m : Memory} (h : Memory.wf m = true) (a : Nat) (b : Byte) :
    Memory.wf (Memory.write m a b) = true :=
  (Memory.wf_iff _).2 (risingKeys_insertKey a b ((Memory.wf_iff m).1 h))

theorem Memory.below_iff (cap : Nat) (m : Memory) : Memory.below cap m = true ↔ ∀ c ∈ m, c.1 < cap := by
  simp [Memory.below]

theorem Memory.below_write {cap : Nat} {m : Memory} (h : Memory.below cap m = true) {a : Nat} (ha : a < cap)
    (b : Byte) : Memory.below cap (Memory.write m a b) = true := by
  rw [Memory.below_iff] at h ⊢
  intro c hc
  rcases mem_insertKey hc with hc | hc
  · simpa [hc] using ha
  · exact h c hc

/-- Reset's memories have the canonical form. -/
theorem Memory.wf_reset (c : Config) :
    Memory.wf (State.resetWith c).inMem = true ∧ Memory.wf (State.resetWith c).outMem = true :=
  ⟨rfl, rfl⟩

/-! ## The written flags -/

@[simp] theorem WrittenFlags.get_nil (a : Nat) : WrittenFlags.get [] a = false := rfl

theorem WrittenFlags.get_iff (f : WrittenFlags) (a : Nat) : WrittenFlags.get f a = true ↔ a ∈ f := by
  simp [WrittenFlags.get]

theorem WrittenFlags.mem_set (f : WrittenFlags) (a a' : Nat) : a' ∈ WrittenFlags.set f a ↔ a' = a ∨ a' ∈ f := by
  induction f with
  | nil => simp [WrittenFlags.set]
  | cons x rest ih =>
    simp only [WrittenFlags.set]
    split
    · simp
    · split
      · subst_vars; simp
      · simp only [List.mem_cons, ih]; tauto

/-- Setting one flag leaves every other flag alone. -/
@[simp] theorem WrittenFlags.get_set (f : WrittenFlags) (a a' : Nat) :
    WrittenFlags.get (WrittenFlags.set f a) a' = (decide (a' = a) || WrittenFlags.get f a') := by
  rw [Bool.eq_iff_iff]
  simp [WrittenFlags.get_iff, WrittenFlags.mem_set]

@[simp] theorem WrittenFlags.set_set_self (f : WrittenFlags) (a : Nat) :
    WrittenFlags.set (WrittenFlags.set f a) a = WrittenFlags.set f a := by
  induction f with
  | nil => simp [WrittenFlags.set]
  | cons x rest ih =>
    simp only [WrittenFlags.set]
    split
    · simp [WrittenFlags.set]
    · split
      · subst_vars; simp [WrittenFlags.set]
      · simp [WrittenFlags.set, *]

/-- A write lists exactly the address it writes beside those listed before. -/
@[simp] theorem Memory.addresses_write (m : Memory) (a : Nat) (b : Byte) :
    Memory.addresses (Memory.write m a b) = WrittenFlags.set (Memory.addresses m) a := by
  induction m with
  | nil => rfl
  | cons d rest ih =>
    obtain ⟨x, w⟩ := d
    simp only [Memory.addresses, Memory.write] at ih
    simp only [Memory.addresses, Memory.write, insertKey, WrittenFlags.set, List.map_cons]
    split
    · rfl
    · split
      · subst_vars; rfl
      · simp [ih]

/-- The addresses listed are those that hold a value. -/
theorem Memory.get_addresses (m : Memory) (a : Nat) :
    WrittenFlags.get (Memory.addresses m) a = (Memory.read m a).isSome := by
  induction m with
  | nil => rfl
  | cons d rest ih =>
    obtain ⟨x, w⟩ := d
    simp only [Memory.addresses, WrittenFlags.get, Memory.read] at ih
    simp only [Memory.addresses, WrittenFlags.get, Memory.read, List.map_cons, List.contains_cons, ih,
      lookupKey_cons]
    by_cases h : x = a
    · simp [h]
    · simp [h, Ne.symm h]

/-! ## What `IN` and `OUT` hold -/

/-- A byte stored in `IN` is what that address holds; every other address holds what it held. -/
@[simp] theorem State.inByte_storeIn (s : State) (a : Nat) (b : Byte) (a' : Nat) :
    (s.storeIn a b).inByte a' = if a' = a then some b else s.inByte a' := by
  by_cases h : a' = a <;> simp [State.inByte, State.inWrittenAt, h]

/-- A byte stored in `OUT` is what that address holds; every other address holds what it held. -/
@[simp] theorem State.outByte_storeOut (s : State) (a : Nat) (b : Byte) (a' : Nat) :
    (s.storeOut a b).outByte a' = if a' = a then some b else s.outByte a' := by
  by_cases h : a' = a <;> simp [State.outByte, State.outWrittenAt, h]

/-- An address whose flag is false holds no value. -/
theorem State.inByte_of_unwritten {s : State} {a : Nat} (h : s.inWrittenAt a = false) : s.inByte a = none := by
  simp [State.inByte, h]

theorem State.outByte_of_unwritten {s : State} {a : Nat} (h : s.outWrittenAt a = false) : s.outByte a = none := by
  simp [State.outByte, h]

/-- States with the same `IN` and `IN_WRITTEN` hold the same input bytes. -/
theorem State.inByte_congr {s t : State} (hm : t.inMem = s.inMem) (hw : t.inWritten = s.inWritten) :
    t.inByte = s.inByte := by
  funext a; simp only [State.inByte, State.inWrittenAt, hm, hw]

/-- States with the same `OUT` and `OUT_WRITTEN` hold the same output bytes. -/
theorem State.outByte_congr {s t : State} (hm : t.outMem = s.outMem) (hw : t.outWritten = s.outWritten) :
    t.outByte = s.outByte := by
  funext a; simp only [State.outByte, State.outWrittenAt, hm, hw]

/-- Where the flags agree with the memory (MemoryInv), what `IN` holds is what the memory reads as. -/
theorem State.inByte_eq_read {s : State} (h : s.inWritten = Memory.addresses s.inMem) (a : Nat) :
    s.inByte a = Memory.read s.inMem a := by
  simp only [State.inByte, State.inWrittenAt, h, Memory.get_addresses]
  cases Memory.read s.inMem a <;> rfl

theorem State.outByte_eq_read {s : State} (h : s.outWritten = Memory.addresses s.outMem) (a : Nat) :
    s.outByte a = Memory.read s.outMem a := by
  simp only [State.outByte, State.outWrittenAt, h, Memory.get_addresses]
  cases Memory.read s.outMem a <;> rfl

/-! ## The prefix table -/

@[simp] theorem PrefixTable.positions_nil (k : Key) : PrefixTable.positions [] k = [] := rfl

/-- Registering appends to one key's list and leaves every other list alone. -/
theorem PrefixTable.positions_register (pt : PrefixTable) (k k' : Key) (i : Nat) :
    PrefixTable.positions (PrefixTable.register pt k i) k' =
      if k' = k then PrefixTable.positions pt k ++ [i] else PrefixTable.positions pt k' := by
  by_cases h : k' = k
  · subst h; simp [PrefixTable.positions, PrefixTable.register, lookupKey_insertKey]
  · have hn : k'.toNat ≠ k.toNat := fun e => h (BitVec.eq_of_toNat_eq e)
    simp [PrefixTable.positions, PrefixTable.register, lookupKey_insertKey, h, hn]

theorem PrefixTable.wf_iff (pt : PrefixTable) :
    PrefixTable.wf pt = true ↔ RisingKeys pt ∧ ∀ e ∈ pt, e.2 ≠ [] := by
  simp [PrefixTable.wf]

/-- Registering keeps the canonical form of the table. -/
theorem PrefixTable.wf_register {pt : PrefixTable} (h : PrefixTable.wf pt = true) (k : Key) (i : Nat) :
    PrefixTable.wf (PrefixTable.register pt k i) = true := by
  rw [PrefixTable.wf_iff] at h ⊢
  refine ⟨risingKeys_insertKey _ _ h.1, fun e he => ?_⟩
  rcases mem_insertKey he with he | he
  · simp [he]
  · exact h.2 e he

end Sys2Proof.Machine
end

