-- ==== Sys2Proof/Laws/BitPacker.lean ====
section
/-! SUPPORT. What the BitPacker's operations do, said once: `put_bit`, its fold over a list of bits, `emit`
and the body of BP_FINISH. -/

namespace Sys2Proof.Machine

/-! ## The fields `put_bit` leaves alone -/

/-- A completed byte is what OUT[BP_K] holds; every other address holds what it held (R100). -/
@[simp] theorem State.outByte_completeByte (s : State) (b : Bool) (a : Nat) :
    (s.completeByte b).outByte a = if a = s.bpK.toNat then some (s.curWith b) else s.outByte a :=
  s.outByte_storeOut s.bpK.toNat (s.curWith b) a

theorem State.putBit_cases (s : State) (b : Bool) :
    (s.fill = 7#3 ∧ s.putBit b = s.completeByte b) ∨ (s.fill ≠ 7#3 ∧ s.putBit b = s.placeInCur b) := by
  unfold State.putBit
  by_cases h : s.fill = 7#3 <;> simp [h]

@[simp] theorem State.putBit_cfg (s : State) (b : Bool) : (s.putBit b).cfg = s.cfg := by
  rcases s.putBit_cases b with ⟨-, e⟩ | ⟨-, e⟩ <;> rw [e] <;> rfl

@[simp] theorem State.putBit_inMem (s : State) (b : Bool) : (s.putBit b).inMem = s.inMem := by
  rcases s.putBit_cases b with ⟨-, e⟩ | ⟨-, e⟩ <;> rw [e] <;> rfl

@[simp] theorem State.putBit_inWritten (s : State) (b : Bool) : (s.putBit b).inWritten = s.inWritten := by
  rcases s.putBit_cases b with ⟨-, e⟩ | ⟨-, e⟩ <;> rw [e] <;> rfl

@[simp] theorem State.putBit_inLen (s : State) (b : Bool) : (s.putBit b).inLen = s.inLen := by
  rcases s.putBit_cases b with ⟨-, e⟩ | ⟨-, e⟩ <;> rw [e] <;> rfl

@[simp] theorem State.putBit_inLock (s : State) (b : Bool) : (s.putBit b).inLock = s.inLock := by
  rcases s.putBit_cases b with ⟨-, e⟩ | ⟨-, e⟩ <;> rw [e] <;> rfl

@[simp] theorem State.putBit_mfPos (s : State) (b : Bool) : (s.putBit b).mfPos = s.mfPos := by
  rcases s.putBit_cases b with ⟨-, e⟩ | ⟨-, e⟩ <;> rw [e] <;> rfl

@[simp] theorem State.putBit_pt (s : State) (b : Bool) : (s.putBit b).pt = s.pt := by
  rcases s.putBit_cases b with ⟨-, e⟩ | ⟨-, e⟩ <;> rw [e] <;> rfl

@[simp] theorem State.putBit_token (s : State) (b : Bool) : (s.putBit b).token = s.token := by
  rcases s.putBit_cases b with ⟨-, e⟩ | ⟨-, e⟩ <;> rw [e] <;> rfl

@[simp] theorem State.putBit_outLen (s : State) (b : Bool) : (s.putBit b).outLen = s.outLen := by
  rcases s.putBit_cases b with ⟨-, e⟩ | ⟨-, e⟩ <;> rw [e] <;> rfl

@[simp] theorem State.putBit_fault (s : State) (b : Bool) : (s.putBit b).fault = s.fault := by
  rcases s.putBit_cases b with ⟨-, e⟩ | ⟨-, e⟩ <;> rw [e] <;> rfl

@[simp] theorem State.putBit_cause (s : State) (b : Bool) : (s.putBit b).cause = s.cause := by
  rcases s.putBit_cases b with ⟨-, e⟩ | ⟨-, e⟩ <;> rw [e] <;> rfl

@[simp] theorem State.putBit_faultCmd (s : State) (b : Bool) : (s.putBit b).faultCmd = s.faultCmd := by
  rcases s.putBit_cases b with ⟨-, e⟩ | ⟨-, e⟩ <;> rw [e] <;> rfl

@[simp] theorem State.putBit_pending (s : State) (b : Bool) : (s.putBit b).pending = s.pending := by
  rcases s.putBit_cases b with ⟨-, e⟩ | ⟨-, e⟩ <;> rw [e] <;> rfl

@[simp] theorem State.putBit_replies (s : State) (b : Bool) : (s.putBit b).replies = s.replies := by
  rcases s.putBit_cases b with ⟨-, e⟩ | ⟨-, e⟩ <;> rw [e] <;> rfl

@[simp] theorem State.putBit_draws (s : State) (b : Bool) : (s.putBit b).draws = s.draws := by
  rcases s.putBit_cases b with ⟨-, e⟩ | ⟨-, e⟩ <;> rw [e] <;> rfl

@[simp] theorem State.putBits_nil (s : State) : s.putBits [] = s := rfl

theorem State.putBits_cons (s : State) (b : Bool) (rest : List Bool) :
    s.putBits (b :: rest) = (s.putBit b).putBits rest := rfl

/-- Placing one sequence of bits after another is placing their concatenation (R101). -/
theorem State.putBits_append (s : State) (bs cs : List Bool) :
    s.putBits (bs ++ cs) = (s.putBits bs).putBits cs := by simp [State.putBits]

@[simp] theorem State.putBits_cfg (s : State) (bits : List Bool) : (s.putBits bits).cfg = s.cfg := by
  induction bits generalizing s with
  | nil => rfl
  | cons b rest ih => rw [State.putBits_cons, ih, State.putBit_cfg]

@[simp] theorem State.putBits_inMem (s : State) (bits : List Bool) : (s.putBits bits).inMem = s.inMem := by
  induction bits generalizing s with
  | nil => rfl
  | cons b rest ih => rw [State.putBits_cons, ih, State.putBit_inMem]

@[simp] theorem State.putBits_inWritten (s : State) (bits : List Bool) : (s.putBits bits).inWritten = s.inWritten := by
  induction bits generalizing s with
  | nil => rfl
  | cons b rest ih => rw [State.putBits_cons, ih, State.putBit_inWritten]

@[simp] theorem State.putBits_inLen (s : State) (bits : List Bool) : (s.putBits bits).inLen = s.inLen := by
  induction bits generalizing s with
  | nil => rfl
  | cons b rest ih => rw [State.putBits_cons, ih, State.putBit_inLen]

@[simp] theorem State.putBits_inLock (s : State) (bits : List Bool) : (s.putBits bits).inLock = s.inLock := by
  induction bits generalizing s with
  | nil => rfl
  | cons b rest ih => rw [State.putBits_cons, ih, State.putBit_inLock]

@[simp] theorem State.putBits_mfPos (s : State) (bits : List Bool) : (s.putBits bits).mfPos = s.mfPos := by
  induction bits generalizing s with
  | nil => rfl
  | cons b rest ih => rw [State.putBits_cons, ih, State.putBit_mfPos]

@[simp] theorem State.putBits_pt (s : State) (bits : List Bool) : (s.putBits bits).pt = s.pt := by
  induction bits generalizing s with
  | nil => rfl
  | cons b rest ih => rw [State.putBits_cons, ih, State.putBit_pt]

@[simp] theorem State.putBits_token (s : State) (bits : List Bool) : (s.putBits bits).token = s.token := by
  induction bits generalizing s with
  | nil => rfl
  | cons b rest ih => rw [State.putBits_cons, ih, State.putBit_token]

@[simp] theorem State.putBits_outLen (s : State) (bits : List Bool) : (s.putBits bits).outLen = s.outLen := by
  induction bits generalizing s with
  | nil => rfl
  | cons b rest ih => rw [State.putBits_cons, ih, State.putBit_outLen]

@[simp] theorem State.putBits_fault (s : State) (bits : List Bool) : (s.putBits bits).fault = s.fault := by
  induction bits generalizing s with
  | nil => rfl
  | cons b rest ih => rw [State.putBits_cons, ih, State.putBit_fault]

@[simp] theorem State.putBits_cause (s : State) (bits : List Bool) : (s.putBits bits).cause = s.cause := by
  induction bits generalizing s with
  | nil => rfl
  | cons b rest ih => rw [State.putBits_cons, ih, State.putBit_cause]

@[simp] theorem State.putBits_faultCmd (s : State) (bits : List Bool) : (s.putBits bits).faultCmd = s.faultCmd := by
  induction bits generalizing s with
  | nil => rfl
  | cons b rest ih => rw [State.putBits_cons, ih, State.putBit_faultCmd]

@[simp] theorem State.putBits_pending (s : State) (bits : List Bool) : (s.putBits bits).pending = s.pending := by
  induction bits generalizing s with
  | nil => rfl
  | cons b rest ih => rw [State.putBits_cons, ih, State.putBit_pending]

@[simp] theorem State.putBits_replies (s : State) (bits : List Bool) : (s.putBits bits).replies = s.replies := by
  induction bits generalizing s with
  | nil => rfl
  | cons b rest ih => rw [State.putBits_cons, ih, State.putBit_replies]

@[simp] theorem State.putBits_draws (s : State) (bits : List Bool) : (s.putBits bits).draws = s.draws := by
  induction bits generalizing s with
  | nil => rfl
  | cons b rest ih => rw [State.putBits_cons, ih, State.putBit_draws]

/-! ## `BIT_LEN` -/

theorem State.fits_iff (s : State) (m : Nat) : s.fits m = true ↔ s.bitLen + m ≤ 8 * s.cfg.outCap.toNat := by
  simp [State.fits]

theorem State.bitLen_putBit (s : State) (b : Bool) (h : s.bitLen + 1 ≤ 8 * s.cfg.outCap.toNat) :
    (s.putBit b).bitLen = s.bitLen + 1 := by
  have hc := s.cfg.outCap.isLt
  have hf := s.fill.isLt
  unfold State.bitLen at h ⊢
  rcases s.putBit_cases b with ⟨h7, e⟩ | ⟨h7, e⟩ <;> rw [e]
  · have h7' : s.fill.toNat = 7 := by simp [h7]
    have hk : (s.bpK + 1#32).toNat = s.bpK.toNat + 1 := by
      rw [BitVec.toNat_add]; simp; omega
    simp [hk]; omega
  · have h7' : s.fill.toNat ≠ 7 := fun c => h7 (BitVec.eq_of_toNat_eq (by simpa using c))
    have hk : (s.fill + 1#3).toNat = s.fill.toNat + 1 := by
      rw [BitVec.toNat_add]; simp; omega
    simp only [State.placeInCur_bpK, State.placeInCur_fill, hk]; omega

theorem State.bitLen_putBits (s : State) (bits : List Bool)
    (h : s.bitLen + bits.length ≤ 8 * s.cfg.outCap.toNat) :
    (s.putBits bits).bitLen = s.bitLen + bits.length := by
  induction bits generalizing s with
  | nil => simp
  | cons b rest ih =>
    rw [List.length_cons] at h ⊢
    have h1 := s.bitLen_putBit b (by omega)
    rw [State.putBits_cons, ih _ (by rw [h1]; simp; omega), h1]; omega

/-- `BP_K` and `FILL` are the quotient and the remainder of `BIT_LEN` (R32). -/
theorem State.bpK_eq (s : State) : s.bpK.toNat = s.bitLen / 8 := by
  have := s.fill.isLt
  unfold State.bitLen; omega

theorem State.fill_eq (s : State) : s.fill.toNat = s.bitLen % 8 := by
  have := s.fill.isLt
  unfold State.bitLen; omega

/-! ## The partial byte (R31) -/

theorem State.toNat_curWith (s : State) (b : Bool) :
    (s.curWith b).toNat = s.cur.toNat ||| b.toNat <<< s.fill.toNat := by
  have hf := s.fill.isLt
  unfold State.curWith
  rw [BitVec.toNat_or, BitVec.toNat_shiftLeft]
  congr 1
  cases b
  · simp
  · simp only [BitVec.ofBool_true, BitVec.toNat_setWidth, Bool.toNat_true]
    rw [Nat.shiftLeft_eq, Nat.shiftLeft_eq]
    have : 2 ^ s.fill.toNat ≤ 2 ^ 7 := Nat.pow_le_pow_right (by norm_num) (by omega)
    have hh : BitVec.toNat (1 : BitVec 1) % 2 ^ 8 = 1 := by decide
    rw [hh, Nat.mod_eq_of_lt (by omega)]

theorem State.curWith_lt (s : State) (b : Bool) (h : s.cur.toNat < 2 ^ s.fill.toNat) :
    (s.curWith b).toNat < 2 ^ (s.fill.toNat + 1) := by
  rw [s.toNat_curWith]
  refine Nat.or_lt_two_pow (by rw [Nat.pow_succ]; omega) ?_
  rw [Nat.shiftLeft_eq, Nat.pow_succ]
  have hp : 0 < 2 ^ s.fill.toNat := by positivity
  cases b <;> simp

/-- The bits of `CUR` from `FILL` up stay 0 (R31). -/
theorem State.curClean_putBit (s : State) (b : Bool) (h : s.cur.toNat < 2 ^ s.fill.toNat) :
    (s.putBit b).cur.toNat < 2 ^ (s.putBit b).fill.toNat := by
  have hf := s.fill.isLt
  rcases s.putBit_cases b with ⟨h7, e⟩ | ⟨h7, e⟩ <;> rw [e]
  · simp
  · have h7' : s.fill.toNat ≠ 7 := fun c => h7 (BitVec.eq_of_toNat_eq (by simpa using c))
    have hk : (s.fill + 1#3).toNat = s.fill.toNat + 1 := by
      rw [BitVec.toNat_add]; simp; omega
    simpa [hk] using s.curWith_lt b h

theorem State.curClean_putBits (s : State) (bits : List Bool) (h : s.cur.toNat < 2 ^ s.fill.toNat) :
    (s.putBits bits).cur.toNat < 2 ^ (s.putBits bits).fill.toNat := by
  induction bits generalizing s with
  | nil => simpa using h
  | cons b rest ih => rw [State.putBits_cons]; exact ih _ (s.curClean_putBit b h)

theorem State.curWith_bit (s : State) (b : Bool) (h : s.cur.toNat < 2 ^ s.fill.toNat) (r : Nat)
    (hr : r ≤ s.fill.toNat) :
    (s.curWith b).getLsbD r = if r = s.fill.toNat then b else s.cur.getLsbD r := by
  rw [BitVec.getLsbD, s.toNat_curWith, Nat.testBit_or, Nat.testBit_shiftLeft]
  by_cases e : r = s.fill.toNat
  · subst e
    have : s.cur.toNat.testBit s.fill.toNat = false := Nat.testBit_lt_two_pow h
    cases b <;> simp [this]
  · have : ¬ s.fill.toNat ≤ r := by omega
    simp [e, this, BitVec.getLsbD]

/-! ## The stream (R32, R101) -/

/-- `put_bit` places one bit at the cursor and moves no bit already placed. -/
theorem State.streamBit_putBit (s : State) (b : Bool) (hc : s.cur.toNat < 2 ^ s.fill.toNat)
    (h : s.bitLen + 1 ≤ 8 * s.cfg.outCap.toNat) (j : Nat) :
    (s.putBit b).streamBit j = if j = s.bitLen then some b else s.streamBit j := by
  have hl := s.bitLen_putBit b h
  have hf := s.fill.isLt
  have hcap := s.cfg.outCap.isLt
  unfold State.streamBit
  rw [hl]
  have hbl : s.bitLen = 8 * s.bpK.toNat + s.fill.toNat := rfl
  rcases s.putBit_cases b with ⟨h7, e⟩ | ⟨h7, e⟩ <;> rw [e]
  · have h7' : s.fill.toNat = 7 := by simp [h7]
    have hk : (s.bpK + 1#32).toNat = s.bpK.toNat + 1 := by
      rw [BitVec.toNat_add]; simp; omega
    simp only [State.completeByte_bpK, State.outByte_completeByte, hk]
    rcases lt_trichotomy j (8 * s.bpK.toNat) with hj | hj | hj
    · have : j / 8 ≠ s.bpK.toNat := by omega
      rw [if_pos (by omega), if_neg this, if_neg (by omega), if_pos hj]
    all_goals
      by_cases hj8 : j < 8 * (s.bpK.toNat + 1)
      · have h1 : j / 8 = s.bpK.toNat := by omega
        have h2 : j % 8 ≤ s.fill.toNat := by omega
        rw [if_pos hj8, if_pos h1, if_neg (show ¬ j < 8 * s.bpK.toNat by omega)]
        simp only [Option.map_some, s.curWith_bit b hc _ h2]
        by_cases hjl : j = s.bitLen
        · rw [if_pos hjl, if_pos (by omega)]
        · rw [if_neg hjl, if_neg (by omega), if_pos (by omega)]
      · rw [if_neg hj8, if_neg (by omega), if_neg (by omega), if_neg (by omega), if_neg (by omega)]
  · rw [State.placeInCur_bpK, State.placeInCur_outByte, State.placeInCur_cur]
    by_cases hj : j < 8 * s.bpK.toNat
    · rw [if_pos hj, if_neg (by omega), if_pos hj]
    · rw [if_neg hj, if_neg hj]
      by_cases hj1 : j < s.bitLen + 1
      · have h2 : j % 8 ≤ s.fill.toNat := by omega
        rw [if_pos hj1, s.curWith_bit b hc _ h2]
        by_cases hjl : j = s.bitLen
        · rw [if_pos hjl, if_pos (by omega)]
        · rw [if_neg hjl, if_neg (by omega), if_pos (by omega)]
      · rw [if_neg hj1, if_neg (by omega), if_neg (by omega)]

/-- The stream law (R101). -/
theorem State.streamBit_putBits (s : State) (bits : List Bool) (hc : s.cur.toNat < 2 ^ s.fill.toNat)
    (h : s.bitLen + bits.length ≤ 8 * s.cfg.outCap.toNat) (j : Nat) :
    (s.putBits bits).streamBit j = if j < s.bitLen then s.streamBit j else bits[j - s.bitLen]? := by
  induction bits generalizing s with
  | nil =>
    by_cases hj : j < s.bitLen
    · simp [hj]
    · have : ¬ j < 8 * s.bpK.toNat := by unfold State.bitLen at hj; omega
      simp [hj, State.streamBit, this]
  | cons b rest ih =>
    rw [List.length_cons] at h
    have hl := s.bitLen_putBit b (by omega)
    rw [State.putBits_cons, ih _ (s.curClean_putBit b hc) (by rw [hl]; simp; omega), hl,
      s.streamBit_putBit b hc (by omega)]
    rcases lt_trichotomy j s.bitLen with hj | hj | hj
    · rw [if_pos (by omega), if_neg (by omega), if_pos hj]
    · subst hj; simp
    · have : j - s.bitLen = (j - (s.bitLen + 1)) + 1 := by omega
      rw [if_neg (by omega), if_neg (by omega), this, List.getElem?_cons_succ]

/-! ## The bytes written -/

/-- `put_bit` writes `OUT` only at `BP_K` (R56). -/
theorem State.sameOutAt_putBits (s : State) (bits : List Bool) (a : Nat)
    (h : s.bitLen + bits.length ≤ 8 * s.cfg.outCap.toNat)
    (ha : a < s.bpK.toNat ∨ (s.bitLen + bits.length) / 8 ≤ a) :
    Memory.read (s.putBits bits).outMem a = Memory.read s.outMem a ∧
      (s.putBits bits).outWrittenAt a = s.outWrittenAt a := by
  induction bits generalizing s with
  | nil => exact ⟨rfl, rfl⟩
  | cons b rest ih =>
    rw [List.length_cons] at h ha
    have hl := s.bitLen_putBit b (by omega)
    have hk := s.bpK_eq
    have hk' := (s.putBit b).bpK_eq
    have hstep : Memory.read (s.putBit b).outMem a = Memory.read s.outMem a ∧
        (s.putBit b).outWrittenAt a = s.outWrittenAt a := by
      rcases s.putBit_cases b with ⟨h7, e⟩ | ⟨h7, e⟩ <;> rw [e]
      · have h7' : s.fill.toNat = 7 := by simp [h7]
        have hf := s.fill_eq
        have hne : a ≠ s.bpK.toNat := by omega
        simp [State.outWrittenAt, hne]
      · exact ⟨rfl, rfl⟩
    obtain ⟨e1, e2⟩ := ih (s.putBit b) (by rw [hl]; simp; omega) (by rw [hl, hk', hl]; omega)
    exact ⟨e1.trans hstep.1, e2.trans hstep.2⟩

/-- The written flags and the memory stay in step (R44). -/
theorem State.flags_putBits (s : State) (bits : List Bool) (h : s.outWritten = Memory.addresses s.outMem) :
    (s.putBits bits).outWritten = Memory.addresses (s.putBits bits).outMem := by
  induction bits generalizing s with
  | nil => exact h
  | cons b rest ih =>
    refine ih _ ?_
    rcases s.putBit_cases b with ⟨-, e⟩ | ⟨-, e⟩ <;> rw [e]
    · simp [h]
    · exact h

/-- Each byte completed is written (R44, R56). -/
theorem State.outByte_isSome_putBits (s : State) (bits : List Bool) (a : Nat) (h : (s.outByte a).isSome = true) :
    ((s.putBits bits).outByte a).isSome = true := by
  induction bits generalizing s with
  | nil => exact h
  | cons b rest ih =>
    rw [State.putBits_cons]
    refine ih _ ?_
    rcases s.putBit_cases b with ⟨-, e⟩ | ⟨-, e⟩ <;> rw [e]
    · rw [State.outByte_completeByte]
      split
      · rfl
      · exact h
    · exact h

theorem State.outByte_isSome_putBits_below (s : State) (bits : List Bool)
    (h : s.bitLen + bits.length ≤ 8 * s.cfg.outCap.toNat)
    (hw : ∀ a, a < s.bpK.toNat → (s.outByte a).isSome = true) (a : Nat) (ha : a < (s.putBits bits).bpK.toNat) :
    ((s.putBits bits).outByte a).isSome = true := by
  induction bits generalizing s with
  | nil => exact hw a ha
  | cons b rest ih =>
    rw [List.length_cons] at h
    have hl := s.bitLen_putBit b (by omega)
    rw [State.putBits_cons] at ha ⊢
    refine ih _ (by rw [hl]; simp; omega) (fun c hc => ?_) ha
    have hk := s.bpK_eq
    have hk' := (s.putBit b).bpK_eq
    rw [hl] at hk'
    rcases s.putBit_cases b with ⟨h7, e⟩ | ⟨h7, e⟩ <;> rw [e] at hc hk' ⊢
    · rw [State.outByte_completeByte]
      split
      · rfl
      · refine hw c ?_
        rename_i hne
        have h7' : s.fill.toNat = 7 := by simp [h7]
        have hf := s.fill_eq
        omega
    · simp only [State.placeInCur_bpK] at hc
      exact hw c hc

theorem State.wf_putBits (s : State) (bits : List Bool) (h : Memory.wf s.outMem = true) :
    Memory.wf (s.putBits bits).outMem = true := by
  induction bits generalizing s with
  | nil => exact h
  | cons b rest ih =>
    rw [State.putBits_cons]
    refine ih _ ?_
    rcases s.putBit_cases b with ⟨-, e⟩ | ⟨-, e⟩ <;> rw [e]
    · exact Memory.wf_write h _ _
    · exact h

theorem State.below_putBits (s : State) (bits : List Bool)
    (h : s.bitLen + bits.length ≤ 8 * s.cfg.outCap.toNat)
    (hb : Memory.below s.cfg.outCap.toNat s.outMem = true) :
    Memory.below s.cfg.outCap.toNat (s.putBits bits).outMem = true := by
  induction bits generalizing s with
  | nil => exact hb
  | cons b rest ih =>
    rw [List.length_cons] at h
    have hl := s.bitLen_putBit b (by omega)
    have := ih (s.putBit b) (by rw [hl]; simp; omega)
    rw [State.putBits_cons]
    simp only [State.putBit_cfg] at this
    refine this ?_
    rcases s.putBit_cases b with ⟨h7, e⟩ | ⟨h7, e⟩ <;> rw [e]
    · refine Memory.below_write hb ?_ _
      have hk := s.bpK_eq
      have h7' : s.fill.toNat = 7 := by simp [h7]
      have hf := s.fill_eq
      omega
    · exact hb

@[simp] theorem State.putBits_inByte (s : State) (bits : List Bool) : (s.putBits bits).inByte = s.inByte :=
  State.inByte_congr (s.putBits_inMem bits) (s.putBits_inWritten bits)

/-- Placing bits changes nothing but the BitPacker's state. -/
theorem State.putBits_frame (s : State) (bits : List Bool) :
    s.putBits bits = { s with
      outMem := (s.putBits bits).outMem, outWritten := (s.putBits bits).outWritten,
      bpK := (s.putBits bits).bpK, cur := (s.putBits bits).cur, fill := (s.putBits bits).fill } := by
  apply State.ext <;> simp

/-! ## `emit` (R105) -/

@[simp] theorem length_bitsLsbFirst (v n : Nat) : (bitsLsbFirst v n).length = n := by simp [bitsLsbFirst]

@[simp] theorem length_bitsMsbFirst (v n : Nat) : (bitsMsbFirst v n).length = n := by simp [bitsMsbFirst]

@[simp] theorem Code.length_bits (c : Code) : c.bits.length = c.width := by
  unfold Code.bits; split <;> simp

theorem getElem?_bitsLsbFirst (v n j : Nat) :
    (bitsLsbFirst v n)[j]? = if j < n then some (v.testBit j) else none := by
  by_cases h : j < n <;> simp [bitsLsbFirst, h]

theorem getElem?_bitsMsbFirst (v n j : Nat) :
    (bitsMsbFirst v n)[j]? = if j < n then some (v.testBit (n - 1 - j)) else none := by
  by_cases h : j < n <;> simp [bitsMsbFirst, h]

@[simp] theorem codesBits_nil : codesBits [] = [] := rfl

@[simp] theorem codesBits_cons (c : Code) (cs : List Code) : codesBits (c :: cs) = c.bits ++ codesBits cs := rfl

@[simp] theorem codesBits_append (cs ds : List Code) : codesBits (cs ++ ds) = codesBits cs ++ codesBits ds := by
  simp [codesBits]

@[simp] theorem length_codesBits (cs : List Code) : (codesBits cs).length = codesWidth cs := by
  induction cs with
  | nil => rfl
  | cons c cs ih => simp [ih, codesWidth]

/-- What `emit` can do: place all the bits, or raise OUT_OVERFLOW when they do not fit. -/
theorem State.emit_cases (s : State) (cs : List Code) :
    (s.bitLen + codesWidth cs ≤ 8 * s.cfg.outCap.toNat ∧ s.emit cs = .ok (s.putBits (codesBits cs))) ∨
    (8 * s.cfg.outCap.toNat < s.bitLen + codesWidth cs ∧ s.emit cs = .error (.raised .outOverflow)) := by
  unfold State.emit
  by_cases h : s.fits (codesWidth cs) = true
  · exact .inl ⟨(s.fits_iff _).1 h, by simp [h]⟩
  · exact .inr ⟨by rw [s.fits_iff] at h; omega, by simp [h]⟩

theorem State.emit_of_fits {s : State} {cs : List Code}
    (h : s.bitLen + codesWidth cs ≤ 8 * s.cfg.outCap.toNat) : s.emit cs = .ok (s.putBits (codesBits cs)) := by
  rcases s.emit_cases cs with ⟨-, e⟩ | ⟨h', -⟩
  · exact e
  · omega

theorem State.emit_ok {s t : State} {cs : List Code} (h : s.emit cs = .ok t) :
    s.bitLen + codesWidth cs ≤ 8 * s.cfg.outCap.toNat ∧ t = s.putBits (codesBits cs) := by
  rcases s.emit_cases cs with ⟨h', e⟩ | ⟨h', e⟩ <;> rw [e] at h
  · exact ⟨h', by cases h; rfl⟩
  · cases h

theorem State.emit_error {s : State} {cs : List Code} {e : Stop} (h : s.emit cs = .error e) :
    e = .raised .outOverflow ∧ 8 * s.cfg.outCap.toNat < s.bitLen + codesWidth cs := by
  rcases s.emit_cases cs with ⟨h', e'⟩ | ⟨h', e'⟩ <;> rw [e'] at h
  · cases h
  · exact ⟨by cases h; rfl, h'⟩

/-! ## BP_FINISH (R104) -/

theorem State.finishBody_cases (s : State) :
    (s.fill = 0#3 ∧ s.finishBody = s.withOutLen s.bpK) ∨
    (s.fill ≠ 0#3 ∧ s.finishBody = (s.storeOut s.bpK.toNat s.cur).withOutLen (s.bpK + 1#32)) := by
  unfold State.finishBody
  by_cases h : s.fill = 0#3 <;> simp [h]

@[simp] theorem State.finishBody_cfg (s : State) : s.finishBody.cfg = s.cfg := by
  rcases s.finishBody_cases with ⟨-, e⟩ | ⟨-, e⟩ <;> rw [e] <;> rfl

@[simp] theorem State.finishBody_inMem (s : State) : s.finishBody.inMem = s.inMem := by
  rcases s.finishBody_cases with ⟨-, e⟩ | ⟨-, e⟩ <;> rw [e] <;> rfl

@[simp] theorem State.finishBody_inWritten (s : State) : s.finishBody.inWritten = s.inWritten := by
  rcases s.finishBody_cases with ⟨-, e⟩ | ⟨-, e⟩ <;> rw [e] <;> rfl

@[simp] theorem State.finishBody_inLen (s : State) : s.finishBody.inLen = s.inLen := by
  rcases s.finishBody_cases with ⟨-, e⟩ | ⟨-, e⟩ <;> rw [e] <;> rfl

@[simp] theorem State.finishBody_inLock (s : State) : s.finishBody.inLock = s.inLock := by
  rcases s.finishBody_cases with ⟨-, e⟩ | ⟨-, e⟩ <;> rw [e] <;> rfl

@[simp] theorem State.finishBody_mfPos (s : State) : s.finishBody.mfPos = s.mfPos := by
  rcases s.finishBody_cases with ⟨-, e⟩ | ⟨-, e⟩ <;> rw [e] <;> rfl

@[simp] theorem State.finishBody_pt (s : State) : s.finishBody.pt = s.pt := by
  rcases s.finishBody_cases with ⟨-, e⟩ | ⟨-, e⟩ <;> rw [e] <;> rfl

@[simp] theorem State.finishBody_token (s : State) : s.finishBody.token = s.token := by
  rcases s.finishBody_cases with ⟨-, e⟩ | ⟨-, e⟩ <;> rw [e] <;> rfl

@[simp] theorem State.finishBody_bpK (s : State) : s.finishBody.bpK = s.bpK := by
  rcases s.finishBody_cases with ⟨-, e⟩ | ⟨-, e⟩ <;> rw [e] <;> rfl

@[simp] theorem State.finishBody_cur (s : State) : s.finishBody.cur = s.cur := by
  rcases s.finishBody_cases with ⟨-, e⟩ | ⟨-, e⟩ <;> rw [e] <;> rfl

@[simp] theorem State.finishBody_fill (s : State) : s.finishBody.fill = s.fill := by
  rcases s.finishBody_cases with ⟨-, e⟩ | ⟨-, e⟩ <;> rw [e] <;> rfl

@[simp] theorem State.finishBody_fault (s : State) : s.finishBody.fault = s.fault := by
  rcases s.finishBody_cases with ⟨-, e⟩ | ⟨-, e⟩ <;> rw [e] <;> rfl

@[simp] theorem State.finishBody_cause (s : State) : s.finishBody.cause = s.cause := by
  rcases s.finishBody_cases with ⟨-, e⟩ | ⟨-, e⟩ <;> rw [e] <;> rfl

@[simp] theorem State.finishBody_faultCmd (s : State) : s.finishBody.faultCmd = s.faultCmd := by
  rcases s.finishBody_cases with ⟨-, e⟩ | ⟨-, e⟩ <;> rw [e] <;> rfl

@[simp] theorem State.finishBody_pending (s : State) : s.finishBody.pending = s.pending := by
  rcases s.finishBody_cases with ⟨-, e⟩ | ⟨-, e⟩ <;> rw [e] <;> rfl

@[simp] theorem State.finishBody_replies (s : State) : s.finishBody.replies = s.replies := by
  rcases s.finishBody_cases with ⟨-, e⟩ | ⟨-, e⟩ <;> rw [e] <;> rfl

@[simp] theorem State.finishBody_draws (s : State) : s.finishBody.draws = s.draws := by
  rcases s.finishBody_cases with ⟨-, e⟩ | ⟨-, e⟩ <;> rw [e] <;> rfl

/-- `OUT_LEN` after a finish is ceil(BIT_LEN / 8), for a stream that fits `OUT`. -/
theorem State.finishBody_outLen (s : State) (h : s.bitLen ≤ 8 * s.cfg.outCap.toNat) :
    s.finishBody.outLen.toNat = (s.bitLen + 7) / 8 := by
  have hk := s.bpK_eq
  have hf := s.fill_eq
  have hc := s.cfg.outCap.isLt
  rcases s.finishBody_cases with ⟨h0, e⟩ | ⟨h0, e⟩ <;> rw [e]
  · have : s.fill.toNat = 0 := by simp [h0]
    simp only [State.withOutLen_outLen]; omega
  · have : s.fill.toNat ≠ 0 := fun c => h0 (BitVec.eq_of_toNat_eq (by simpa using c))
    simp only [State.withOutLen_outLen, BitVec.toNat_add, BitVec.toNat_ofNat]
    omega

@[simp] theorem State.finishBody_inByte (s : State) : s.finishBody.inByte = s.inByte :=
  State.inByte_congr s.finishBody_inMem s.finishBody_inWritten

/-- A finish changes nothing but `OUT`, `OUT_WRITTEN` and `OUT_LEN`. -/
theorem State.finishBody_frame (s : State) :
    s.finishBody = { s with
      outMem := s.finishBody.outMem, outWritten := s.finishBody.outWritten, outLen := s.finishBody.outLen } := by
  apply State.ext <;> simp

/-- What OUT holds after a finish: `CUR` at `BP_K` when the partial byte is not empty, and what it held. -/
theorem State.outByte_finishBody (s : State) (a : Nat) :
    s.finishBody.outByte a = if s.fill ≠ 0#3 ∧ a = s.bpK.toNat then some s.cur else s.outByte a := by
  rcases s.finishBody_cases with ⟨h, e⟩ | ⟨h, e⟩ <;> rw [e] <;> simp [h]

/-- A finish writes `OUT` at `BP_K` alone (R104). -/
theorem State.sameOutAt_finishBody (s : State) {a : Nat} (ha : a ≠ s.bpK.toNat) :
    Memory.read s.finishBody.outMem a = Memory.read s.outMem a ∧
      s.finishBody.outWrittenAt a = s.outWrittenAt a := by
  rcases s.finishBody_cases with ⟨-, e⟩ | ⟨-, e⟩ <;> rw [e] <;> simp [State.outWrittenAt, ha]

/-- A second finish writes the same values again (R106). -/
@[simp] theorem State.finishBody_finishBody (s : State) : s.finishBody.finishBody = s.finishBody := by
  rcases s.finishBody_cases with ⟨h, e⟩ | ⟨h, e⟩
  · rw [e]; simp only [State.finishBody, State.withOutLen, h, if_true]
  · rw [e]
    simp only [State.finishBody, State.withOutLen, State.storeOut, h, if_false, Memory.write_write_self,
      WrittenFlags.set_set_self]

end Sys2Proof.Machine
end

