-- ==== Sys2Proof/Laws/Encoding.lean ====
section
/-! SUPPORT. The laws of the decoder and the encoder: which words each row of the opcode map selects (R76), in
terms of the fields of R71 to R74, and what the fields of an encoded command are. -/

namespace Sys2Proof

/-- A concatenation determines its two parts. -/
theorem append_injective {m n : Nat} {x x' : BitVec m} {y y' : BitVec n} (h : x ++ y = x' ++ y') :
    x = x' ∧ y = y' := by
  constructor
  · refine BitVec.eq_of_getLsbD_eq fun j hj => ?_
    have := congrArg (fun v => v.getLsbD (j + n)) h
    simpa [BitVec.getLsbD_append] using this
  · refine BitVec.eq_of_getLsbD_eq fun j hj => ?_
    have := congrArg (fun v => v.getLsbD j) h
    simpa [BitVec.getLsbD_append, hj] using this

theorem append_eq_append_iff {m n : Nat} {x x' : BitVec m} {y y' : BitVec n} :
    x ++ y = x' ++ y' ↔ x = x' ∧ y = y' :=
  ⟨append_injective, fun ⟨h, h'⟩ => by rw [h, h']⟩

/-- A vector is its upper part beside its lower part. -/
theorem eq_append (m n : Nat) (w : BitVec (m + n)) : w = w.extractLsb' n m ++ w.extractLsb' 0 n := by
  refine BitVec.eq_of_getLsbD_eq fun j hj => ?_
  simp

theorem extractLsb'_extractLsb' {k : Nat} (w : BitVec k) (a b c d : Nat) (h : c + d ≤ b) :
    (w.extractLsb' a b).extractLsb' c d = w.extractLsb' (a + c) d := by
  refine BitVec.eq_of_getLsbD_eq fun j hj => ?_
  have h1 : c + j < b := by omega
  simp [hj, h1, Nat.add_assoc]

/-! ## Words as fields -/

theorem word_formatZ (w : CommandWord) : w = w.extractLsb' 56 8 ++ w.extractLsb' 0 56 := eq_append 8 56 w

theorem word_formatP (w : CommandWord) :
    w = w.extractLsb' 56 8 ++ w.extractLsb' 50 6 ++ w.extractLsb' 32 18 ++ w.extractLsb' 0 32 := by
  have h1 := eq_append 32 32 w
  have h2 := eq_append 14 18 (w.extractLsb' 32 32)
  have h3 := eq_append 8 6 ((w.extractLsb' 32 32).extractLsb' 18 14)
  rw [h3, extractLsb'_extractLsb' w 32 32 18 14 (by omega), extractLsb'_extractLsb' w 32 32 0 18 (by omega),
    extractLsb'_extractLsb' w _ 14 6 8 (by omega), extractLsb'_extractLsb' w _ 14 0 6 (by omega)] at h2
  rw [h2] at h1
  exact h1

theorem word_formatL (w : CommandWord) :
    w = w.extractLsb' 56 8 ++ w.extractLsb' 8 48 ++ w.extractLsb' 0 8 := by
  have h1 := eq_append 56 8 w
  have h2 := eq_append 8 48 (w.extractLsb' 8 56)
  rw [extractLsb'_extractLsb' w 8 56 48 8 (by omega), extractLsb'_extractLsb' w 8 56 0 48 (by omega)] at h2
  rw [h2] at h1
  exact h1

theorem word_formatM (w : CommandWord) :
    w = w.extractLsb' 56 8 ++ w.extractLsb' 41 15 ++ w.extractLsb' 32 9 ++ w.extractLsb' 16 16 ++
      w.extractLsb' 0 16 := by
  have h1 := eq_append 48 16 w
  have h2 := eq_append 32 16 (w.extractLsb' 16 48)
  have h3 := eq_append 23 9 ((w.extractLsb' 16 48).extractLsb' 16 32)
  have h4 := eq_append 8 15 (((w.extractLsb' 16 48).extractLsb' 16 32).extractLsb' 9 23)
  rw [h4] at h3
  rw [h3] at h2
  rw [extractLsb'_extractLsb' w 16 48 16 32 (by omega), extractLsb'_extractLsb' w 16 48 0 16 (by omega),
    extractLsb'_extractLsb' w _ 32 9 23 (by omega), extractLsb'_extractLsb' w _ 32 0 9 (by omega),
    extractLsb'_extractLsb' w _ 23 15 8 (by omega), extractLsb'_extractLsb' w _ 23 0 15 (by omega)] at h2
  rw [h2] at h1
  exact h1

/-! ## What each format's rows select -/

theorem and_maskZ (w : CommandWord) : w &&& maskZ = w := by
  have h : maskZ = BitVec.allOnes 64 := by decide
  rw [h, BitVec.and_allOnes]

/-- A Format Z row selects a word with its opcode and no reserved bit set (R71). -/
theorem selects_formatZ (w : CommandWord) (op : BitVec 8) :
    w &&& maskZ = (op ++ 0#56 : BitVec 64) ↔ w.extractLsb' 56 8 = op ∧ w.extractLsb' 0 56 = 0#56 := by
  rw [and_maskZ, ← append_eq_append_iff (m := 8) (n := 56), ← word_formatZ]

/-- A Format P row selects a word with its opcode and bits [49:32] 0 (R72). -/
theorem selects_formatP (w : CommandWord) (op : BitVec 8) :
    w &&& maskP = (op ++ 0#6 ++ 0#18 ++ 0#32 : BitVec 64) ↔
      w.extractLsb' 56 8 = op ∧ w.extractLsb' 32 18 = 0#18 := by
  have h : maskP = (BitVec.allOnes 8 ++ 0#6 ++ BitVec.allOnes 18 ++ 0#32 : BitVec 64) := by decide
  have e : w &&& maskP = (w.extractLsb' 56 8 ++ 0#6 ++ w.extractLsb' 32 18 ++ 0#32 : BitVec 64) := by
    conv_lhs => rw [word_formatP w, h]
    rw [BitVec.and_append, BitVec.and_append, BitVec.and_append]
    simp only [BitVec.and_allOnes, BitVec.and_zero]
  rw [e]
  refine ⟨fun h => ?_, fun ⟨h1, h2⟩ => by rw [h1, h2]⟩
  obtain ⟨h, -⟩ := append_injective (m := 32) (n := 32) h
  obtain ⟨h, h2⟩ := append_injective (m := 14) (n := 18) h
  exact ⟨(append_injective (m := 8) (n := 6) h).1, h2⟩

/-- A Format L row selects a word with its opcode and bits [55:8] 0 (R73). -/
theorem selects_formatL (w : CommandWord) (op : BitVec 8) :
    w &&& maskL = (op ++ 0#48 ++ 0#8 : BitVec 64) ↔ w.extractLsb' 56 8 = op ∧ w.extractLsb' 8 48 = 0#48 := by
  have h : maskL = (BitVec.allOnes 8 ++ BitVec.allOnes 48 ++ 0#8 : BitVec 64) := by decide
  have e : w &&& maskL = (w.extractLsb' 56 8 ++ w.extractLsb' 8 48 ++ 0#8 : BitVec 64) := by
    conv_lhs => rw [word_formatL w, h]
    rw [BitVec.and_append, BitVec.and_append]
    simp only [BitVec.and_allOnes, BitVec.and_zero]
  rw [e]
  refine ⟨fun h => ?_, fun ⟨h1, h2⟩ => by rw [h1, h2]⟩
  obtain ⟨h, -⟩ := append_injective (m := 56) (n := 8) h
  exact append_injective (m := 8) (n := 48) h

/-- A Format M row selects a word with its opcode and bits [55:41] and [31:16] 0 (R74). -/
theorem selects_formatM (w : CommandWord) (op : BitVec 8) :
    w &&& maskM = (op ++ 0#15 ++ 0#9 ++ 0#16 ++ 0#16 : BitVec 64) ↔
      w.extractLsb' 56 8 = op ∧ w.extractLsb' 41 15 = 0#15 ∧ w.extractLsb' 16 16 = 0#16 := by
  have h : maskM =
      (BitVec.allOnes 8 ++ BitVec.allOnes 15 ++ 0#9 ++ BitVec.allOnes 16 ++ 0#16 : BitVec 64) := by decide
  have e : w &&& maskM =
      (w.extractLsb' 56 8 ++ w.extractLsb' 41 15 ++ 0#9 ++ w.extractLsb' 16 16 ++ 0#16 : BitVec 64) := by
    conv_lhs => rw [word_formatM w, h]
    rw [BitVec.and_append, BitVec.and_append, BitVec.and_append, BitVec.and_append]
    simp only [BitVec.and_allOnes, BitVec.and_zero]
  rw [e]
  refine ⟨fun h => ?_, fun ⟨h1, h2, h3⟩ => by rw [h1, h2, h3]⟩
  obtain ⟨h, -⟩ := append_injective (m := 48) (n := 16) h
  obtain ⟨h, h3⟩ := append_injective (m := 32) (n := 16) h
  obtain ⟨h, -⟩ := append_injective (m := 23) (n := 9) h
  obtain ⟨h1, h2⟩ := append_injective (m := 8) (n := 15) h
  exact ⟨h1, h2, h3⟩

/-- The decoder in terms of fields (R70 to R74, R76): the opcode and the reserved bits of its format decide. -/
theorem decode_eq_fields (w : CommandWord) :
    decode w =
      if opcodeField w = 0x01#8 ∧ w.extractLsb' 0 56 = 0#56 then .ok .init
      else if opcodeField w = 0x10#8 ∧ w.extractLsb' 32 18 = 0#18 then
        .ok (.bpAddLsb (valueField w) (widthField w))
      else if opcodeField w = 0x11#8 ∧ w.extractLsb' 32 18 = 0#18 then
        .ok (.bpAddMsb (valueField w) (widthField w))
      else if opcodeField w = 0x12#8 ∧ w.extractLsb' 0 56 = 0#56 then .ok .bpFinish
      else if opcodeField w = 0x20#8 ∧ w.extractLsb' 0 56 = 0#56 then .ok .mfStep
      else if opcodeField w = 0x30#8 ∧ w.extractLsb' 0 56 = 0#56 then .ok .seHeader
      else if opcodeField w = 0x31#8 ∧ w.extractLsb' 8 48 = 0#48 then .ok (.seLiteral (litField w))
      else if opcodeField w = 0x32#8 ∧ w.extractLsb' 41 15 = 0#15 ∧ w.extractLsb' 16 16 = 0#16 then
        .ok (.seMatch (lengthField w) (distanceField w))
      else if opcodeField w = 0x33#8 ∧ w.extractLsb' 0 56 = 0#56 then .ok .seToken
      else if opcodeField w = 0x34#8 ∧ w.extractLsb' 0 56 = 0#56 then .ok .seEob
      else if opcodeField w = 0x40#8 ∧ w.extractLsb' 0 56 = 0#56 then .ok .compress
      else if assignedOpcodes.contains (opcodeField w) then .error .reservedBitSet
      else .error .unassignedOpcode := by
  unfold decode opcodeField
  simp only [← selects_formatZ, ← selects_formatP, ← selects_formatL, ← selects_formatM]
  rfl

/-! ## The fields of an encoded command -/

section Fields

variable (op : BitVec 8)

@[simp] theorem formatZ_opcode : opcodeField (formatZ op) = op :=
  BitVec.extractLsb'_append_eq_left (w := 8) (w' := 56)

@[simp] theorem formatZ_reserved : (formatZ op).extractLsb' 0 56 = 0#56 :=
  BitVec.extractLsb'_append_eq_right (w := 8) (w' := 56)

variable (value : Word) (n : Nat)

theorem formatP_fields :
    opcodeField (formatP op value n) = op ∧ (formatP op value n).extractLsb' 50 6 = BitVec.ofNat 6 n ∧
    (formatP op value n).extractLsb' 32 18 = 0#18 ∧ valueField (formatP op value n) = value := by
  have h := word_formatP (formatP op value n)
  unfold formatP at h ⊢
  obtain ⟨h, h4⟩ := append_injective h
  obtain ⟨h, h3⟩ := append_injective h
  obtain ⟨h1, h2⟩ := append_injective h
  exact ⟨h1.symm, h2.symm, h3.symm, h4.symm⟩

variable (lit : Byte)

theorem formatL_fields :
    opcodeField (formatL op lit) = op ∧ (formatL op lit).extractLsb' 8 48 = 0#48 ∧
    litField (formatL op lit) = lit := by
  have h := word_formatL (formatL op lit)
  unfold formatL at h ⊢
  obtain ⟨h, h3⟩ := append_injective h
  obtain ⟨h1, h2⟩ := append_injective h
  exact ⟨h1.symm, h2.symm, h3.symm⟩

variable (length distance : Nat)

theorem formatM_fields :
    opcodeField (formatM op length distance) = op ∧
    (formatM op length distance).extractLsb' 41 15 = 0#15 ∧
    (formatM op length distance).extractLsb' 32 9 = BitVec.ofNat 9 length ∧
    (formatM op length distance).extractLsb' 16 16 = 0#16 ∧
    (formatM op length distance).extractLsb' 0 16 = BitVec.ofNat 16 distance := by
  have h := word_formatM (formatM op length distance)
  unfold formatM at h ⊢
  obtain ⟨h, h5⟩ := append_injective h
  obtain ⟨h, h4⟩ := append_injective h
  obtain ⟨h, h3⟩ := append_injective h
  obtain ⟨h1, h2⟩ := append_injective h
  exact ⟨h1.symm, h2.symm, h3.symm, h4.symm, h5.symm⟩

end Fields

end Sys2Proof
end

