-- ==== Sys2Proof/Laws/Step.lean ====
section
/-! SUPPORT. What running a command, raising a fault, one access and one step can do, said once. -/

namespace Sys2Proof.Machine

/-! ## Raising a fault -/

theorem State.raise_of_fault {s : State} (h : s.fault = true) (c : Cause) (w : CommandWord) :
    s.raise c w = s := by simp [State.raise, h]

theorem State.raise_of_no_fault {s : State} (h : s.fault = false) (c : Cause) (w : CommandWord) :
    s.raise c w = s.enterFault c w := by simp [State.raise, h]

/-! ## Running a command (R16, R234) -/

theorem runCommand_of_fault {s : State} (h : s.fault = true) (w : CommandWord)
    (body : State → Except Stop State) : runCommand w body s = .next s := by simp [runCommand, h]

theorem runCommand_ok {s t : State} {body : State → Except Stop State} (h : s.fault = false)
    (hb : body s = .ok t) (w : CommandWord) : runCommand w body s = .next t := by
  simp [runCommand, h, hb]

theorem runCommand_raised {s : State} {body : State → Except Stop State} {c : Cause} (h : s.fault = false)
    (hb : body s = .error (.raised c)) (w : CommandWord) :
    runCommand w body s = .next (s.enterFault c w) := by
  simp [runCommand, h, hb, State.raise]

theorem runCommand_unwritten {s : State} {body : State → Except Stop State} (h : s.fault = false)
    (hb : body s = .error .unwrittenRead) (w : CommandWord) :
    runCommand w body s = .fault .unwrittenRead := by
  simp [runCommand, h, hb]

/-- Everything a command can do: nothing while `FAULT` = 1, its body's effect, or fault entry from the
state before it. -/
theorem runCommand_cases {s t : State} {body : State → Except Stop State} {w : CommandWord}
    (h : runCommand w body s = .next t) :
    (s.fault = true ∧ t = s) ∨ (s.fault = false ∧ body s = .ok t) ∨
    (s.fault = false ∧ ∃ c, body s = .error (.raised c) ∧ t = s.enterFault c w) := by
  cases hf : s.fault
  · cases hb : body s with
    | ok u => rw [runCommand_ok hf hb] at h; cases h; exact .inr (.inl ⟨rfl, rfl⟩)
    | error e =>
      cases e with
      | raised c =>
        rw [runCommand_raised hf hb] at h; cases h; exact .inr (.inr ⟨rfl, c, rfl, rfl⟩)
      | unwrittenRead => rw [runCommand_unwritten hf hb] at h; cases h
  · rw [runCommand_of_fault hf] at h; cases h; exact .inl ⟨rfl, rfl⟩

theorem runCommand_fault {s : State} {body : State → Except Stop State} {w : CommandWord} {f : Fault}
    (h : runCommand w body s = .fault f) : s.fault = false ∧ body s = .error .unwrittenRead := by
  cases hf : s.fault
  · cases hb : body s with
    | ok u => rw [runCommand_ok hf hb] at h; cases h
    | error e =>
      cases e with
      | raised c => rw [runCommand_raised hf hb] at h; cases h
      | unwrittenRead => exact ⟨rfl, rfl⟩
  · rw [runCommand_of_fault hf] at h; cases h

theorem runCommand_not_refused {s : State} {body : State → Except Stop State} {w : CommandWord} {r : Refusal} :
    runCommand w body s ≠ .refused r := by
  intro h
  unfold runCommand at h
  split at h
  · cases h
  · split at h <;> cases h

/-- The pseudocode of each command. -/
def bodyOf : Instr → State → Except Stop State
  | .init => fun s => .ok s.datapathInit
  | .bpAddLsb value n => bpAdd .lsbFirst value n
  | .bpAddMsb value n => bpAdd .msbFirst value n
  | .bpFinish => fun s => .ok s.finishBody
  | .mfStep => mfStep
  | .seHeader => fun s => s.emit headerCodes
  | .seLiteral lit => fun s => s.emit (codesLiteral lit)
  | .seMatch length distance => seMatch length distance
  | .seToken => seToken
  | .seEob => fun s => s.emit eobCodes
  | .compress => compress

/-- Every command is its pseudocode, run as one atomic step whose word is its encoding. -/
theorem exec_eq_runCommand (i : Instr) (s : State) : exec i s = runCommand (encode i) (bodyOf i) s := by
  cases i <;> rfl

/-- No command of the table is refused. -/
theorem exec_not_refused (i : Instr) (s : State) (r : Refusal) : exec i s ≠ .refused r := by
  rw [exec_eq_runCommand]; exact runCommand_not_refused

/-! ## One access and one step -/

/-- What a word at the command port can do. -/
theorem writeCommand_of_decode {w : CommandWord} {i : Instr} (h : decode w = .ok i) (s : State) :
    writeCommand w s = exec i s := by simp [writeCommand, h]

theorem writeCommand_of_illegal {w : CommandWord} {e : IllegalCommand} (h : decode w = .error e) (s : State) :
    writeCommand w s = .next (s.raise .illegalCmd w) := by simp [writeCommand, h]

/-- Everything a step can do. -/
theorem step_cases {s t : State} (h : step s = .next t) :
    s.cfg.wf = true ∧
      ((s.pending = [] ∧ t = s) ∨
        ∃ x rest, s.pending = x :: rest ∧ access x (s.withPending rest) = .next t) := by
  unfold step at h
  split at h
  · rename_i hwf
    refine ⟨hwf, ?_⟩
    split at h
    · cases h; exact .inl ⟨by assumption, rfl⟩
    · exact .inr ⟨_, _, by assumption, h⟩
  · cases h

end Sys2Proof.Machine
end

