-- ==== Sys2Proof/Laws/MatchFinder.lean ====
section
/-! SUPPORT. What the MatchFinder's functions do, said once: the extension (R138), the scan (R136, R137,
R139, R151) and one iteration (R133 to R135, R140, R141). -/

namespace Sys2Proof.Machine

variable {rd rd' : Nat → Option Byte}

/-! ## The extension -/

/-- What the loop of `extend` answers: it never passes the end of input, every byte it passed is equal, and
it stopped for one of its three reasons. -/
theorem extendFrom_spec {c i n room L R : Nat} (h : extendFrom rd c i n room L = some R) :
    L ≤ R ∧ R ≤ L + room ∧ (i + L ≤ n → i + R ≤ n) ∧
    (∀ k, L ≤ k → k < R → rd (c + k) = rd (i + k) ∧ (rd (i + k)).isSome = true) ∧
    (R = L + room ∨ n ≤ i + R ∨ ∃ x y, rd (c + R) = some x ∧ rd (i + R) = some y ∧ x ≠ y) := by
  induction room generalizing L with
  | zero =>
    simp only [extendFrom, Option.some.injEq] at h
    subst h
    exact ⟨le_refl _, le_refl _, id, fun k h1 h2 => by omega, .inl rfl⟩
  | succ room ih =>
    simp only [extendFrom] at h
    split at h
    · rename_i hn
      split at h
      · rename_i x y hx hy
        split at h
        · rename_i hxy
          subst hxy
          obtain ⟨h1, h2, h3, h4, h5⟩ := ih h
          refine ⟨by omega, by omega, fun _ => h3 (by omega), fun k hk1 hk2 => ?_, ?_⟩
          · by_cases hk : k = L
            · subst hk; simp [hx, hy]
            · exact h4 k (by omega) hk2
          · rcases h5 with h5 | h5 | h5
            · exact .inl (by omega)
            · exact .inr (.inl h5)
            · exact .inr (.inr h5)
        · rename_i hxy
          cases h
          exact ⟨le_refl _, by omega, id, fun k h1 h2 => by omega, .inr (.inr ⟨x, y, hx, hy, hxy⟩)⟩
      · cases h
    · cases h
      exact ⟨le_refl _, by omega, id, fun k h1 h2 => by omega, .inr (.inl (by omega))⟩

/-- With every input byte written, the loop answers for a candidate that is not past the position. -/
theorem extendFrom_isSome {c i n : Nat} (hr : ∀ j, j < n → (rd j).isSome = true) (hc : c ≤ i) (room L : Nat) :
    (extendFrom rd c i n room L).isSome = true := by
  induction room generalizing L with
  | zero => rfl
  | succ room ih =>
    simp only [extendFrom]
    split
    · rename_i hn
      obtain ⟨x, hx⟩ := Option.isSome_iff_exists.1 (hr (c + L) (by omega))
      obtain ⟨y, hy⟩ := Option.isSome_iff_exists.1 (hr (i + L) hn)
      rw [hx, hy]
      simp only
      split
      · exact ih _
      · rfl
    · rfl

/-- The loop reads only bytes of the input. -/
theorem extendFrom_congr {c i n : Nat} (hr : ∀ j, j < n → rd j = rd' j) (hc : c ≤ i) (room L : Nat) :
    extendFrom rd c i n room L = extendFrom rd' c i n room L := by
  induction room generalizing L with
  | zero => rfl
  | succ room ih =>
    simp only [extendFrom]
    split
    · rename_i hn
      rw [hr (c + L) (by omega), hr (i + L) hn, ih]
    · rfl

/-- What `extend` answers (R138). -/
theorem extend_spec {c i n L : Nat} (h : extend rd c i n = some L) :
    minMatch ≤ L ∧ L ≤ maxMatch ∧ (i + minMatch ≤ n → i + L ≤ n) ∧
    (∀ k, minMatch ≤ k → k < L → rd (c + k) = rd (i + k) ∧ (rd (i + k)).isSome = true) ∧
    (L = maxMatch ∨ n ≤ i + L ∨ ∃ x y, rd (c + L) = some x ∧ rd (i + L) = some y ∧ x ≠ y) := by
  have h' := extendFrom_spec h
  have e : minMatch + (maxMatch - minMatch) = maxMatch := rfl
  rwa [e] at h'

theorem extend_isSome {c i n : Nat} (hr : ∀ j, j < n → (rd j).isSome = true) (hc : c ≤ i) :
    (extend rd c i n).isSome = true := extendFrom_isSome hr hc _ _

theorem extend_congr {c i n : Nat} (hr : ∀ j, j < n → rd j = rd' j) (hc : c ≤ i) :
    extend rd c i n = extend rd' c i n := extendFrom_congr hr hc _ _

/-! ## The scan -/

/-- What the scan answers, for candidates from most recent to oldest: the best it started from, or a candidate
within the window that is longer than every more recent one; and no candidate within the window is longer. -/
theorem scan_spec {i n : Nat} {cs : List Nat} {best r : Nat × Nat} (hs : cs.Pairwise (· > ·))
    (h : scan rd i n cs best = some r) :
    best.1 ≤ r.1 ∧
    (r = best ∨ ∃ c ∈ cs, i - c ≤ window ∧ extend rd c i n = some r.1 ∧ r.2 = i - c ∧ best.1 < r.1 ∧
      ∀ c' ∈ cs, c < c' → ∀ L', extend rd c' i n = some L' → L' < r.1) ∧
    (best.1 ≤ maxMatch → ∀ c ∈ cs, i - c ≤ window → ∀ L', extend rd c i n = some L' → L' ≤ r.1) := by
  induction cs generalizing best with
  | nil =>
    simp only [scan, Option.some.injEq] at h
    subst h
    exact ⟨le_refl _, .inl rfl, by simp⟩
  | cons c older ih =>
    obtain ⟨hc, hs'⟩ := List.pairwise_cons.1 hs
    simp only [scan] at h
    split at h
    · rename_i hw
      cases h
      refine ⟨le_refl _, .inl rfl, fun _ c' hc' hw' => ?_⟩
      rcases List.mem_cons.1 hc' with e | hm
      · subst e; omega
      · have := hc c' hm; omega
    · rename_i hw
      split at h
      · cases h
      · rename_i L hL
        have hLm := (extend_spec hL).2.1
        have hbest : ∀ b' : Nat × Nat, b' = (if best.1 < L then (L, i - c) else best) →
            best.1 ≤ b'.1 ∧ L ≤ b'.1 ∧ (best.1 ≤ maxMatch → b'.1 ≤ maxMatch) ∧
            (b' = best ∨ (b' = (L, i - c) ∧ best.1 < L)) := by
          rintro b' rfl
          by_cases hlt : best.1 < L
          · simp [hlt]; omega
          · simp [hlt]; omega
        obtain ⟨hb1, hb2, hb3, hb4⟩ := hbest _ rfl
        generalize hb : (if best.1 < L then (L, i - c) else best) = b' at h hb1 hb2 hb3 hb4
        split at h
        · rename_i hmax
          cases h
          refine ⟨hb1, ?_, fun hm c' hc' _ L' hL' => ?_⟩
          · rcases hb4 with e | ⟨e, hlt⟩
            · exact .inl e
            · refine .inr ⟨c, List.mem_cons_self, by omega, by rw [hL, e], by rw [e], by rw [e]; exact hlt, ?_⟩
              intro c' hc' hlt'
              rcases List.mem_cons.1 hc' with e' | hm
              · omega
              · have := hc c' hm; omega
          · have := (extend_spec hL').2.1; omega
        · obtain ⟨h1, h2, h3⟩ := ih hs' h
          refine ⟨by omega, ?_, fun hm c' hc' hw' L' hL' => ?_⟩
          · rcases h2 with e | ⟨d, hd, hdw, hde, hd2, hd3, hd4⟩
            · rcases hb4 with e' | ⟨e', hlt⟩
              · exact .inl (e.trans e')
              · refine .inr ⟨c, List.mem_cons_self, by omega, by rw [e, e', hL], by rw [e, e'], by rw [e, e']; exact hlt, ?_⟩
                intro c' hc' hlt'
                rcases List.mem_cons.1 hc' with e'' | hm'
                · omega
                · have := hc c' hm'; omega
            · refine .inr ⟨d, List.mem_cons_of_mem _ hd, hdw, hde, hd2, by omega, ?_⟩
              intro c' hc' hlt' L' hL'
              rcases List.mem_cons.1 hc' with e'' | hm'
              · subst e''
                rw [hL] at hL'
                cases hL'
                omega
              · exact hd4 c' hm' hlt' L' hL'
          · rcases List.mem_cons.1 hc' with e'' | hm'
            · subst e''
              rw [hL] at hL'
              cases hL'
              omega
            · exact h3 (hb3 hm) c' hm' hw' L' hL'

/-- With every input byte written, the scan of earlier positions answers. -/
theorem scan_isSome {i n : Nat} (hr : ∀ j, j < n → (rd j).isSome = true) {cs : List Nat}
    (hc : ∀ c ∈ cs, c ≤ i) (best : Nat × Nat) : (scan rd i n cs best).isSome = true := by
  induction cs generalizing best with
  | nil => rfl
  | cons c older ih =>
    obtain ⟨L, hL⟩ := Option.isSome_iff_exists.1 (extend_isSome (i := i) (n := n) hr (hc c List.mem_cons_self))
    simp only [scan, hL]
    split
    · rfl
    · split
      · rfl
      · exact ih (fun c' h => hc c' (List.mem_cons_of_mem _ h)) _

/-- The scan reads only bytes of the input. -/
theorem scan_congr {i n : Nat} (hr : ∀ j, j < n → rd j = rd' j) {cs : List Nat} (hc : ∀ c ∈ cs, c ≤ i)
    (best : Nat × Nat) : scan rd i n cs best = scan rd' i n cs best := by
  induction cs generalizing best with
  | nil => rfl
  | cons c older ih =>
    simp only [scan, extend_congr hr (hc c List.mem_cons_self)]
    split
    · rfl
    · split
      · rfl
      · split
        · rfl
        · exact ih (fun c' h => hc c' (List.mem_cons_of_mem _ h)) _

/-! ## The key -/

theorem keyAt_eq_some {i : Nat} {k : Key} (h : keyAt rd i = some k) :
    ∃ b0 b1 b2, rd i = some b0 ∧ rd (i + 1) = some b1 ∧ rd (i + 2) = some b2 ∧ k = b0 ++ b1 ++ b2 := by
  unfold keyAt at h
  split at h
  · rename_i b0 b1 b2 h0 h1 h2
    cases h
    exact ⟨b0, b1, b2, h0, h1, h2, rfl⟩
  · cases h

theorem keyAt_congr {i n : Nat} (hr : ∀ j, j < n → rd j = rd' j) (h : i + 3 ≤ n) : keyAt rd i = keyAt rd' i := by
  unfold keyAt
  rw [hr i (by omega), hr (i + 1) (by omega), hr (i + 2) (by omega)]

theorem keyAt_isSome {i n : Nat} (hr : ∀ j, j < n → (rd j).isSome = true) (h : i + 3 ≤ n) :
    (keyAt rd i).isSome = true := by
  obtain ⟨b0, h0⟩ := Option.isSome_iff_exists.1 (hr i (by omega))
  obtain ⟨b1, h1⟩ := Option.isSome_iff_exists.1 (hr (i + 1) (by omega))
  obtain ⟨b2, h2⟩ := Option.isSome_iff_exists.1 (hr (i + 2) (by omega))
  simp [keyAt, h0, h1, h2]

/-- Keys are compared exactly (R27): positions with the same key have the same three bytes. -/
theorem bytes_eq_of_keyAt_eq {i j : Nat} {k : Key} (hi : keyAt rd i = some k) (hj : keyAt rd j = some k) (m : Nat)
    (hm : m < 3) : rd (i + m) = rd (j + m) ∧ (rd (i + m)).isSome = true := by
  obtain ⟨a0, a1, a2, h0, h1, h2, ea⟩ := keyAt_eq_some hi
  obtain ⟨b0, b1, b2, g0, g1, g2, eb⟩ := keyAt_eq_some hj
  have e := ea.symm.trans eb
  obtain ⟨e01, e2⟩ := append_injective e
  obtain ⟨e0, e1⟩ := append_injective e01
  subst e0 e1 e2
  interval_cases m
  · simp [h0, g0]
  · simp [h1, g1]
  · simp [h2, g2]

/-! ## One iteration -/

/-- Everything one iteration can do (R133, R134, R135, R140, R141). -/
theorem iterate_cases {n i : Nat} {pt : PrefixTable} {r : Option Token × PrefixTable}
    (h : iterate rd n i pt = some r) :
    (n ≤ i ∧ r = (none, pt)) ∨
    (i < n ∧ n < i + minMatch ∧ ∃ b, rd i = some b ∧ r = (some (.literal b), pt)) ∨
    (i + minMatch ≤ n ∧ ∃ k b best, keyAt rd i = some k ∧ rd i = some b ∧
      scan rd i n (PrefixTable.positions pt k).reverse (0, 0) = some best ∧
      r = (some (if minMatch ≤ best.1 then .copy best.1 best.2 else .literal b),
        PrefixTable.register pt k i)) := by
  unfold iterate at h
  split at h
  · cases h; exact .inl ⟨by assumption, rfl⟩
  · split at h
    · split at h
      · cases h; exact .inr (.inl ⟨by omega, by omega, _, by assumption, rfl⟩)
      · cases h
    · split at h
      · split at h
        · cases h; exact .inr (.inr ⟨by omega, _, _, _, by assumption, by assumption, by assumption, rfl⟩)
        · cases h
      · cases h

/-- With every input byte written, an iteration over earlier positions answers. -/
theorem iterate_isSome {n i : Nat} {pt : PrefixTable} (hr : ∀ j, j < n → (rd j).isSome = true)
    (hp : ∀ k, ∀ p ∈ PrefixTable.positions pt k, p ≤ i) : (iterate rd n i pt).isSome = true := by
  unfold iterate
  split
  · rfl
  · rename_i hin
    obtain ⟨b, hb⟩ := Option.isSome_iff_exists.1 (hr i (by omega))
    split
    · rw [hb]; rfl
    · rename_i h3
      have h3' : i + 3 ≤ n := by unfold minMatch at h3; omega
      obtain ⟨k, hk⟩ := Option.isSome_iff_exists.1 (keyAt_isSome hr h3')
      obtain ⟨best, hs⟩ := Option.isSome_iff_exists.1
        (scan_isSome (i := i) hr (cs := (PrefixTable.positions pt k).reverse)
          (fun c hc => hp k c (List.mem_reverse.1 hc)) (0, 0))
      simp [hk, hb, hs]

/-- An iteration reads only bytes of the input (R55). -/
theorem iterate_congr {n i : Nat} {pt : PrefixTable} (hr : ∀ j, j < n → rd j = rd' j)
    (hp : ∀ k, ∀ p ∈ PrefixTable.positions pt k, p ≤ i) : iterate rd n i pt = iterate rd' n i pt := by
  unfold iterate
  split
  · rfl
  · rename_i hin
    rw [hr i (by omega)]
    split
    · rfl
    · rename_i h3
      have h3' : i + 3 ≤ n := by unfold minMatch at h3; omega
      rw [keyAt_congr hr h3']
      cases hk : keyAt rd' i with
      | none => rfl
      | some k =>
        cases rd' i with
        | none => rfl
        | some b =>
          simp only
          rw [scan_congr hr (fun c hc => hp k c (List.mem_reverse.1 hc))]

/-- The iteration stops when the byte at the cursor is missing (R131). -/
theorem iterate_none_of_byte {n i : Nat} (hi : i < n) (h : rd i = none) (pt : PrefixTable) :
    iterate rd n i pt = none := by
  unfold iterate
  rw [if_neg (by omega), h]
  split
  · rfl
  · cases keyAt rd i <;> rfl

/-- The iteration stops when a byte of the key is missing (R131). -/
theorem iterate_none_of_key {n i j : Nat} (hi : i + 3 ≤ n) (hj : j < 3) (h : rd (i + j) = none)
    (pt : PrefixTable) : iterate rd n i pt = none := by
  have hk : keyAt rd i = none := by
    cases hk : keyAt rd i with
    | none => rfl
    | some k =>
      obtain ⟨b0, b1, b2, h0, h1, h2, -⟩ := keyAt_eq_some hk
      interval_cases j <;> simp_all
  unfold iterate
  rw [if_neg (by omega), if_neg (by simp only [minMatch]; omega), hk]

/-! ## MF_STEP (R144) -/

/-- Everything the body of MF_STEP can do. -/
theorem mfStepBody_cases (s : State) :
    (iterate s.inByte s.inLen.toNat s.mfPos.toNat s.pt = none ∧ mfStepBody s = .error .unwrittenRead) ∨
    (∃ p, iterate s.inByte s.inLen.toNat s.mfPos.toNat s.pt = some (none, p) ∧ mfStepBody s = .ok s.noToken) ∨
    (∃ t p, iterate s.inByte s.inLen.toNat s.mfPos.toNat s.pt = some (some t, p) ∧
      mfStepBody s = .ok (s.produce t p)) := by
  unfold mfStepBody
  split
  · exact .inl ⟨by assumption, rfl⟩
  · exact .inr (.inl ⟨_, by assumption, rfl⟩)
  · exact .inr (.inr ⟨_, _, by assumption, rfl⟩)

theorem checkInLen_ok {s : State} (h : s.inLen.toNat ≤ s.cfg.inCap.toNat) : checkInLen s = .ok () := by
  have : ¬ s.cfg.inCap < s.inLen := by rw [BitVec.lt_def]; omega
  simp [checkInLen, this]

theorem checkInLen_bad {s : State} (h : s.cfg.inCap.toNat < s.inLen.toNat) :
    checkInLen s = .error (.raised .badInLen) := by
  have : s.cfg.inCap < s.inLen := by rw [BitVec.lt_def]; omega
  simp [checkInLen, this]

theorem mfStep_ok {s : State} (h : s.inLen.toNat ≤ s.cfg.inCap.toNat) : mfStep s = mfStepBody s := by
  simp [mfStep, checkInLen_ok h]

theorem mfStep_bad {s : State} (h : s.cfg.inCap.toNat < s.inLen.toNat) :
    mfStep s = .error (.raised .badInLen) := by simp [mfStep, checkInLen_bad h]

end Sys2Proof.Machine
end

