-- ==== Sys2Proof/Laws/SymbolEncoder.lean ====
section
/-! SUPPORT. What the SymbolEncoder's lookup and codes are, said once (R172 to R179). -/

namespace Sys2Proof.Machine

/-- The lookup in a table whose starts rise, from a first row whose start is at most the value: a row of the
table, the last whose start is at most the value (R172). -/
theorem lookupFrom_spec {first : TableRow} {table : List TableRow} {v : Nat}
    (hs : (first :: table).Pairwise fun r r' => r.start ≤ r'.start) (h : first.start ≤ v) :
    lookupFrom first table v ∈ first :: table ∧ (lookupFrom first table v).start ≤ v ∧
      ∀ r ∈ first :: table, r.start ≤ v → r.start ≤ (lookupFrom first table v).start := by
  induction table generalizing first with
  | nil => exact ⟨List.mem_cons_self, h, fun r hr _ => by rw [List.mem_singleton.1 hr]; exact le_refl _⟩
  | cons d rest ih =>
    obtain ⟨h1, h2⟩ := List.pairwise_cons.1 hs
    have e : lookupFrom first (d :: rest) v = lookupFrom (if d.start ≤ v then d else first) rest v := rfl
    rw [e]
    by_cases hd : d.start ≤ v
    · rw [if_pos hd]
      obtain ⟨g1, g2, g3⟩ := ih h2 hd
      refine ⟨List.mem_cons_of_mem _ g1, g2, fun r hr hv => ?_⟩
      rcases List.mem_cons.1 hr with e | hr
      · rw [e]; exact le_trans (h1 d List.mem_cons_self) (g3 d List.mem_cons_self hd)
      · exact g3 r hr hv
    · rw [if_neg hd]
      obtain ⟨g1, g2, g3⟩ := ih (List.pairwise_cons.2 ⟨fun r hr => h1 r (List.mem_cons_of_mem _ hr),
        (List.pairwise_cons.1 h2).2⟩) h
      refine ⟨?_, g2, fun r hr hv => ?_⟩
      · rcases List.mem_cons.1 g1 with e | g1
        · rw [e]; exact List.mem_cons_self
        · exact List.mem_cons_of_mem _ (List.mem_cons_of_mem _ g1)
      · rcases List.mem_cons.1 hr with e | hr
        · exact g3 r (e ▸ List.mem_cons_self) hv
        · rcases List.mem_cons.1 hr with e | hr
          · exact absurd (e ▸ hv) hd
          · exact g3 r (List.mem_cons_of_mem _ hr) hv

/-- The row of a legal length: in the table, and the last whose start is at most the length. -/
theorem lengthRow_spec {length : Nat} (h : 3 ≤ length) :
    lengthRow length ∈ lengthTable ∧ (lengthRow length).start ≤ length ∧
      ∀ r ∈ lengthTable, r.start ≤ length → r.start ≤ (lengthRow length).start := by
  obtain ⟨h1, h2, h3⟩ := lookupFrom_spec (first := ⟨257, 0, 3⟩) (table := lengthTable) (by decide) h
  refine ⟨?_, h2, fun r hr => h3 r (List.mem_cons_of_mem _ hr)⟩
  rcases List.mem_cons.1 h1 with e | h1
  · unfold lengthRow; rw [e]; decide
  · exact h1

/-- The row of a legal distance: in the table, and the last whose start is at most the distance. -/
theorem distanceRow_spec {distance : Nat} (h : 1 ≤ distance) :
    distanceRow distance ∈ distanceTable ∧ (distanceRow distance).start ≤ distance ∧
      ∀ r ∈ distanceTable, r.start ≤ distance → r.start ≤ (distanceRow distance).start := by
  obtain ⟨h1, h2, h3⟩ := lookupFrom_spec (first := ⟨0, 0, 1⟩) (table := distanceTable) (by decide) h
  refine ⟨?_, h2, fun r hr => h3 r (List.mem_cons_of_mem _ hr)⟩
  rcases List.mem_cons.1 h1 with e | h1
  · unfold distanceRow; rw [e]; decide
  · exact h1

theorem codesWidth_append (cs ds : List Code) : codesWidth (cs ++ ds) = codesWidth cs + codesWidth ds := by
  simp [codesWidth]

@[simp] theorem codesWidth_extraCodes (row : TableRow) (v : Nat) : codesWidth (extraCodes row v) = row.extra := by
  unfold extraCodes
  split
  · simp [codesWidth]
  · simp [codesWidth]; omega

/-- The extra bits of a value in its row, none for a row without extra bits (R178). -/
@[simp] theorem codesBits_extraCodes (row : TableRow) (v : Nat) :
    codesBits (extraCodes row v) = bitsLsbFirst (v - row.start) row.extra := by
  unfold extraCodes
  split
  · simp [codesBits, Code.bits]
  · have : row.extra = 0 := by omega
    rw [this]; rfl

/-- Every Token places at least one bit. -/
theorem codesWidth_token_pos (t : Token) : 0 < codesWidth (codesToken t) := by
  cases t with
  | literal b =>
    show 0 < codesWidth (codesLiteral b)
    unfold codesLiteral
    split <;> simp [codesWidth]
  | copy l d => simp [codesToken, codesMatch, codesWidth, huffDistance]

end Sys2Proof.Machine
end

