-- ==== Sys2Proof/Laws/Commands.lean ====
section
/-! SUPPORT. What the body of each command and each access of the host can do, said once: inversion lemmas
that the proofs cite instead of unfolding a body. -/

namespace Sys2Proof.Machine

/-- What no command's body writes: the input, the fault registers, the capacities and the host's side. -/
structure State.SameOutside (s t : State) : Prop where
  cfg : t.cfg = s.cfg
  inMem : t.inMem = s.inMem
  inWritten : t.inWritten = s.inWritten
  inLen : t.inLen = s.inLen
  fault : t.fault = s.fault
  cause : t.cause = s.cause
  faultCmd : t.faultCmd = s.faultCmd
  pending : t.pending = s.pending
  replies : t.replies = s.replies
  draws : t.draws = s.draws

namespace State.SameOutside

theorem refl (s : State) : State.SameOutside s s := ⟨rfl, rfl, rfl, rfl, rfl, rfl, rfl, rfl, rfl, rfl⟩

theorem trans {s t u : State} (h : State.SameOutside s t) (g : State.SameOutside t u) : State.SameOutside s u :=
  ⟨g.cfg.trans h.cfg, g.inMem.trans h.inMem, g.inWritten.trans h.inWritten, g.inLen.trans h.inLen,
    g.fault.trans h.fault, g.cause.trans h.cause, g.faultCmd.trans h.faultCmd, g.pending.trans h.pending,
    g.replies.trans h.replies, g.draws.trans h.draws⟩

/-- The input bytes are the same. -/
theorem inByte {s t : State} (h : State.SameOutside s t) : t.inByte = s.inByte :=
  State.inByte_congr h.inMem h.inWritten

end State.SameOutside

theorem State.putBits_outside (s : State) (bits : List Bool) : State.SameOutside s (s.putBits bits) := by
  constructor <;> simp

theorem State.emit_outside {s t : State} {cs : List Code} (h : s.emit cs = .ok t) : State.SameOutside s t := by
  rw [(State.emit_ok h).2]; exact s.putBits_outside _

theorem State.finishBody_outside (s : State) : State.SameOutside s s.finishBody := by constructor <;> simp

theorem State.produce_outside (s : State) (tk : Token) (pt : PrefixTable) :
    State.SameOutside s (s.produce tk pt) := ⟨rfl, rfl, rfl, rfl, rfl, rfl, rfl, rfl, rfl, rfl⟩

theorem State.noToken_outside (s : State) : State.SameOutside s s.noToken :=
  ⟨rfl, rfl, rfl, rfl, rfl, rfl, rfl, rfl, rfl, rfl⟩

theorem State.datapathInit_outside (s : State) : State.SameOutside s s.datapathInit :=
  ⟨rfl, rfl, rfl, rfl, rfl, rfl, rfl, rfl, rfl, rfl⟩

theorem State.discardMatchFinder_outside (s : State) : State.SameOutside s s.discardMatchFinder :=
  ⟨rfl, rfl, rfl, rfl, rfl, rfl, rfl, rfl, rfl, rfl⟩

/-! ## What each body does when it completes -/

theorem bpAdd_ok {order : BitOrder} {value : Word} {n : Nat} {s t : State}
    (h : bpAdd order value n s = .ok t) : n ≤ 32 ∧ s.emit [⟨value.toNat, n, order⟩] = .ok t := by
  unfold bpAdd at h
  split at h
  · rename_i hn; exact ⟨(legalWidth_iff n).1 hn, h⟩
  · cases h

theorem seMatch_ok {length distance : Nat} {s t : State} (h : seMatch length distance s = .ok t) :
    legalLength length = true ∧ legalDistance distance = true ∧ s.emit (codesMatch length distance) = .ok t := by
  unfold seMatch at h
  split at h
  · split at h
    · exact ⟨by assumption, by assumption, h⟩
    · cases h
  · cases h

theorem seToken_ok {s t : State} (h : seToken s = .ok t) :
    (s.tokenValid = true ∧ s.emit (codesToken (tokenOfWord s.token)) = .ok t) ∨
    (s.tokenValid = false ∧ t = s) := by
  unfold seToken at h
  split at h
  · exact .inl ⟨by assumption, h⟩
  · rename_i hv
    cases h
    exact .inr ⟨by simpa using hv, rfl⟩

theorem mfStep_ok_inv {s t : State} (h : mfStep s = .ok t) :
    s.inLen.toNat ≤ s.cfg.inCap.toNat ∧ mfStepBody s = .ok t := by
  rcases Nat.lt_or_ge s.cfg.inCap.toNat s.inLen.toNat with hl | hl
  · rw [mfStep_bad hl] at h; cases h
  · rw [mfStep_ok hl] at h; exact ⟨hl, h⟩

theorem mfStepBody_ok {s t : State} (h : mfStepBody s = .ok t) :
    t = s.noToken ∨ ∃ tk pt, t = s.produce tk pt ∧
      iterate s.inByte s.inLen.toNat s.mfPos.toNat s.pt = some (some tk, pt) := by
  rcases mfStepBody_cases s with ⟨-, e⟩ | ⟨p, -, e⟩ | ⟨tk, p, e', e⟩ <;> rw [e] at h <;> cases h
  · exact .inl rfl
  · exact .inr ⟨tk, p, rfl, e'⟩

theorem compress_ok {s w : State} (h : compress s = .ok w) :
    s.inLen.toNat ≤ s.cfg.inCap.toNat ∧ ∃ t u v,
      s.datapathInit.emit headerCodes = .ok t ∧ compressLoop (s.inLen.toNat + 1) t = .ok u ∧
      u.emit eobCodes = .ok v ∧ w = v.finishBody.discardMatchFinder := by
  unfold compress at h
  rcases Nat.lt_or_ge s.cfg.inCap.toNat s.inLen.toNat with hl | hl
  · rw [checkInLen_bad hl] at h; cases h
  · rw [checkInLen_ok hl] at h
    refine ⟨hl, ?_⟩
    simp only [compressBody] at h
    split at h
    · cases h
    · split at h
      · cases h
      · split at h
        · cases h
        · cases h; exact ⟨_, _, _, by assumption, by assumption, by assumption, rfl⟩

theorem mfStepBody_outside {s t : State} (h : mfStepBody s = .ok t) : State.SameOutside s t := by
  rcases mfStepBody_ok h with rfl | ⟨tk, pt, rfl, -⟩
  · exact s.noToken_outside
  · exact s.produce_outside _ _

theorem compressLoop_outside {fuel : Nat} {s t : State} (h : compressLoop fuel s = .ok t) :
    State.SameOutside s t := by
  induction fuel generalizing s with
  | zero => cases h; exact .refl _
  | succ fuel ih =>
    simp only [compressLoop] at h
    split at h
    · cases h
    · rename_i u hu
      split at h
      · split at h
        · cases h
        · rename_i v hv
          exact (mfStepBody_outside hu).trans ((State.emit_outside hv).trans (ih h))
      · cases h; exact mfStepBody_outside hu

/-! ## What each access does -/

/-- Everything one access can do to the state, by kind of access. -/
inductive AccessEffect (s t : State) : HostAccess → Prop where
  /-- A legal command's body. -/
  | body (w : CommandWord) (i : Instr) (hd : decode w = .ok i) (hf : s.fault = false)
      (hb : bodyOf i s = .ok t) : AccessEffect s t (.command w)
  /-- Nothing. -/
  | same (x : HostAccess) (h : t = s) : AccessEffect s t x
  /-- Fault entry. -/
  | raised (x : HostAccess) (c : Cause) (w : CommandWord) (hf : s.fault = false)
      (h : t = s.enterFault c w) : AccessEffect s t x
  /-- Reset. -/
  | reset (h : t = s.resetBlock) : AccessEffect s t .reset
  /-- A read's answer. -/
  | reply (x : HostAccess) (rs : List HostReply) (d : Nat) (h : t = { s with replies := rs, draws := d }) :
      AccessEffect s t x
  /-- A byte of `IN`. -/
  | storeIn (a : Nat) (b : Byte) (hl : s.inLock = false) (ha : a < s.cfg.inCap.toNat)
      (h : t = s.storeIn a b) : AccessEffect s t (.writeIn a b)
  /-- `IN_LEN`. -/
  | storeInLen (v : Word) (hl : s.inLock = false) (h : t = s.withInLen v) :
      AccessEffect s t (.writeReg 3#4 v)

theorem access_effect_of_raise {x : HostAccess} {c : Cause} {w : CommandWord} {s t : State}
    (h : t = s.raise c w) : AccessEffect s t x := by
  cases hf : s.fault
  · rw [State.raise_of_no_fault hf] at h; exact .raised _ c w hf h
  · rw [State.raise_of_fault hf] at h; exact .same _ h

theorem access_effect {x : HostAccess} {s t : State} (h : access x s = .next t) : AccessEffect s t x := by
  cases x with
  | command w =>
    simp only [access, writeCommand] at h
    split at h
    · rename_i i hd
      rw [exec_eq_runCommand] at h
      rcases runCommand_cases h with ⟨-, rfl⟩ | ⟨hf, hb⟩ | ⟨hf, c, -, rfl⟩
      · exact .same _ rfl
      · exact .body w i hd hf hb
      · exact .raised _ c _ hf rfl
    · cases h; exact access_effect_of_raise rfl
  | writeIn a b =>
    simp only [access, hostWriteIn] at h
    cases h
    split
    · exact .same _ rfl
    · split
      · exact access_effect_of_raise rfl
      · exact .storeIn a b (by simp_all) (by omega) rfl
  | readIn a =>
    simp only [access, hostReadIn, hostReadByte] at h
    cases h
    split
    · exact .reply _ _ _ rfl
    · split <;> exact .reply _ _ _ rfl
  | readOut a =>
    simp only [access, hostReadOut, hostReadByte] at h
    cases h
    split
    · exact .reply _ _ _ rfl
    · split <;> exact .reply _ _ _ rfl
  | writeOut a b => cases h; exact .same _ rfl
  | writeReg r v =>
    simp only [access, hostWriteReg, State.writeRegister] at h
    cases h
    split
    · rename_i h3
      subst h3
      split
      · exact access_effect_of_raise rfl
      · exact .storeInLen v (by simp_all) rfl
    · exact .same _ rfl
  | readReg r => cases h; exact .reply _ _ _ rfl
  | reset => cases h; exact .reset rfl

end Sys2Proof.Machine
end

