-- ==== Sys2Proof/Laws/PerInstr.lean ====
section
/-! SUPPORT. Families of statements made for each command: a well-formed command is read back from its
encoding (R71 to R76). -/

namespace Sys2Proof.Laws.Encoding

/-- The encoding of a well-formed command decodes to it. -/
def Statement (i : Instr) : Prop := i.wf = true → decode (encode i) = .ok i

theorem init : Statement .init := fun _ => by decide

theorem bpAddLsb (value : Word) (n : Nat) : Statement (.bpAddLsb value n) := fun h => by
  obtain ⟨h1, h2, h3, h4⟩ := formatP_fields 0x10#8 value n
  have hn : n < 2 ^ 6 := by simpa [Instr.wf] using h
  simp [encode, decode_eq_fields, h1, h2, h3, h4, widthField]; omega

theorem bpAddMsb (value : Word) (n : Nat) : Statement (.bpAddMsb value n) := fun h => by
  obtain ⟨h1, h2, h3, h4⟩ := formatP_fields 0x11#8 value n
  have hn : n < 2 ^ 6 := by simpa [Instr.wf] using h
  simp [encode, decode_eq_fields, h1, h2, h3, h4, widthField]; omega

theorem bpFinish : Statement .bpFinish := fun _ => by decide

theorem mfStep : Statement .mfStep := fun _ => by decide

theorem seHeader : Statement .seHeader := fun _ => by decide

theorem seLiteral (lit : Byte) : Statement (.seLiteral lit) := fun _ => by
  obtain ⟨h1, h2, h3⟩ := formatL_fields 0x31#8 lit
  simp [encode, decode_eq_fields, h1, h2, h3]

theorem seMatch (length distance : Nat) : Statement (.seMatch length distance) := fun h => by
  obtain ⟨h1, h2, h3, h4, h5⟩ := formatM_fields 0x32#8 length distance
  have hl : length < 2 ^ 9 ∧ distance < 2 ^ 16 := by simpa [Instr.wf] using h
  simp [encode, decode_eq_fields, h1, h2, h3, h4, h5, lengthField, distanceField]; omega

theorem seToken : Statement .seToken := fun _ => by decide

theorem seEob : Statement .seEob := fun _ => by decide

theorem compress : Statement .compress := fun _ => by decide

end Sys2Proof.Laws.Encoding
end

