-- ==== Sys2Proof/Laws/Tokens.lean ====
section
/-! SUPPORT. What one MatchFinder iteration produces in a table whose positions are earlier positions of the
same key (R28): a legal Token that copies bytes the input holds (R145, R148), inside the input. -/

namespace Sys2Proof.Machine

variable {rd : Nat → Option Byte}

/-- What the scan relies on: each list rises, and a position registered under a key is earlier than `i`, has
three bytes in the input and those bytes are the key (R28). -/
structure TableHolds (rd : Nat → Option Byte) (n i : Nat) (pt : PrefixTable) : Prop where
  rising : ∀ k, (PrefixTable.positions pt k).Pairwise (· < ·)
  earlier : ∀ k, ∀ p ∈ PrefixTable.positions pt k, p < i
  inside : ∀ k, ∀ p ∈ PrefixTable.positions pt k, p + 3 ≤ n
  keyed : ∀ k, ∀ p ∈ PrefixTable.positions pt k, keyAt rd p = some k

theorem TableHolds.nil (rd : Nat → Option Byte) (n i : Nat) : TableHolds rd n i [] := by
  constructor <;> simp

theorem TableHolds.mono {n i j : Nat} {pt : PrefixTable} (h : TableHolds rd n i pt) (hij : i ≤ j) :
    TableHolds rd n j pt :=
  ⟨h.rising, fun k p hp => lt_of_lt_of_le (h.earlier k p hp) hij, h.inside, h.keyed⟩

/-- Registering position `i` under its key keeps it. -/
theorem TableHolds.register {n i : Nat} {pt : PrefixTable} {k : Key} (h : TableHolds rd n i pt)
    (hk : keyAt rd i = some k) (hn : i + 3 ≤ n) :
    TableHolds rd n (i + 1) (PrefixTable.register pt k i) := by
  have key : ∀ k' p, p ∈ PrefixTable.positions (PrefixTable.register pt k i) k' →
      p ∈ PrefixTable.positions pt k' ∨ (p = i ∧ k' = k) := by
    intro k' p hp
    rw [PrefixTable.positions_register] at hp
    split at hp
    · rename_i e; subst e
      rcases List.mem_append.1 hp with hp | hp
      · exact .inl hp
      · exact .inr ⟨by simpa using hp, rfl⟩
    · exact .inl hp
  refine ⟨fun k' => ?_, fun k' p hp => ?_, fun k' p hp => ?_, fun k' p hp => ?_⟩
  · rw [PrefixTable.positions_register]
    split
    · rename_i e; subst e
      refine List.pairwise_append.2 ⟨h.rising _, by simp, fun a ha b hb => ?_⟩
      have := h.earlier _ a ha
      simp only [List.mem_singleton] at hb
      omega
    · exact h.rising k'
  · rcases key k' p hp with hp | ⟨rfl, rfl⟩
    · have := h.earlier _ p hp; omega
    · omega
  · rcases key k' p hp with hp | ⟨rfl, rfl⟩
    · exact h.inside _ p hp
    · exact hn
  · rcases key k' p hp with hp | ⟨rfl, rfl⟩
    · exact h.keyed _ p hp
    · exact hk

/-- What a Token produced at position `i` says of the bytes there: a Literal is the byte, and a copied byte is
the byte `distance` back. -/
def Token.Matches (rd : Nat → Option Byte) (i : Nat) : Token → Prop
  | .literal b => rd i = some b
  | .copy length distance => distance ≤ i ∧ ∀ k, k < length → rd (i + k) = rd (i - distance + k)

/-- Everything the scan can answer in such a table (R136 to R139). -/
theorem scan_table {n i : Nat} {pt : PrefixTable} {k : Key} {best : Nat × Nat} (h : TableHolds rd n i pt)
    (hk : keyAt rd i = some k) (hn : i + 3 ≤ n)
    (hs : scan rd i n (PrefixTable.positions pt k).reverse (0, 0) = some best) :
    best = (0, 0) ∨
    (3 ≤ best.1 ∧ best.1 ≤ 258 ∧ 1 ≤ best.2 ∧ best.2 ≤ 32768 ∧ best.2 ≤ i ∧ i + best.1 ≤ n ∧
      ∀ m, m < best.1 → rd (i + m) = rd (i - best.2 + m)) := by
  have hp : (PrefixTable.positions pt k).reverse.Pairwise (· > ·) := by
    rw [List.pairwise_reverse]; exact h.rising k
  obtain ⟨-, h2, -⟩ := scan_spec hp hs
  rcases h2 with e | ⟨c, hc, hw, he, hd, -, -⟩
  · exact .inl e
  · have hc' : c ∈ PrefixTable.positions pt k := List.mem_reverse.1 hc
    have hci := h.earlier k c hc'
    obtain ⟨e1, e2, e3, e4, -⟩ := extend_spec he
    have e1' : 3 ≤ best.1 := e1
    have hw' : i - c ≤ 32768 := hw
    refine .inr ⟨e1', e2, by omega, by omega, by omega, e3 hn, fun m hm => ?_⟩
    have hcd : i - best.2 = c := by omega
    rw [hcd]
    by_cases hm3 : m < 3
    · exact (bytes_eq_of_keyAt_eq hk (h.keyed k c hc') m hm3).1
    · exact (e4 m (show 3 ≤ m by omega) hm).1.symm

/-- Everything one iteration can do in such a table, with the input bytes there (R133 to R141, R145). -/
theorem iterate_table {n i : Nat} {pt : PrefixTable} {r : Option Token × PrefixTable} (h : TableHolds rd n i pt)
    (hr : iterate rd n i pt = some r) :
    (n ≤ i ∧ r = (none, pt)) ∨
    (i < n ∧ ∃ t pt', r = (some t, pt') ∧ t.legal = true ∧ i + t.consumed ≤ n ∧ t.Matches rd i ∧
      TableHolds rd n (i + t.consumed) pt') := by
  rcases iterate_cases hr with ⟨hn, e⟩ | ⟨h1, h2, b, hb, e⟩ | ⟨h1, k, b, best, hk, hb, hs, e⟩
  · exact .inl ⟨hn, e⟩
  · exact .inr ⟨h1, _, _, e, rfl, h1, hb, h.mono (Nat.le_succ i)⟩
  · have h3 : i + 3 ≤ n := h1
    refine .inr ⟨by omega, _, _, e, ?_⟩
    have hreg := h.register hk h3
    by_cases hm : minMatch ≤ best.1
    · rw [if_pos hm]
      rcases scan_table h hk h3 hs with e0 | ⟨g1, g2, g3, g4, g5, g6, g7⟩
      · rw [e0] at hm; exact absurd hm (by decide)
      · refine ⟨(Token.legal_copy_iff _ _).2 ⟨g1, g2, g3, g4⟩, g6, ⟨g5, g7⟩, hreg.mono ?_⟩
        show i + 1 ≤ i + best.1; omega
    · rw [if_neg hm]
      exact ⟨rfl, by show i + 1 ≤ n; omega, hb, hreg⟩

/-- With the input bytes there, an iteration answers in such a table. -/
theorem iterate_table_isSome {n i : Nat} {pt : PrefixTable} (h : TableHolds rd n i pt)
    (hr : ∀ j, j < n → (rd j).isSome = true) : (iterate rd n i pt).isSome = true :=
  iterate_isSome hr fun k p hp => le_of_lt (h.earlier k p hp)

end Sys2Proof.Machine
end

