-- ==== Sys2Proof/Tests/Slice0.lean ====
section
/-! SUPPORT. Tests of one step each, on small states, with expected values from spec/95_test_vectors.md (each
test names its row) or counted by hand from the rule it names; and for every obligation with hypotheses a
concrete state and operands that meet them together. -/

namespace Sys2Proof.Tests

open Sys2Proof.Machine

/-! ## Helpers -/

/-- The state an outcome answers, if it is a next state. -/
def nextOf (o : Host.Outcome State Fault Refusal) : Option State :=
  match o with
  | .next t => some t
  | .fault _ => none
  | .refused _ => none

/-- Whether an outcome is the model fault UNWRITTEN_READ. -/
def stopsUnwritten (o : Host.Outcome State Fault Refusal) : Bool :=
  match o with
  | .next _ => false
  | .fault .unwrittenRead => true
  | .refused _ => false

/-- Whether an outcome is the refusal of an ill-formed configuration. -/
def refusesConfig (o : Host.Outcome State Fault Refusal) : Bool :=
  match o with
  | .next _ => false
  | .fault _ => false
  | .refused .illFormedConfig => true
  | .refused (.notModelled _) => false

/-- The smallest well-formed block: IN_CAP = 1, OUT_CAP = 3 (program P6). -/
def smallest : State := State.resetWith ⟨1#32, 3#32⟩

/-- A block with IN_CAP = 8 and OUT_CAP = 11, right after reset. -/
def fresh : State := State.resetWith ⟨8#32, 11#32⟩

/-- `fresh` with the input `x` in memory. -/
def holding (x : List Byte) : State :=
  { fresh with
    inMem := (List.range x.length).zip x, inWritten := List.range x.length, inLen := BitVec.ofNat 32 x.length }

/-- `fresh` in the fault state of FA1. -/
def faulted : State := { fresh with fault := true, cause := 1#4 }

/-- "aaaa" in the middle of a run: the state of S7 after its first step. -/
def runAaaa : State :=
  { holding [0x61#8, 0x61#8, 0x61#8, 0x61#8] with
    mfPos := 1#32, pt := [(0x616161, [0])], token := 0x80000061#32, inLock := true }

/-- A stream of 11 bits in `OUT` and `CUR`: the end state of S2 before its finish. -/
def elevenBits : State := { fresh with
    outMem := [(0, 0x76#8)], outWritten := [0], bpK := 1#32, cur := 0x05#8, fill := 3#3 }

/-- The smallest block with all of `OUT` filled (BP13). -/
def full : State := { smallest with
    outMem := [(0, 0xFF#8), (1, 0xFF#8), (2, 0xFF#8)], outWritten := [0, 1, 2], bpK := 3#32 }

/-- A block whose configuration is ill formed: OUT_CAP is too small. -/
def illFormed : State := State.resetWith ⟨1#32, 2#32⟩

/-! ## WellFormed refuses an ill-formed term, for each of its checks -/

theorem test_wf_refuses_bpAddLsb_width_64 : (Instr.bpAddLsb 0#32 64).wf = false := by decide
theorem test_wf_refuses_bpAddMsb_width_64 : (Instr.bpAddMsb 0#32 64).wf = false := by decide
theorem test_wf_refuses_seMatch_length_512 : (Instr.seMatch 512 1).wf = false := by decide
theorem test_wf_refuses_seMatch_distance_65536 : (Instr.seMatch 3 65536).wf = false := by decide
theorem test_wf_accepts_the_largest_fields :
    (Instr.bpAddLsb 0xFFFFFFFF#32 63).wf = true ∧ (Instr.bpAddMsb 0xFFFFFFFF#32 63).wf = true ∧
    (Instr.seMatch 511 65535).wf = true := by decide

/-! ## Decoding: words of the test vectors, opcode in bits 63:56 -/

theorem test_decode_init : decode 0x0100000000000000#64 = .ok .init := by decide
theorem test_decode_bpAddLsb : decode 0x101000000000000B#64 = .ok (.bpAddLsb 0xB#32 4) := by decide
theorem test_decode_bpAddMsb : decode 0x112C0000000005AB#64 = .ok (.bpAddMsb 1451#32 11) := by decide
theorem test_decode_bpFinish : decode 0x1200000000000000#64 = .ok .bpFinish := by decide
theorem test_decode_mfStep : decode 0x2000000000000000#64 = .ok .mfStep := by decide
theorem test_decode_seHeader : decode 0x3000000000000000#64 = .ok .seHeader := by decide
theorem test_decode_seLiteral : decode 0x3100000000000090#64 = .ok (.seLiteral 144#8) := by decide
/-- R73: length in bits 40:32, distance in bits 15:0; here 258 = 0x102 and 32768 = 0x8000. -/
theorem test_decode_seMatch : decode 0x3200010200008000#64 = .ok (.seMatch 258 32768) := by decide
theorem test_decode_seToken : decode 0x3300000000000000#64 = .ok .seToken := by decide
theorem test_decode_seEob : decode 0x3400000000000000#64 = .ok .seEob := by decide
theorem test_decode_compress : decode 0x4000000000000000#64 = .ok .compress := by decide
/-- FA1, FA2, FA9: unassigned opcodes. -/
theorem test_decode_refuses_unassigned :
    decode 0x0000000000000000#64 = .error .unassignedOpcode ∧
    decode 0xFFFFFFFFFFFFFFFF#64 = .error .unassignedOpcode ∧
    decode 0x5000000000000000#64 = .error .unassignedOpcode := by decide
/-- FA3 to FA8: a reserved bit is 1. -/
theorem test_decode_refuses_reserved :
    decode 0x0100000000000001#64 = .error .reservedBitSet ∧
    decode 0x1000000100000000#64 = .error .reservedBitSet ∧
    decode 0x1005000000000000#64 = .error .reservedBitSet ∧
    decode 0x3100000000000100#64 = .error .reservedBitSet ∧
    decode 0x3200020000000000#64 = .error .reservedBitSet ∧
    decode 0x3200000000010000#64 = .error .reservedBitSet := by decide
/-- FA10: a width of 63 decodes; the command's own check raises BAD_WIDTH. -/
theorem test_decode_width_63 : decode 0x10FC000000000000#64 = .ok (.bpAddLsb 0#32 63) := by decide
theorem test_decodeTableWord :
    decodeTableWord 64 0x3200010200008000 = some (.seMatch 258 32768) ∧
    decodeTableWord 64 0x3200010200010000 = none := by decide
/-- The word of S1's first command, run as the first command after reset. -/
theorem test_step_runs_the_fetch_word :
    (nextOf (step (State.reset.withFetchWord 64 0x110C000000000005))).map (fun t => (t.cur, t.fill)) =
      some (0x05#8, 3#3) := by decide

/-! ## One step of each command -/

/-- BP8: only 0b010 of 0xF2 is used. -/
theorem test_bpAddMsb :
    (nextOf (exec (.bpAddMsb 0xF2#32 3) fresh)).map (fun t => (t.cur, t.fill)) = some (0x02#8, 3#3) := by decide
/-- S12: width 33 raises BAD_WIDTH and leaves the BitPacker alone. -/
theorem test_bpAddMsb_bad_width :
    (nextOf (exec (.bpAddMsb 0#32 63) fresh)).map (fun t => (t.status, t.faultCmd, t.bitLen)) =
      some (0x21#32, 0x11FC000000000000#64, 0) := by decide
/-- P2 line 6: 43 in 6 bits on top of CUR = 0x16, FILL = 5 completes 0x76. -/
theorem test_bpAddLsb_completes_a_byte :
    (nextOf (exec (.bpAddLsb 43#32 6) { fresh with cur := 0x16#8, fill := 5#3 })).map
      (fun t => (t.outMem, t.outWritten, t.bpK, t.cur, t.fill)) =
        some ([(0, 0x76#8)], [0], 1#32, 0x05#8, 3#3) := by decide
/-- BP13: the smallest block is full. -/
theorem test_bpAddLsb_overflow :
    (nextOf (exec (.bpAddLsb 1#32 1) full)).map (fun t => (t.status, t.faultCmd, t.bitLen)) =
      some (0x51#32, 0x1004000000000001#64, 24) := by decide
/-- S2: the finish writes the three bits left. -/
theorem test_bpFinish :
    (nextOf (exec .bpFinish elevenBits)).map (fun t => (t.outMem, t.outWritten, t.outLen, t.fill)) =
      some ([(0, 0x76#8), (1, 0x05#8)], [0, 1], 2#32, 3#3) := by decide
/-- BP9: a finish on an empty packer writes nothing. -/
theorem test_bpFinish_empty :
    (nextOf (exec .bpFinish fresh)).map (fun t => (t.outMem, t.outLen)) = some ([], 0#32) := by decide
/-- S7 step 2. -/
theorem test_mfStep_match :
    (nextOf (exec .mfStep runAaaa)).map (fun t => (t.token, t.mfPos, t.pt)) =
      some (0xC0030001#32, 4#32, [(0x616161, [0, 1])]) := by decide
/-- FA11. -/
theorem test_mfStep_bad_in_len :
    (nextOf (exec .mfStep { fresh with inLen := 9#32 })).map (fun t => (t.status, t.faultCmd, t.mfPos)) =
      some (0x61#32, 0x2000000000000000#64, 0#32) := by decide
/-- P3 line 4. -/
theorem test_seHeader :
    (nextOf (exec .seHeader fresh)).map (fun t => (t.cur, t.fill)) = some (0x03#8, 3#3) := by decide
/-- S4: 143 in eight bits, and 144 in nine, from reset. -/
theorem test_seLiteral_split :
    (nextOf (exec (.seLiteral 143#8) fresh)).map (fun t => (t.outMem, t.bitLen)) = some ([(0, 0xFD#8)], 8) ∧
    (nextOf (exec (.seLiteral 144#8) fresh)).map (fun t => (t.outMem, t.cur, t.bitLen)) =
      some ([(0, 0x13#8)], 0x00#8, 9) := by decide
/-- S3, length 11: symbol 265 in 7 bits, one extra bit, distance symbol 0 in 5 bits: 0001001, 0, 00000. -/
theorem test_seMatch :
    (nextOf (exec (.seMatch 11 1) fresh)).map (fun t => (t.outMem, t.cur, t.bitLen)) =
      some ([(0, 0x48#8)], 0x00#8, 13) := by decide
/-- R182: BAD_LENGTH comes before BAD_DISTANCE. -/
theorem test_seMatch_bad_length_first :
    (nextOf (exec (.seMatch 2 0) fresh)).map (fun t => t.status) = some 0x31#32 ∧
    (nextOf (exec (.seMatch 3 32769) fresh)).map (fun t => t.status) = some 0x41#32 := by decide
/-- P3 line 7: the literal 'a' after the header. -/
theorem test_seToken :
    (nextOf (exec .seToken { runAaaa with cur := 0x03#8, fill := 3#3 })).map
      (fun t => (t.outMem, t.cur, t.fill)) = some ([(0, 0x4B#8)], 0x04#8, 3#3) := by decide
/-- R184: no token, no effect. -/
theorem test_seToken_none : nextOf (exec .seToken fresh) = some fresh := by decide
/-- P3 line 13. -/
theorem test_seEob :
    (nextOf (exec .seEob { fresh with bpK := 2#32, cur := 0x02#8, fill := 7#3 })).map
      (fun t => (t.outMem, t.bpK, t.cur, t.fill)) = some ([(2, 0x02#8)], 3#32, 0x00#8, 6#3) := by decide
/-- R210: INIT during a run. -/
theorem test_init :
    let o := nextOf (exec .init { runAaaa with cur := 0x03#8, fill := 3#3, outLen := 4#32 });
    o.map (fun t => (t.mfPos, t.pt, t.token, t.inLock)) = some (0#32, [], 0#32, false) ∧
    o.map (fun t => (t.bitLen, t.outLen, t.inLen)) = some (0, 0#32, 4#32) := by decide
/-- EN5. -/
theorem test_compress :
    let o := nextOf (exec .compress (holding [0x61#8, 0x61#8, 0x61#8, 0x61#8]));
    o.map (fun t => (t.outMem, t.bitLen, t.outLen)) =
      some ([(0, 0x4B#8), (1, 0x04#8), (2, 0x02#8), (3, 0x00#8)], 30, 4#32) ∧
    o.map (fun t => (t.status, t.pt, t.mfPos)) = some (0#32, [], 0#32) := by decide
/-- FA12. -/
theorem test_compress_bad_in_len :
    (nextOf (exec .compress { fresh with inLen := 9#32 })).map (fun t => (t.status, t.faultCmd, t.outLen)) =
      some (0x61#32, 0x4000000000000000#64, 0#32) := by decide

/-! ## One access of the host -/

/-- P5 line 3: a locked write of IN is dropped. -/
theorem test_locked_write :
    (nextOf (access (.writeIn 0 0x7A#8) runAaaa)).map (fun t => (t.status, t.faultCmd, t.inMem)) =
      some (0x171#32, 0#64, runAaaa.inMem) := by decide
/-- RS4, RS5: register 7 is read-only, register 3 is not. -/
theorem test_register_writes :
    nextOf (access (.writeReg 7#4 5#32) fresh) = some fresh ∧
    (nextOf (access (.writeReg 3#4 9#32) fresh)).map (fun t => t.readRegister 3#4) = some 9#32 := by decide
/-- RS7: reset leaves the fault state. -/
theorem test_reset_leaves_the_fault_state : nextOf (access .reset faulted) = some fresh := by decide
theorem test_ill_formed_config_is_refused : refusesConfig (step illFormed) = true := by decide
/-- EN9, by the function MF_tokens on "abcab": three literals and the tail. -/
theorem test_mfTokens : mfTokens [0x61#8, 0x62#8, 0x63#8, 0x61#8, 0x62#8] =
    [.literal 0x61#8, .literal 0x62#8, .literal 0x63#8, .literal 0x61#8, .literal 0x62#8] := by decide

/-! ## Witnesses: every obligation's hypotheses hold together somewhere -/

theorem witness_DecodeOfEncode :
    (Instr.bpAddMsb 0xFFFFFFFF#32 63).wf = true ∧ (Instr.seMatch 0 0).wf = true := by decide
theorem witness_EncodeOfDecode : decode 0x10FC0000FFFFFFFF#64 = .ok (.bpAddLsb 0xFFFFFFFF#32 63) := by decide
theorem witness_DecodeFollowsOpcodeMap :
    0x10FC0000FFFFFFFF#64 &&& 0xFF03FFFF00000000#64 = 0x1000000000000000#64 ∧
    0x320001FF0000FFFF#64 &&& 0xFFFFFE00FFFF0000#64 = 0x3200000000000000#64 := by decide
theorem witness_IllegalWordsRaiseIllegalCmd :
    decode 0x5000000000000000#64 = .error .unassignedOpcode ∧
    decode 0x0100000000000001#64 = .error .reservedBitSet ∧ fresh.fault = false := by decide
theorem witness_TokenWordHoldsItsToken :
    (Token.literal 0xFF#8).legal = true ∧ (Token.copy 3 1).legal = true ∧
    (Token.copy 258 32768).legal = true := by decide
theorem witness_StepRunsTheDecodedCommand :
    let s : State := { fresh with pending := [.command 0x1200000000000000#64, .reset] };
    s.cfg.wf = true ∧ s.pending = .command 0x1200000000000000#64 :: [.reset] ∧
      decode 0x1200000000000000#64 = .ok .bpFinish := by decide
theorem witness_StepPerformsTheOldestAccess :
    illFormed.cfg.wf = false ∧ fresh.cfg.wf = true ∧ fresh.pending = [] ∧
    ({ fresh with pending := [.readOut 0] } : State).pending = .readOut 0 :: [] ∧
    nextOf (access (.writeReg 3#4 1#32) fresh) = some (fresh.withInLen 1#32) := by decide
theorem witness_RegisterWritesReachOnlyInLen :
    (7#4 : RegNo) ≠ 3#4 ∧ fresh.inLock = false ∧ (runAaaa.inLock = true ∧ runAaaa.fault = false) ∧
    (let s : State := { runAaaa with fault := true, cause := 7#4 }; s.inLock = true ∧ s.fault = true) := by decide
theorem witness_HostWritesOfTheMemories :
    fresh.cfg.inCap.toNat ≤ 8 ∧ 7 < fresh.cfg.inCap.toNat ∧ fresh.inLock = false ∧
    (7 < runAaaa.cfg.inCap.toNat ∧ runAaaa.inLock = true ∧ runAaaa.fault = false) ∧
    (let s : State := { runAaaa with fault := true, cause := 7#4 };
      7 < s.cfg.inCap.toNat ∧ s.inLock = true ∧ s.fault = true) := by decide
theorem witness_HostReadsOfTheMemories :
    fresh.cfg.inCap.toNat ≤ 8 ∧ (3 < runAaaa.cfg.inCap.toNat ∧ runAaaa.inByte 3 = some 0x61#8) ∧
    (7 < runAaaa.cfg.inCap.toNat ∧ runAaaa.inWrittenAt 7 = false ∧ runAaaa.inByte 7 = none) ∧
    fresh.cfg.outCap.toNat ≤ 11 ∧
    (0 < elevenBits.cfg.outCap.toNat ∧ elevenBits.outByte 0 = some 0x76#8) ∧
    (10 < elevenBits.cfg.outCap.toNat ∧ elevenBits.outWrittenAt 10 = false ∧ elevenBits.outByte 10 = none) := by decide
theorem witness_LoadInputHoldsTheInput :
    fresh.inLock = false ∧ ([1#8, 2#8, 3#8, 4#8, 5#8, 6#8, 7#8, 8#8] : List Byte).length ≤ fresh.cfg.inCap.toNat ∧
    ([] : List Byte).length ≤ fresh.cfg.inCap.toNat := by decide
theorem witness_MemoriesAreCanonicalMaps :
    Memory.wf full.outMem = true ∧ (∀ a, Memory.read full.outMem a = Memory.read full.outMem a) ∧
    PrefixTable.wf runAaaa.pt = true ∧ (0x616162#24 : Key) ≠ 0x616161#24 := by
  exact ⟨by decide, fun _ => rfl, by decide, by decide⟩
theorem witness_FaultedBlockIgnoresCommands :
    faulted.fault = true ∧ HostAccess.writeOut 0 0#8 ≠ .reset ∧
    nextOf (access (.writeOut 0 0#8) faulted) = some faulted := by decide
theorem witness_FaultsArePrecise :
    (runAaaa.fault = false ∧ (nextOf (access (.writeIn 0 0#8) runAaaa)).map (fun t => t.fault) = some true) ∧
    (full.fault = false ∧
      (nextOf (access (.command 0x1004000000000001#64) full)).map (fun t => t.fault) = some true) := by decide
theorem witness_FaultPriority :
    (faulted.cfg.wf = true ∧ StreamFits faulted ∧ faulted.fault = true) ∧
    (full.cfg.wf = true ∧ StreamFits full ∧ full.fault = false) ∧
    decode 0x0000000000000000#64 = .error .unassignedOpcode ∧
    (decode 0x3200000200000000#64 = .ok (.seMatch 2 0) ∧ firstCause (.seMatch 2 0) full = some .badLength) ∧
    (decode 0x3200000300000000#64 = .ok (.seMatch 3 0) ∧ firstCause (.seMatch 3 0) full = some .badDistance) ∧
    (decode 0x3000000000000000#64 = .ok .seHeader ∧ firstCause .seHeader full = some .outOverflow) ∧
    (decode 0x1000000000000000#64 = .ok (.bpAddLsb 0#32 0) ∧ firstCause (.bpAddLsb 0#32 0) full = none ∧
      nextOf (access (.command 0x1000000000000000#64) full) = some full) := by decide
theorem witness_OnlyResetClearsFault :
    (faulted.fault = true ∧ (nextOf (access .reset faulted)).map (fun t => t.fault) = some false) ∧
    (runAaaa.fault = false ∧ (nextOf (access (.writeReg 3#4 0#32) runAaaa)).map (fun t => t.fault) = some true) := by
  decide
theorem witness_InLockFollowsTheRun :
    ((holding [0x61#8]).inLock = false ∧
      (nextOf (access (.command 0x2000000000000000#64) (holding [0x61#8]))).map (fun t => t.inLock) = some true) ∧
    (runAaaa.inLock = true ∧
      (nextOf (access (.command 0x0100000000000000#64) runAaaa)).map (fun t => t.inLock) = some false) ∧
    (decode 0x2000000000000000#64 = .ok .mfStep ∧
      (nextOf (access (.command 0x2000000000000000#64) runAaaa)).map (fun t => t.mfPos) = some 4#32 ∧
      runAaaa.mfPos = 1#32) := by decide
theorem witness_OutLenIsWrittenByFinishes :
    (nextOf (access (.command 0x1200000000000000#64) elevenBits)).map (fun t => t.outLen) = some 2#32 ∧
    elevenBits.outLen = 0#32 := by decide
theorem witness_CompleteBytesAreFinal :
    let w : CommandWord := 0x1020000000000000#64;
    (nextOf (access (.command w) elevenBits)).map (fun t => t.bpK) = some 2#32 ∧
      HostAccess.command w ≠ .reset ∧ decode w = .ok (.bpAddLsb 0#32 8) := by decide
theorem witness_CommandsLeaveTheInputAlone :
    (nextOf (exec .compress (holding [0x61#8]))).isSome = true ∧ (nextOf (exec .seHeader full)).isSome = true := by
  decide
theorem witness_CommandFrames :
    (nextOf (exec (.seMatch 3 1) elevenBits)).map (fun t => t.fault) = some elevenBits.fault ∧
    (nextOf (exec .mfStep runAaaa)).map (fun t => t.fault) = some runAaaa.fault := by decide
/-- The three clauses of BP_ADD_LSB and of BP_ADD_MSB at the edges of their ranges: widths 33, 1 and 32. -/
theorem witness_BpAdd :
    full.fault = false ∧ 32 < 33 ∧ 8 * full.cfg.outCap.toNat < full.bitLen + 1 ∧
    (fresh.fault = false ∧ fresh.bitLen + 32 ≤ 8 * fresh.cfg.outCap.toNat ∧ CurClean fresh) ∧
    (full.bitLen + 0 ≤ 8 * full.cfg.outCap.toNat ∧ CurClean full) := by decide
theorem witness_HighBitsAreIgnored :
    3 ≤ 32 ∧ fresh.bitLen + 3 ≤ 8 * fresh.cfg.outCap.toNat ∧
    ∀ j, j < 3 → (0xFF#32).getLsbD j = (0x07#32).getLsbD j := by decide
theorem witness_SplitLaws :
    fresh.fault = false ∧ 5 + 6 ≤ 32 ∧ 22 < 2 ^ 5 ∧ 43 < 2 ^ 6 ∧
    fresh.bitLen + (5 + 6) ≤ 8 * fresh.cfg.outCap.toNat := by decide
theorem witness_BpFinishWritesThePartialByte :
    (elevenBits.fault = false ∧ StreamFits elevenBits ∧ elevenBits.fill ≠ 0#3 ∧ CurClean elevenBits) ∧
    (full.fault = false ∧ StreamFits full ∧ full.fill = 0#3) := by decide
theorem witness_BpFinishIsIdempotent :
    (nextOf (exec .bpFinish elevenBits)).isSome = true ∧ elevenBits.fault = false ∧ CurClean elevenBits ∧
    32 ≤ 32 ∧ elevenBits.bitLen + 32 ≤ 8 * elevenBits.cfg.outCap.toNat ∧ elevenBits.fill.toNat + 4 < 8 ∧
    Instr.bpAddMsb 5#32 4 ∈ [Instr.bpAddLsb 5#32 4, Instr.bpAddMsb 5#32 4] := by decide
theorem witness_FinishedOutputIsTheStream :
    (elevenBits.fault = false ∧ BitPackerInv elevenBits) ∧ (full.fault = false ∧ BitPackerInv full) := by decide
theorem witness_SeHeader :
    (full.fault = false ∧ 8 * full.cfg.outCap.toNat < full.bitLen + 3) ∧
    (fresh.fault = false ∧ fresh.bitLen + 3 ≤ 8 * fresh.cfg.outCap.toNat ∧ CurClean fresh) := by decide
theorem witness_SeEob :
    (full.fault = false ∧ 8 * full.cfg.outCap.toNat < full.bitLen + 7) ∧
    (fresh.fault = false ∧ fresh.bitLen + 7 ≤ 8 * fresh.cfg.outCap.toNat ∧ CurClean fresh) := by decide
theorem witness_SeLiteral :
    (full.fault = false ∧ 8 * full.cfg.outCap.toNat < full.bitLen + (bitsMsbFirst (143 + 0x30) 8).length) ∧
    (fresh.fault = false ∧ CurClean fresh ∧
      fresh.bitLen + (bitsMsbFirst (144 - 144 + 0x190) 9).length ≤ 8 * fresh.cfg.outCap.toNat) := by decide
/-- SE_MATCH: its clauses at lengths 2, 259, 3 and 258 and distances 0, 32769, 1 and 32768; 31 bits at most. -/
theorem witness_SeMatch :
    fresh.fault = false ∧ 2 < 3 ∧ 258 < 259 ∧ (3 ≤ 3 ∧ 3 ≤ 258 ∧ 0 < 1) ∧ (3 ≤ 258 ∧ 258 ≤ 258 ∧ 32768 < 32769) ∧
    (1 ≤ 1 ∧ 1 ≤ 32768 ∧ 32768 ≤ 32768) ∧ fresh.bitLen + 31 ≤ 8 * fresh.cfg.outCap.toNat ∧ CurClean fresh ∧
    full.fault = false ∧ 8 * full.cfg.outCap.toNat < full.bitLen + 12 := by decide
theorem witness_SeTokenEmitsTheToken :
    (fresh.fault = false ∧ fresh.token.getLsbD 31 = false) ∧
    (let s : State := { fresh with token := 0xC0030001#32 };
      s.fault = false ∧ (Token.copy 3 1).legal = true ∧ s.token = (Token.copy 3 1).word ∧ CurClean s ∧
      s.bitLen + (codesBits (codesToken (.copy 3 1))).length ≤ 8 * s.cfg.outCap.toNat) ∧
    (let s : State := { full with token := 0x80000061#32 };
      s.fault = false ∧ (Token.literal 0x61#8).legal = true ∧ s.token = (Token.literal 0x61#8).word ∧
      8 * s.cfg.outCap.toNat < s.bitLen + (codesBits (codesToken (.literal 0x61#8))).length) := by decide
theorem witness_LookupSelectsTheRow :
    (3 ≤ 3 ∧ 3 ≤ 258) ∧ (3 ≤ 258 ∧ 258 ≤ 258) ∧ (1 ≤ 1 ∧ 1 ≤ 32768) ∧ (1 ≤ 32768 ∧ 32768 ≤ 32768) ∧
    (⟨264, 0, 10⟩ : TableRow) ∈ lengthTable ∧ (⟨29, 13, 24577⟩ : TableRow) ∈ distanceTable ∧
    ((⟨283, 5, 195⟩, ⟨284, 5, 227⟩) : TableRow × TableRow) ∈ lengthTable.zip lengthTable.tail ∧
    ((⟨28, 13, 16385⟩, ⟨29, 13, 24577⟩) : TableRow × TableRow) ∈ distanceTable.zip distanceTable.tail := by decide
theorem witness_CodesFitTheirWidths :
    (Token.copy 258 32768).legal = true ∧ (⟨8191, 13, .lsbFirst⟩ : Code) ∈ codesToken (.copy 258 32768) := by decide
theorem witness_TokenBitCounts : (Token.copy 3 1).legal = true ∧ (Token.copy 258 32768).legal = true := by decide
theorem witness_MfStepAtEndOfInput :
    let s : State := { runAaaa with mfPos := 4#32 };
    s.fault = false ∧ s.inLen.toNat ≤ s.cfg.inCap.toNat ∧ s.inLen.toNat ≤ s.mfPos.toNat := by decide
theorem witness_MfStepOnTheTail :
    (let s := holding [0x61#8, 0x62#8];
      s.fault = false ∧ s.inLen.toNat ≤ s.cfg.inCap.toNat ∧ 1 ≤ s.inLen.toNat - s.mfPos.toNat ∧
      s.inLen.toNat - s.mfPos.toNat ≤ 2 ∧ s.inByte s.mfPos.toNat = some 0x61#8) ∧
    (let s : State := { runAaaa with mfPos := 3#32 };
      s.fault = false ∧ s.inLen.toNat ≤ s.cfg.inCap.toNat ∧ 1 ≤ s.inLen.toNat - s.mfPos.toNat ∧
      s.inLen.toNat - s.mfPos.toNat ≤ 2 ∧ s.inByte s.mfPos.toNat = some 0x61#8) := by decide
/-- Both clauses: no candidate at the start of the input, one candidate in the middle of "aaaa". -/
theorem witness_MfStepFindsTheBestMatch :
    (let s := holding [0x61#8, 0x61#8, 0x61#8, 0x61#8];
      s.fault = false ∧ s.inLen.toNat ≤ s.cfg.inCap.toNat ∧ InputLoaded s ∧ PrefixTableInv s ∧
      s.mfPos.toNat + 3 ≤ s.inLen.toNat ∧ PrefixTable.positions s.pt 0x616161#24 = []) ∧
    (runAaaa.fault = false ∧ runAaaa.inLen.toNat ≤ runAaaa.cfg.inCap.toNat ∧ InputLoaded runAaaa ∧
      PrefixTableInv runAaaa ∧ runAaaa.mfPos.toNat + 3 ≤ runAaaa.inLen.toNat ∧
      (PrefixTable.positions runAaaa.pt 0x616161#24).filter (fun c => decide (1 - c ≤ window)) = [0] ∧
      MatchLength runAaaa 0 1 3) := by decide
/-- A byte missing on the tail, the last key byte missing, and a stop with the table's invariant. -/
theorem witness_MfStepStopsOnlyOnUnwrittenInput :
    (let s : State := { fresh with inLen := 9#32 }; s.fault = false ∧ s.cfg.inCap.toNat < s.inLen.toNat) ∧
    (let s : State := { fresh with inLen := 8#32 };
      s.fault = false ∧ stopsUnwritten (exec .mfStep s) = true ∧ PrefixTableInv s) ∧
    (let s : State := { fresh with inLen := 2#32, mfPos := 1#32 };
      s.fault = false ∧ s.inLen.toNat ≤ s.cfg.inCap.toNat ∧ s.mfPos.toNat < s.inLen.toNat ∧
      s.inByte s.mfPos.toNat = none) ∧
    (let s : State := { holding [0x61#8, 0x62#8] with inLen := 3#32 };
      s.fault = false ∧ s.inLen.toNat ≤ s.cfg.inCap.toNat ∧ s.mfPos.toNat + 3 ≤ s.inLen.toNat ∧
      s.inByte (s.mfPos.toNat + 2) = none ∧ stopsUnwritten (exec .mfStep s) = true) := by decide
theorem witness_EvictionLeavesTheScanUnchanged :
    ([0, 1, 32769] : List Nat).Pairwise (· < ·) ∧ ∀ p ∈ ([0, 1, 32769] : List Nat), p < 32770 := by decide
theorem witness_SmallInputsGiveLiterals : ([0x41#8, 0x41#8, 0x41#8] : List Byte).length ≤ 3 := by decide
theorem witness_InitStartsAFreshCall : faulted.fault = true ∧ runAaaa.fault = false := by decide
/-- COMPRESS of an input of IN_CAP bytes, and of the empty input. -/
theorem witness_CompressComputesCompress :
    (let x : List Byte := [1#8, 2#8, 3#8, 4#8, 1#8, 2#8, 3#8, 4#8];
      let s := holding x;
      s.cfg.wf = true ∧ s.fault = false ∧ x.length ≤ s.cfg.inCap.toNat ∧ HoldsInput s x) ∧
    (fresh.cfg.wf = true ∧ fresh.fault = false ∧ ([] : List Byte).length ≤ fresh.cfg.inCap.toNat ∧
      HoldsInput fresh []) := by decide
theorem witness_CompressAlwaysSucceedsOnLoadedInput :
    (let s : State := { fresh with inLen := 9#32 };
      s.cfg.wf = true ∧ s.fault = false ∧ s.cfg.inCap.toNat < s.inLen.toNat) ∧
    (let s := holding [0x61#8];
      s.cfg.wf = true ∧ s.fault = false ∧ s.inLen.toNat ≤ s.cfg.inCap.toNat ∧ InputLoaded s) ∧
    (let s : State := { fresh with inLen := 8#32 };
      s.cfg.wf = true ∧ s.fault = false ∧ s.inLen.toNat ≤ s.cfg.inCap.toNat ∧ ¬ InputLoaded s) := by decide
theorem witness_CompressOfTheEmptyInput :
    fresh.cfg.wf = true ∧ fresh.fault = false ∧ fresh.inLen = 0#32 := by decide
/-- Two states that differ in the prefix table, the packer and the result, and hold the same input. -/
theorem witness_CompressDependsOnlyOnTheInput :
    let s := holding [0x61#8, 0x61#8, 0x61#8, 0x61#8];
    let s' : State := { runAaaa with cur := 0x05#8, fill := 3#3, outLen := 2#32, outMem := [(0, 0x76#8), (1, 0x05#8)], outWritten := [0, 1] };
    s.cfg.wf = true ∧ s'.cfg = s.cfg ∧ s.fault = false ∧ s'.fault = false ∧ s'.inLen = s.inLen ∧
      s.inLen.toNat ≤ s.cfg.inCap.toNat ∧
      ∀ j, j < s.inLen.toNat → s'.inByte j = s.inByte j := by decide
theorem witness_StepKeeps :
    let s : State := { runAaaa with pending := [.command 0x2000000000000000#64] };
    Inv s ∧ (nextOf (step s)).map (fun t => t.token) = some 0xC0030001#32 := by decide
/-- A fault record that the invariant allows, and a step that writes one. -/
theorem witness_StepKeepsTheFaultRecordTrue :
    let s : State := { full with pending := [.command 0x1004000000000001#64] };
    FaultInv s ∧ (nextOf (step s)).map (fun t => t.cause) = some 5#4 := by decide

end Sys2Proof.Tests
end

/-! # Proofs: the memories, the written flags and the table `PT` as maps (O15) -/

section
namespace Sys2Proof.Machine

/-- In a list whose keys rise, the listed entries are what the keys read as. -/
theorem mem_iff_lookupKey {α : Type} {l : List (Nat × α)} (h : RisingKeys l) (e : Nat × α) :
    e ∈ l ↔ lookupKey e.1 l = some e.2 :=
  ⟨lookupKey_of_mem h, mem_of_lookupKey⟩

/-- Lists whose keys rise are equal when every key reads alike: they list the same entries, and the order of
their keys fixes the order of the entries. -/
theorem eq_of_lookupKey_eq {α : Type} {l l' : List (Nat × α)} (h : RisingKeys l) (h' : RisingKeys l')
    (hread : ∀ k, lookupKey k l = lookupKey k l') : l = l' :=
  have : Std.Asymm fun p q : Nat × α => p.1 < q.1 := ⟨fun _ _ => Nat.lt_asymm⟩
  have : Std.Irrefl fun p q : Nat × α => p.1 < q.1 := ⟨fun _ => Nat.lt_irrefl _⟩
  List.Pairwise.eq_of_mem_iff h h' fun e => by
    rw [mem_iff_lookupKey h, mem_iff_lookupKey h', hread]

/-- Canonical memories are equal when every address reads alike. -/
theorem Memory.eq_of_read_eq {m m' : Memory} (h : Memory.wf m = true) (h' : Memory.wf m' = true)
    (hread : ∀ a, Memory.read m a = Memory.read m' a) : m = m' :=
  eq_of_lookupKey_eq ((Memory.wf_iff m).1 h) ((Memory.wf_iff m').1 h') hread

end Sys2Proof.Machine

open Sys2Proof.Machine in
/-- Settles O15: each clause is a law of keyed lists, read at the memories, the written flags or the table. -/
theorem memoriesAreCanonicalMaps : Obligations.MemoriesAreCanonicalMaps := by
  unfold Obligations.MemoriesAreCanonicalMaps
  refine ⟨?readAfterWrite, ?writeKeepsWf, ?readAlike, ?setFlag, ?flagsFollowWrite, ?register⟩
  case readAfterWrite => exact Memory.read_write
  case writeKeepsWf => exact fun _ a b h => Memory.wf_write h a b
  case readAlike => exact fun _ _ => Memory.eq_of_read_eq
  case setFlag =>
    intro f a a'
    by_cases h : a' = a <;> simp [h]
  case flagsFollowWrite => exact fun m a b => ⟨(Memory.addresses_write m a b).symm, Memory.get_addresses m a⟩
  case register =>
    intro pt k i hwf
    refine ⟨PrefixTable.wf_register hwf k i, ?own, fun k' hk => ?other⟩
    case own => rw [PrefixTable.positions_register, if_pos rfl]
    case other => rw [PrefixTable.positions_register, if_neg hk]

end

/-! # Proofs: one access and one step (O8) -/

section
namespace Sys2Proof.Machine

/-- COMPRESS writes nothing outside the datapath: each phase of its pseudocode keeps the rest. -/
theorem compress_outside {s w : State} (h : compress s = .ok w) : State.SameOutside s w := by
  obtain ⟨-, t, u, v, hheader, hloop, heob, rfl⟩ := compress_ok h
  have hst : State.SameOutside s t := s.datapathInit_outside.trans (State.emit_outside hheader)
  have hsv : State.SameOutside s v := (hst.trans (compressLoop_outside hloop)).trans (State.emit_outside heob)
  exact (hsv.trans v.finishBody_outside).trans v.finishBody.discardMatchFinder_outside

/-- No command's body writes the input, the fault registers, the capacities or the host's side. -/
theorem bodyOf_outside {i : Instr} {s t : State} (h : bodyOf i s = .ok t) : State.SameOutside s t := by
  cases i with
  | init => cases h; exact s.datapathInit_outside
  | bpAddLsb value n => exact State.emit_outside (bpAdd_ok h).2
  | bpAddMsb value n => exact State.emit_outside (bpAdd_ok h).2
  | bpFinish => cases h; exact s.finishBody_outside
  | mfStep => exact mfStepBody_outside (mfStep_ok_inv h).2
  | seHeader => exact State.emit_outside h
  | seLiteral lit => exact State.emit_outside h
  | seMatch length distance =>
    obtain ⟨-, -, hemit⟩ := seMatch_ok h
    exact State.emit_outside hemit
  | seToken =>
    obtain ⟨-, hemit⟩ | ⟨-, rfl⟩ := seToken_ok h
    · exact State.emit_outside hemit
    · exact .refl t
  | seEob => exact State.emit_outside h
  | compress => exact compress_outside h

/-- One access leaves the later accesses queued and the capacities as they are. -/
theorem AccessEffect.pending_cfg {x : HostAccess} {s t : State} (h : AccessEffect s t x) :
    t.pending = s.pending ∧ t.cfg = s.cfg := by
  cases h with
  | body w i hd hf hb =>
    have hout := bodyOf_outside hb
    exact ⟨hout.pending, hout.cfg⟩
  | same x h => subst h; exact ⟨rfl, rfl⟩
  | raised x c w hf h => subst h; exact ⟨s.enterFault_pending c w, s.enterFault_cfg c w⟩
  | reset h => subst h; exact ⟨s.resetBlock_pending, s.resetBlock_cfg⟩
  | reply x rs d h => subst h; exact ⟨rfl, rfl⟩
  | storeIn a b hl ha h => subst h; exact ⟨s.storeIn_pending a b, s.storeIn_cfg a b⟩
  | storeInLen v hl h => subst h; exact ⟨s.withInLen_pending v, s.withInLen_cfg v⟩

/-- An ill-formed configuration is refused (R10). -/
theorem step_of_illFormed {s : State} (h : s.cfg.wf = false) : step s = .refused .illFormedConfig := by
  simp [step, h]

/-- With no access issued the block waits (R261). -/
theorem step_of_pending_nil {s : State} (hwf : s.cfg.wf = true) (hp : s.pending = []) : step s = .next s := by
  simp [step, hwf, hp]

/-- The oldest access is performed, with the later ones still queued (R58, R66). -/
theorem step_of_pending_cons {s : State} {x : HostAccess} {rest : List HostAccess} (hwf : s.cfg.wf = true)
    (hp : s.pending = x :: rest) : step s = access x (s.withPending rest) := by
  simp [step, hwf, hp]

end Sys2Proof.Machine

open Sys2Proof.Machine in
/-- Settles O8: the step's three cases, and the frame of an access by kind of effect. -/
theorem stepPerformsTheOldestAccess : Obligations.StepPerformsTheOldestAccess := by
  unfold Obligations.StepPerformsTheOldestAccess
  refine ⟨?illFormed, ?waits, ?performs, ?frame⟩
  case illFormed => exact fun _ => step_of_illFormed
  case waits => exact fun _ => step_of_pending_nil
  case performs => exact fun _ _ _ => step_of_pending_cons
  case frame => exact fun _ _ _ h => (access_effect h).pending_cfg

end

/-! # Proofs: what the body of a command does, by kind of effect -/

section
namespace Sys2Proof.Machine

/-- Everything the body of a command can do when it completes: the seven commands that place bits, BP_FINISH,
the two ways of MF_STEP, INIT and COMPRESS. -/
inductive BodyEffect (s t : State) : Instr → Prop where
  /-- Bits at the cursor, as many as fit; none for an SE_TOKEN without a token (R102 to R105, R184). -/
  | places (i : Instr) (bits : List Bool)
      (hfit : bits ≠ [] → s.bitLen + bits.length ≤ 8 * s.cfg.outCap.toNat) (h : t = s.putBits bits) :
      BodyEffect s t i
  /-- BP_FINISH (R104). -/
  | finishes (h : t = s.finishBody) : BodyEffect s t .bpFinish
  /-- MF_STEP with no input left (R133). -/
  | noToken (h : t = s.noToken) : BodyEffect s t .mfStep
  /-- MF_STEP that produces a Token (R143). -/
  | produces (tk : Token) (pt : PrefixTable) (hlen : s.inLen.toNat ≤ s.cfg.inCap.toNat)
      (hi : iterate s.inByte s.inLen.toNat s.mfPos.toNat s.pt = some (some tk, pt)) (h : t = s.produce tk pt) :
      BodyEffect s t .mfStep
  /-- INIT (R210). -/
  | inits (h : t = s.datapathInit) : BodyEffect s t .init
  /-- COMPRESS (R211). -/
  | compresses (h : compress s = .ok t) : BodyEffect s t .compress

theorem BodyEffect.of_emit {i : Instr} {s t : State} {cs : List Code} (h : s.emit cs = .ok t) :
    BodyEffect s t i := by
  obtain ⟨hfit, ht⟩ := State.emit_ok h
  exact .places i _ (fun _ => by rwa [length_codesBits]) ht

theorem bodyOf_effect {i : Instr} {s t : State} (h : bodyOf i s = .ok t) : BodyEffect s t i := by
  cases i with
  | init => cases h; exact .inits rfl
  | bpAddLsb value n => exact .of_emit (bpAdd_ok h).2
  | bpAddMsb value n => exact .of_emit (bpAdd_ok h).2
  | bpFinish => cases h; exact .finishes rfl
  | mfStep =>
    obtain ⟨hlen, hbody⟩ := mfStep_ok_inv h
    obtain ht | ⟨tk, pt, ht, hi⟩ := mfStepBody_ok hbody
    · exact .noToken ht
    · exact .produces tk pt hlen hi ht
  | seHeader => exact .of_emit h
  | seLiteral lit => exact .of_emit h
  | seMatch length distance =>
    obtain ⟨-, -, hemit⟩ := seMatch_ok h
    exact .of_emit hemit
  | seToken =>
    obtain ⟨-, hemit⟩ | ⟨-, ht⟩ := seToken_ok h
    · exact .of_emit hemit
    · exact .places _ [] (fun hne => absurd rfl hne) ht
  | seEob => exact .of_emit h
  | compress => exact .compresses h

/-- Everything one pass of the loop of COMPRESS can do (R211): stop, leave by its exit, stop at a Token's codes,
or place them and go on. -/
theorem compressLoop_succ_cases (fuel : Nat) (s : State) :
    (∃ e, mfStepBody s = .error e ∧ compressLoop (fuel + 1) s = .error e) ∨
    (∃ t, mfStepBody s = .ok t ∧ t.tokenValid = false ∧ compressLoop (fuel + 1) s = .ok t) ∨
    (∃ t e, mfStepBody s = .ok t ∧ t.emit (codesToken (tokenOfWord t.token)) = .error e ∧
      compressLoop (fuel + 1) s = .error e) ∨
    (∃ t u, mfStepBody s = .ok t ∧ t.emit (codesToken (tokenOfWord t.token)) = .ok u ∧
      compressLoop (fuel + 1) s = compressLoop fuel u) := by
  cases hb : mfStepBody s with
  | error e => exact .inl ⟨e, rfl, by simp [compressLoop, hb]⟩
  | ok t =>
    cases hv : t.tokenValid with
    | false => exact .inr (.inl ⟨t, rfl, hv, by simp [compressLoop, hb, hv]⟩)
    | true =>
      cases he : t.emit (codesToken (tokenOfWord t.token)) with
      | error e => exact .inr (.inr (.inl ⟨t, e, rfl, he, by simp [compressLoop, hb, hv, he]⟩))
      | ok u => exact .inr (.inr (.inr ⟨t, u, rfl, he, by simp [compressLoop, hb, hv, he]⟩))

/-- What every access keeps and does not depend on the queue, every step keeps. -/
theorem step_keeps {P : State → Prop} {s t : State} (hs : P s) (hstep : step s = .next t)
    (hqueue : ∀ rest, P s → P (s.withPending rest))
    (haccess : ∀ x u, u.cfg.wf = true → P u → access x u = .next t → P t) : P t := by
  obtain ⟨hwf, ⟨-, rfl⟩ | ⟨x, rest, -, h⟩⟩ := step_cases hstep
  · exact hs
  · exact haccess x (s.withPending rest) hwf (hqueue rest hs) h

end Sys2Proof.Machine
end

/-! # Proofs: the memories and the BitPacker (O56) -/

section
namespace Sys2Proof.Machine

/-- What O56 says every step keeps. -/
def PackedOutput (s : State) : Prop := MemoryInv s ∧ BitPackerInv s

/-- Bits that fit `OUT` are placed inside it (R56, R110). -/
theorem PackedOutput.putBits {s : State} (h : PackedOutput s) {bits : List Bool}
    (hfit : s.bitLen + bits.length ≤ 8 * s.cfg.outCap.toNat) : PackedOutput (s.putBits bits) := by
  obtain ⟨⟨hinWf, hinBelow, houtWf, houtBelow, hinFlags, houtFlags⟩, hcur, -, hcomplete, hresult⟩ := h
  have hlen := s.bitLen_putBits bits hfit
  refine ⟨⟨?_, ?_, s.wf_putBits bits houtWf, ?_, ?_, s.flags_putBits bits houtFlags⟩,
    s.curClean_putBits bits hcur, ?_, s.outByte_isSome_putBits_below bits hfit hcomplete, fun a ha => ?_⟩
  · simpa using hinWf
  · simpa using hinBelow
  · simpa using s.below_putBits bits hfit houtBelow
  · simpa using hinFlags
  · simpa [StreamFits, hlen] using hfit
  · exact s.outByte_isSome_putBits bits a (hresult a (by simpa using ha))

theorem PackedOutput.emit {s t : State} {cs : List Code} (h : PackedOutput s) (he : s.emit cs = .ok t) :
    PackedOutput t := by
  obtain ⟨hfit, rfl⟩ := State.emit_ok he
  exact h.putBits (by rwa [length_codesBits])

/-- A store to `OUT` at an address that exists keeps everything. -/
theorem PackedOutput.storeOut {s : State} (h : PackedOutput s) {a : Nat} (ha : a < s.cfg.outCap.toNat) (b : Byte) :
    PackedOutput (s.storeOut a b) := by
  obtain ⟨⟨hinWf, hinBelow, houtWf, houtBelow, hinFlags, houtFlags⟩, hcur, hfit, hcomplete, hresult⟩ := h
  have hkept : ∀ a', (s.outByte a').isSome = true → ((s.storeOut a b).outByte a').isSome = true := by
    intro a' h'
    rw [State.outByte_storeOut]
    split
    · rfl
    · exact h'
  refine ⟨⟨hinWf, hinBelow, Memory.wf_write houtWf a b, Memory.below_write houtBelow ha b, hinFlags, ?_⟩,
    hcur, hfit, fun a' h' => hkept a' (hcomplete a' h'), fun a' h' => hkept a' (hresult a' h')⟩
  simp [houtFlags]

/-- A result of bytes that are all held may be announced in `OUT_LEN`. -/
theorem PackedOutput.withOutLen {s : State} (h : PackedOutput s) {v : Word}
    (hv : ∀ a, a < v.toNat → (s.outByte a).isSome = true) : PackedOutput (s.withOutLen v) := by
  obtain ⟨hmem, hcur, hfit, hcomplete, -⟩ := h
  exact ⟨hmem, hcur, hfit, hcomplete, hv⟩

/-- A finish stores the partial byte inside `OUT`, because the stream fits, and announces bytes that are held. -/
theorem PackedOutput.finishBody {s : State} (h : PackedOutput s) : PackedOutput s.finishBody := by
  have hk := s.bpK_eq
  have hf := s.fill_eq
  obtain ⟨-, -, hfit, hcomplete, -⟩ := id h
  obtain ⟨-, e⟩ | ⟨hfill, e⟩ := s.finishBody_cases <;> rw [e]
  · exact h.withOutLen hcomplete
  · have hfill' : s.fill.toNat ≠ 0 := fun c => hfill (BitVec.eq_of_toNat_eq (by simpa using c))
    have hroom : s.bpK.toNat < s.cfg.outCap.toNat := by omega
    have hcap := s.cfg.outCap.isLt
    refine (h.storeOut hroom s.cur).withOutLen fun a ha => ?_
    rw [State.outByte_storeOut]
    split
    · rfl
    · refine hcomplete a ?_
      rw [BitVec.toNat_add, BitVec.toNat_ofNat] at ha
      omega

theorem PackedOutput.datapathInit {s : State} (h : PackedOutput s) : PackedOutput s.datapathInit := by
  obtain ⟨hmem, -⟩ := h
  exact ⟨hmem, by simp [CurClean], by simp [StreamFits, State.bitLen], by simp, by simp⟩

theorem PackedOutput.mfStepBody {s t : State} (h : PackedOutput s) (hb : mfStepBody s = .ok t) : PackedOutput t := by
  obtain rfl | ⟨tk, pt, rfl, -⟩ := mfStepBody_ok hb <;> exact h

theorem PackedOutput.compressLoop {fuel : Nat} {s t : State} (h : PackedOutput s)
    (hl : compressLoop fuel s = .ok t) : PackedOutput t := by
  induction fuel generalizing s with
  | zero => cases hl; exact h
  | succ fuel ih =>
    obtain ⟨e, -, hr⟩ | ⟨u, hstep, -, hr⟩ | ⟨u, e, -, -, hr⟩ | ⟨u, v, hstep, hemit, hr⟩ :=
      compressLoop_succ_cases fuel s <;> rw [hr] at hl
    · cases hl
    · cases hl; exact h.mfStepBody hstep
    · cases hl
    · exact ih ((h.mfStepBody hstep).emit hemit) hl

theorem PackedOutput.compress {s t : State} (h : PackedOutput s) (hc : compress s = .ok t) : PackedOutput t := by
  obtain ⟨-, u, v, w, hheader, hloop, heob, rfl⟩ := compress_ok hc
  exact (((h.datapathInit.emit hheader).compressLoop hloop).emit heob).finishBody

theorem PackedOutput.body {i : Instr} {s t : State} (h : PackedOutput s) (he : BodyEffect s t i) :
    PackedOutput t := by
  cases he with
  | places i bits hfit ht =>
    subst ht
    cases bits with
    | nil => exact h
    | cons b rest => exact h.putBits (hfit (List.cons_ne_nil b rest))
  | finishes ht => subst ht; exact h.finishBody
  | noToken ht => subst ht; exact h
  | produces tk pt hlen hi ht => subst ht; exact h
  | inits ht => subst ht; exact h.datapathInit
  | compresses hc => exact h.compress hc

theorem PackedOutput.storeIn {s : State} (h : PackedOutput s) {a : Nat} (ha : a < s.cfg.inCap.toNat) (b : Byte) :
    PackedOutput (s.storeIn a b) := by
  obtain ⟨⟨hinWf, hinBelow, houtWf, houtBelow, hinFlags, houtFlags⟩, hpacker⟩ := h
  refine ⟨⟨Memory.wf_write hinWf a b, Memory.below_write hinBelow ha b, houtWf, houtBelow, ?_, houtFlags⟩, hpacker⟩
  simp [hinFlags]

theorem PackedOutput.resetBlock (s : State) : PackedOutput s.resetBlock :=
  ⟨⟨rfl, rfl, rfl, rfl, rfl, rfl⟩, by simp [CurClean], by simp [StreamFits, State.bitLen], by simp, by simp⟩

theorem PackedOutput.access {x : HostAccess} {s t : State} (h : PackedOutput s) (hx : access x s = .next t) :
    PackedOutput t := by
  cases access_effect hx with
  | body w i hd hf hb => exact h.body (bodyOf_effect hb)
  | same x ht => subst ht; exact h
  | raised x c w hf ht => subst ht; exact h
  | reset ht => subst ht; exact .resetBlock s
  | reply x rs d ht => subst ht; exact h
  | storeIn a b hl ha ht => subst ht; exact h.storeIn ha b
  | storeInLen v hl ht => subst ht; exact h

end Sys2Proof.Machine

open Sys2Proof.Machine in
/-- Settles O56: every effect of an access keeps the memories and the packed output. -/
theorem stepKeepsTheBitPacker : Obligations.StepKeepsTheBitPacker := by
  unfold Obligations.StepKeepsTheBitPacker
  intro s t hmem hpacker hstep
  have hs : PackedOutput s := ⟨hmem, hpacker⟩
  exact step_keeps hs hstep (fun _ h => h) fun x u _ hu hx => hu.access hx

end

/-! # Proofs: the Tokens an iteration produces and their token words -/

section
namespace Sys2Proof.Machine

/-- `KIND` is bit 30 of the word's number (R79). -/
theorem tokenWordKind_eq (w : Word) : tokenWordKind w = decide (w.toNat / 2 ^ 30 % 2 = 1) := by
  rw [tokenWordKind, BitVec.getLsbD, Nat.testBit_eq_decide_div_mod_eq]

/-- `VALID` is bit 31 of the word's number (R79). -/
theorem tokenWordValid_eq (w : Word) : tokenWordValid w = decide (w.toNat / 2 ^ 31 % 2 = 1) := by
  rw [tokenWordValid, BitVec.getLsbD, Nat.testBit_eq_decide_div_mod_eq]

/-- The token word of a legal Token stands for that Token (R79). -/
theorem tokenOfWord_word {tk : Token} (h : tk.legal = true) : tokenOfWord tk.word = tk := by
  cases tk with
  | literal b =>
    have hb := b.isLt
    have hw := Token.toNat_word_literal b
    have hkind : tokenWordKind (Token.literal b).word = false := by
      rw [tokenWordKind_eq, hw, decide_eq_false_iff_not]; omega
    have hbyte : (Token.literal b).word.extractLsb' 0 8 = b := by
      apply BitVec.eq_of_toNat_eq
      rw [BitVec.extractLsb'_toNat, hw, Nat.shiftRight_zero]; omega
    simp [tokenOfWord, hkind, hbyte]
  | copy length distance =>
    obtain ⟨-, hl, -, hd⟩ := (Token.legal_copy_iff _ _).1 h
    have hw := Token.toNat_word_copy (length := length) (distance := distance) (by omega) (by omega)
    have hkind : tokenWordKind (Token.copy length distance).word = true := by
      rw [tokenWordKind_eq, hw, decide_eq_true_iff]; omega
    have hlength : ((Token.copy length distance).word.extractLsb' 16 9).toNat = length := by
      rw [BitVec.extractLsb'_toNat, hw, Nat.shiftRight_eq_div_pow]; omega
    have hdistance : ((Token.copy length distance).word.extractLsb' 0 16).toNat = distance := by
      rw [BitVec.extractLsb'_toNat, hw, Nat.shiftRight_zero]; omega
    simp only [tokenOfWord, hkind, if_true, hlength, hdistance]

/-- What the scan answers stays within the two bounds, whatever list it is given (R136, R139). -/
theorem scan_bounds {rd : Nat → Option Byte} {i n : Nat} {cs : List Nat} {best r : Nat × Nat}
    (h : scan rd i n cs best = some r) (hb : best.1 ≤ maxMatch ∧ best.2 ≤ window) :
    r.1 ≤ maxMatch ∧ r.2 ≤ window := by
  induction cs generalizing best with
  | nil => cases h; exact hb
  | cons c older ih =>
    simp only [scan] at h
    split at h
    · cases h; exact hb
    · rename_i hw
      split at h
      · cases h
      · rename_i L hL
        have hbest : (if best.1 < L then (L, i - c) else best).1 ≤ maxMatch ∧
            (if best.1 < L then (L, i - c) else best).2 ≤ window := by
          split
          · exact ⟨(extend_spec hL).2.1, Nat.le_of_not_lt hw⟩
          · exact hb
        split at h
        · cases h; exact hbest
        · exact ih h hbest

/-- The token word of every produced Token has `VALID` = 1 (R79, R143). -/
theorem tokenWordValid_of_iterate {rd : Nat → Option Byte} {n i : Nat} {pt pt' : PrefixTable} {tk : Token}
    (h : iterate rd n i pt = some (some tk, pt')) : tokenWordValid tk.word = true := by
  have hliteral : ∀ b, tokenWordValid (Token.literal b).word = true := by
    intro b
    have hb := b.isLt
    rw [tokenWordValid_eq, Token.toNat_word_literal, decide_eq_true_iff]; omega
  obtain ⟨-, hr⟩ | ⟨-, -, b, -, hr⟩ | ⟨-, k, b, best, -, -, hs, hr⟩ := iterate_cases h
  · cases hr
  · cases hr; exact hliteral b
  · have hbounds := scan_bounds hs ⟨Nat.zero_le _, Nat.zero_le _⟩
    obtain ⟨hl, hd⟩ : best.1 ≤ 258 ∧ best.2 ≤ 32768 := hbounds
    cases hr
    split
    · rw [tokenWordValid_eq, Token.toNat_word_copy (by omega) (by omega), decide_eq_true_iff]; omega
    · exact hliteral b

/-- A produced Token leaves the table as it is or registers the position under one key (R134, R135). -/
theorem table_of_iterate {rd : Nat → Option Byte} {n i : Nat} {pt pt' : PrefixTable} {tk : Token}
    (h : iterate rd n i pt = some (some tk, pt')) : pt' = pt ∨ ∃ k, pt' = PrefixTable.register pt k i := by
  obtain ⟨-, hr⟩ | ⟨-, -, b, -, hr⟩ | ⟨-, k, b, best, -, -, -, hr⟩ := iterate_cases h <;> cases hr
  · exact .inl rfl
  · exact .inr ⟨k, rfl⟩

/-- Everything a Token can be that an iteration produces in a table of earlier positions: legal, inside the
input, and with the table holding at the position after it (R28, R145). -/
theorem produced_of_iterate {rd : Nat → Option Byte} {n i : Nat} {pt pt' : PrefixTable} {tk : Token}
    (ht : TableHolds rd n i pt) (h : iterate rd n i pt = some (some tk, pt')) :
    tk.legal = true ∧ i + tk.consumed ≤ n ∧ TableHolds rd n (i + tk.consumed) pt' := by
  obtain ⟨-, hr⟩ | ⟨-, tk', pt'', hr, hlegal, hinside, -, htable⟩ := iterate_table ht h
  · cases hr
  · cases hr; exact ⟨hlegal, hinside, htable⟩

end Sys2Proof.Machine
end

/-! # Proofs: the MatchFinder's cursor, table, lock and token (O57, O58, O20) -/

section
namespace Sys2Proof.Machine

/-- The fresh MatchFinder of R25, as reset, INIT and COMPRESS leave it. -/
structure FreshMatchFinder (s : State) : Prop where
  mfPos : s.mfPos = 0#32
  pt : s.pt = []
  token : s.token = 0#32
  inLock : s.inLock = false

/-- The MatchFinder's state is the same in both states. -/
structure SameMatchFinder (s t : State) : Prop where
  mfPos : t.mfPos = s.mfPos
  pt : t.pt = s.pt
  token : t.token = s.token
  inLock : t.inLock = s.inLock

/-- What the MatchFinder reads is the same in both states. -/
structure SameInput (s t : State) : Prop where
  cfg : t.cfg = s.cfg
  inLen : t.inLen = s.inLen
  inByte : t.inByte = s.inByte

/-- The accesses that leave the MatchFinder fresh. -/
def HostAccess.StartsFresh (x : HostAccess) : Prop :=
  x = .reset ∨ ∃ w, x = .command w ∧ (decode w = .ok .init ∨ decode w = .ok .compress)

/-- Everything one access can do to the MatchFinder. -/
inductive MatchFinderEffect (s t : State) : HostAccess → Prop where
  /-- Nothing, and the input stays too. -/
  | same (x : HostAccess) (hmf : SameMatchFinder s t) (hin : SameInput s t) : MatchFinderEffect s t x
  /-- A host write of the input, which comes only outside a run (R25). -/
  | loads (x : HostAccess) (hmf : SameMatchFinder s t) (hlock : s.inLock = false) : MatchFinderEffect s t x
  /-- MF_STEP with no input left (R133). -/
  | noToken (w : CommandWord) (hd : decode w = .ok .mfStep) (h : t = s.noToken) :
      MatchFinderEffect s t (.command w)
  /-- MF_STEP that produces a Token (R143). -/
  | produces (w : CommandWord) (hd : decode w = .ok .mfStep) (tk : Token) (pt : PrefixTable)
      (hlen : s.inLen.toNat ≤ s.cfg.inCap.toNat)
      (hi : iterate s.inByte s.inLen.toNat s.mfPos.toNat s.pt = some (some tk, pt)) (h : t = s.produce tk pt) :
      MatchFinderEffect s t (.command w)
  /-- A fresh start. -/
  | fresh (x : HostAccess) (hx : x.StartsFresh) (h : FreshMatchFinder t) : MatchFinderEffect s t x

theorem SameInput.of_outside {s t : State} (h : State.SameOutside s t) : SameInput s t :=
  ⟨h.cfg, h.inLen, h.inByte⟩

theorem freshMatchFinder_of_compress {s t : State} (h : compress s = .ok t) : FreshMatchFinder t := by
  obtain ⟨-, u, v, w, -, -, -, rfl⟩ := compress_ok h
  exact ⟨rfl, rfl, rfl, rfl⟩

theorem BodyEffect.matchFinder {w : CommandWord} {i : Instr} {s t : State} (he : BodyEffect s t i)
    (hd : decode w = .ok i) : MatchFinderEffect s t (.command w) := by
  cases he with
  | places i bits hfit h =>
    subst h; exact .same _ (by constructor <;> simp) (.of_outside (s.putBits_outside bits))
  | finishes h => subst h; exact .same _ (by constructor <;> simp) (.of_outside s.finishBody_outside)
  | noToken h => exact .noToken w hd h
  | produces tk pt hlen hi h => exact .produces w hd tk pt hlen hi h
  | inits h => subst h; exact .fresh _ (.inr ⟨w, rfl, .inl hd⟩) ⟨rfl, rfl, rfl, rfl⟩
  | compresses h => exact .fresh _ (.inr ⟨w, rfl, .inr hd⟩) (freshMatchFinder_of_compress h)

theorem access_matchFinder {x : HostAccess} {s t : State} (h : access x s = .next t) :
    MatchFinderEffect s t x := by
  have hsame : SameMatchFinder s s := ⟨rfl, rfl, rfl, rfl⟩
  have hin : SameInput s s := ⟨rfl, rfl, rfl⟩
  cases access_effect h with
  | body w i hd hf hb => exact (bodyOf_effect hb).matchFinder hd
  | same x ht => subst ht; exact .same x hsame hin
  | raised x c w hf ht => subst ht; exact .same x ⟨rfl, rfl, rfl, rfl⟩ ⟨rfl, rfl, rfl⟩
  | reset ht => subst ht; exact .fresh _ (.inl rfl) ⟨rfl, rfl, rfl, rfl⟩
  | reply x rs d ht => subst ht; exact .same x ⟨rfl, rfl, rfl, rfl⟩ ⟨rfl, rfl, rfl⟩
  | storeIn a b hl ha ht => subst ht; exact .loads _ ⟨rfl, rfl, rfl, rfl⟩ hl
  | storeInLen v hl ht => subst ht; exact .loads _ ⟨rfl, rfl, rfl, rfl⟩ hl

/-! ## The table `PT` as its entries and as its lists -/

/-- How many positions the table holds in all (R28). -/
def PrefixTable.count (pt : PrefixTable) : Nat := (pt.map fun e => e.2.length).sum

/-- Setting a key replaces the weight of its entry, if it had one, in any sum over the entries. -/
theorem sum_insertKey {α : Type} (f : α → Nat) (k : Nat) (v : α) {l : List (Nat × α)} (h : RisingKeys l) :
    ((insertKey k v l).map fun e => f e.2).sum + ((lookupKey k l).map f).getD 0 =
      (l.map fun e => f e.2).sum + f v := by
  induction l with
  | nil => simp [insertKey]
  | cons d rest ih =>
    obtain ⟨a, w⟩ := d
    obtain ⟨hd, hr⟩ := List.pairwise_cons.1 h
    simp only [insertKey, lookupKey_cons]
    rcases lt_trichotomy k a with hk | hk | hk
    · have hnone : lookupKey k rest = none := by
        cases hlook : lookupKey k rest with
        | none => rfl
        | some u => exact absurd (hd _ (mem_of_lookupKey hlook)) (by simp only; omega)
      rw [if_pos hk, if_neg (by omega), hnone]
      simp; omega
    · rw [if_neg (by omega), if_pos hk, if_pos hk.symm]
      simp; omega
    · rw [if_neg (by omega), if_neg (by omega), if_neg (by omega)]
      have := ih hr
      simp only [List.map_cons, List.sum_cons]; omega

/-- Registering adds one position (R135). -/
theorem PrefixTable.count_register {pt : PrefixTable} (h : RisingKeys pt) (k : Key) (i : Nat) :
    (PrefixTable.register pt k i).count = pt.count + 1 := by
  have hsum := sum_insertKey List.length k.toNat (PrefixTable.positions pt k ++ [i]) h
  have hold : ((lookupKey k.toNat pt).map List.length).getD 0 = (PrefixTable.positions pt k).length := by
    unfold PrefixTable.positions
    cases lookupKey k.toNat pt <;> rfl
  rw [hold, List.length_append, List.length_singleton] at hsum
  unfold PrefixTable.count PrefixTable.register
  omega

/-- Every listed number is a 24-bit key (R27). -/
def PrefixTable.KeysFit (pt : PrefixTable) : Prop := ∀ e ∈ pt, ∃ k : Key, k.toNat = e.1

/-- A listed entry is the list of its key. -/
theorem PrefixTable.positions_of_mem {pt : PrefixTable} (h : RisingKeys pt) {k : Key} {ps : List Nat}
    (hm : (k.toNat, ps) ∈ pt) : PrefixTable.positions pt k = ps := by
  rw [PrefixTable.positions, lookupKey_of_mem h hm, Option.getD_some]

/-- A position is in the list of an entry with its key. -/
theorem PrefixTable.mem_entry_of_mem_positions {pt : PrefixTable} {k : Key} {p : Nat}
    (h : p ∈ PrefixTable.positions pt k) : (k.toNat, PrefixTable.positions pt k) ∈ pt := by
  unfold PrefixTable.positions at h ⊢
  cases hlook : lookupKey k.toNat pt with
  | none => simp [hlook] at h
  | some ps => exact mem_of_lookupKey hlook

/-- The invariant of R28, said of the table's lists rather than of its entries. -/
theorem prefixTableInv_iff (s : State) : PrefixTableInv s ↔
    PrefixTable.wf s.pt = true ∧ s.pt.KeysFit ∧ TableHolds s.inByte s.inLen.toNat s.mfPos.toNat s.pt ∧
      s.pt.count ≤ s.mfPos.toNat := by
  constructor
  · rintro ⟨hrise, hentry, hcount⟩
    have hlist : ∀ k p, p ∈ PrefixTable.positions s.pt k →
        p < s.mfPos.toNat ∧ p + minMatch ≤ s.inLen.toNat ∧
          (keyAt s.inByte p).map BitVec.toNat = some k.toNat := by
      intro k p hp
      obtain ⟨-, -, hpos⟩ := hentry _ (PrefixTable.mem_entry_of_mem_positions hp)
      exact hpos p hp
    refine ⟨(PrefixTable.wf_iff _).2 ⟨hrise, fun e he => (hentry e he).1⟩, fun e he => ?keysFit,
      ⟨fun k => ?rising, fun k p hp => (hlist k p hp).1, fun k p hp => (hlist k p hp).2.1, fun k p hp => ?keyed⟩,
      hcount⟩
    case keysFit =>
      obtain ⟨hne, -, hpos⟩ := hentry e he
      obtain ⟨p, hp⟩ := List.exists_mem_of_ne_nil _ hne
      obtain ⟨-, -, hkey⟩ := hpos p hp
      obtain ⟨k, -, hk⟩ := Option.map_eq_some_iff.1 hkey
      exact ⟨k, hk⟩
    case rising =>
      by_cases hnil : PrefixTable.positions s.pt k = []
      · rw [hnil]; exact .nil
      · obtain ⟨p, hp⟩ := List.exists_mem_of_ne_nil _ hnil
        exact (hentry _ (PrefixTable.mem_entry_of_mem_positions hp)).2.1
    case keyed =>
      obtain ⟨-, -, hkey⟩ := hlist k p hp
      obtain ⟨k', hk', he⟩ := Option.map_eq_some_iff.1 hkey
      rw [hk', BitVec.eq_of_toNat_eq he]
  · rintro ⟨hwf, hfit, htable, hcount⟩
    obtain ⟨hrise, hne⟩ := (PrefixTable.wf_iff _).1 hwf
    refine ⟨hrise, fun e he => ?_, hcount⟩
    obtain ⟨k, hk⟩ := hfit e he
    have hps : PrefixTable.positions s.pt k = e.2 := PrefixTable.positions_of_mem hrise (by rw [hk]; exact he)
    refine ⟨hne e he, hps ▸ htable.rising k, fun p hp => ?_⟩
    rw [← hps] at hp
    exact ⟨htable.earlier k p hp, htable.inside k p hp, by rw [htable.keyed k p hp, Option.map_some, hk]⟩

theorem PrefixTable.keysFit_register {pt : PrefixTable} (h : pt.KeysFit) (k : Key) (i : Nat) :
    (PrefixTable.register pt k i).KeysFit := by
  intro e he
  obtain rfl | he := mem_insertKey he
  · exact ⟨k, rfl⟩
  · exact h e he

/-! ## What every step keeps -/

/-- What O57 says every step keeps. -/
def RunInv (s : State) : Prop := CursorInv s ∧ PrefixTableInv s

/-- In a fresh MatchFinder there is nothing to keep. -/
theorem RunInv.of_fresh {s : State} (hpos : s.mfPos = 0#32) (hpt : s.pt = []) (hlock : s.inLock = false) :
    RunInv s := by
  refine ⟨⟨by simp [hpos], fun _ => ⟨hpos, hpt⟩, fun h => ?_⟩, ?_⟩
  · rw [hlock] at h; cases h
  · rw [prefixTableInv_iff, hpt]
    exact ⟨rfl, fun e he => by simp at he, .nil _ _ _, Nat.zero_le _⟩

/-- The invariants read only the MatchFinder and its input. -/
theorem RunInv.of_same {s t : State} (h : RunInv s) (hmf : SameMatchFinder s t) (hin : SameInput s t) :
    RunInv t := by
  simpa only [RunInv, CursorInv, PrefixTableInv, hmf.mfPos, hmf.pt, hmf.inLock, hin.cfg, hin.inLen, hin.inByte]
    using h

/-- The table an iteration relies on (R28). -/
theorem RunInv.tableHolds {s : State} (h : RunInv s) :
    TableHolds s.inByte s.inLen.toNat s.mfPos.toNat s.pt := by
  obtain ⟨-, hpt⟩ := h
  obtain ⟨-, -, htable, -⟩ := (prefixTableInv_iff s).1 hpt
  exact htable

/-- The cursor moves past the bytes the Token covers, without wrapping (R26). -/
theorem State.toNat_produce_mfPos {s : State} {tk : Token} (h : s.mfPos.toNat + tk.consumed ≤ s.inLen.toNat)
    (pt : PrefixTable) : (s.produce tk pt).mfPos.toNat = s.mfPos.toNat + tk.consumed := by
  have := s.inLen.isLt
  rw [State.produce_mfPos, BitVec.toNat_ofNat, Nat.mod_eq_of_lt (by omega)]

/-- A produced Token keeps the cursor within the input and the table's invariants (R26, R28). -/
theorem RunInv.produce {s : State} (h : RunInv s) {tk : Token} {pt : PrefixTable}
    (hlen : s.inLen.toNat ≤ s.cfg.inCap.toNat)
    (hi : iterate s.inByte s.inLen.toNat s.mfPos.toNat s.pt = some (some tk, pt)) : RunInv (s.produce tk pt) := by
  obtain ⟨hlegal, hinside, htable⟩ := produced_of_iterate h.tableHolds hi
  have hpos := State.toNat_produce_mfPos hinside pt
  have hconsumed := Token.one_le_consumed hlegal
  obtain ⟨-, hpt⟩ := h
  obtain ⟨hwf, hfit, -, hcount⟩ := (prefixTableInv_iff s).1 hpt
  have hrise := ((PrefixTable.wf_iff _).1 hwf).1
  refine ⟨⟨by rw [hpos]; exact hinside, fun hlock => absurd hlock (by simp), fun _ => hlen⟩, ?_⟩
  rw [prefixTableInv_iff, hpos]
  have hshape : PrefixTable.wf pt = true ∧ pt.KeysFit ∧ pt.count ≤ s.pt.count + 1 := by
    obtain rfl | ⟨k, rfl⟩ := table_of_iterate hi
    · exact ⟨hwf, hfit, Nat.le_succ _⟩
    · exact ⟨PrefixTable.wf_register hwf k _, PrefixTable.keysFit_register hfit k _,
        (PrefixTable.count_register hrise k _).le⟩
  obtain ⟨hwf', hfit', hcount'⟩ := hshape
  exact ⟨hwf', hfit', htable, by show pt.count ≤ _; omega⟩

theorem RunInv.access {x : HostAccess} {s t : State} (h : RunInv s) (hx : access x s = .next t) : RunInv t := by
  cases access_matchFinder hx with
  | same x hmf hin => exact h.of_same hmf hin
  | loads x hmf hlock =>
    obtain ⟨⟨-, hfresh, -⟩, -⟩ := h
    obtain ⟨hpos, hpt⟩ := hfresh hlock
    exact .of_fresh (hmf.mfPos.trans hpos) (hmf.pt.trans hpt) (hmf.inLock.trans hlock)
  | noToken w hd ht => subst ht; exact h
  | produces w hd tk pt hlen hi ht => subst ht; exact h.produce hlen hi
  | fresh x hx hfresh => exact .of_fresh hfresh.mfPos hfresh.pt hfresh.inLock

/-- Everything an access can do to the lock: leave it and the cursor alone, set it with a valid Token by MF_STEP,
or clear it by a fresh start (R25, R39, R143). -/
theorem MatchFinderEffect.lock_cases {x : HostAccess} {s t : State} (h : MatchFinderEffect s t x) :
    (t.inLock = s.inLock ∧ t.mfPos = s.mfPos) ∨
    (∃ w, x = .command w ∧ decode w = .ok .mfStep ∧ t.inLock = true ∧ tokenWordValid t.token = true) ∨
    (x.StartsFresh ∧ t.inLock = false) := by
  cases h with
  | same x hmf hin => exact .inl ⟨hmf.inLock, hmf.mfPos⟩
  | loads x hmf hlock => exact .inl ⟨hmf.inLock, hmf.mfPos⟩
  | noToken w hd ht => subst ht; exact .inl ⟨rfl, rfl⟩
  | produces w hd tk pt hlen hi ht =>
    subst ht; exact .inr (.inl ⟨w, rfl, hd, rfl, tokenWordValid_of_iterate hi⟩)
  | fresh x hx hfresh => exact .inr (.inr ⟨hx, hfresh.inLock⟩)

/-- A produced Token's word is that of a legal Token, and no other access puts a word in `TOKEN` (R30, R145). -/
theorem RunInv.token_access {x : HostAccess} {s t : State} (h : RunInv s) (htoken : TokenInv s)
    (hx : Machine.access x s = .next t) : TokenInv t := by
  cases access_matchFinder hx with
  | same x hmf hin => rw [TokenInv, hmf.token]; exact htoken
  | loads x hmf hlock => rw [TokenInv, hmf.token]; exact htoken
  | noToken w hd ht => subst ht; exact .inl rfl
  | produces w hd tk pt hlen hi ht =>
    subst ht
    obtain ⟨hlegal, -, -⟩ := produced_of_iterate h.tableHolds hi
    rw [TokenInv, State.produce_token, tokenOfWord_word hlegal]
    exact .inr ⟨hlegal, rfl⟩
  | fresh x hx hfresh => exact .inl hfresh.token

end Sys2Proof.Machine

open Sys2Proof.Machine in
/-- Settles O57: every effect of an access on the MatchFinder keeps the cursor and the table. -/
theorem stepKeepsTheMatchFinder : Obligations.StepKeepsTheMatchFinder := by
  unfold Obligations.StepKeepsTheMatchFinder
  intro s t hcursor htable hstep
  have hs : RunInv s := ⟨hcursor, htable⟩
  exact step_keeps hs hstep (fun _ h => h) fun x u _ hu hx => hu.access hx

open Sys2Proof.Machine in
/-- Settles O58: the only word put in `TOKEN` is that of the legal Token an iteration produces. -/
theorem stepKeepsTheTokenLegal : Obligations.StepKeepsTheTokenLegal := by
  unfold Obligations.StepKeepsTheTokenLegal
  intro s t hcursor htable htoken hstep
  have hs : RunInv s ∧ TokenInv s := ⟨⟨hcursor, htable⟩, htoken⟩
  have ht : RunInv t ∧ TokenInv t := step_keeps (P := fun s => RunInv s ∧ TokenInv s) hs hstep (fun _ h => h)
    fun x u _ hu hx => ⟨hu.1.access hx, hu.1.token_access hu.2 hx⟩
  exact ht.2

open Sys2Proof.Machine in
/-- Settles O20: the three things an access can do to the lock. -/
theorem inLockFollowsTheRun : Obligations.InLockFollowsTheRun := by
  unfold Obligations.InLockFollowsTheRun
  intro s t x hx
  obtain ⟨hlock, hpos⟩ | ⟨w, hw, hd, hlock, hvalid⟩ | ⟨hfresh, hlock⟩ := (access_matchFinder hx).lock_cases <;>
    rw [hlock]
  · exact ⟨fun h0 h1 => by simp [h0] at h1, fun h1 h0 => by simp [h1] at h0, fun _ _ _ h => absurd hpos h⟩
  · exact ⟨fun _ _ => ⟨w, hw, hd, hvalid⟩, fun _ h0 => (Bool.noConfusion h0), fun _ _ _ _ => rfl⟩
  · refine ⟨fun _ h1 => Bool.noConfusion h1, fun _ _ => hfresh, fun w hw hd _ => ?_⟩
    obtain hreset | ⟨w', hw', hd'⟩ := hfresh
    · cases hw.symm.trans hreset
    · cases hw.symm.trans hw'
      simp [hd] at hd'

end

/-! # Proofs: which faults a command raises, and the fault registers (O59, O19, O23) -/

section
namespace Sys2Proof.Machine

/-! ## COMPRESS has room for its stream (R110, R215, R217) -/

/-- A legal Token's codes take at most nine bits for each byte it covers. -/
theorem codesWidth_token_le {tk : Token} (h : tk.legal = true) : codesWidth (codesToken tk) ≤ 9 * tk.consumed := by
  cases tk with
  | literal b =>
    show codesWidth (codesLiteral b) ≤ 9 * 1
    unfold codesLiteral
    split <;> simp [codesWidth]
  | copy length distance =>
    obtain ⟨hl, -, hd, -⟩ := (Token.legal_copy_iff _ _).1 h
    have hlengthExtra : (lengthRow length).extra ≤ 5 :=
      (by decide : ∀ r ∈ lengthTable, r.extra ≤ 5) _ (lengthRow_spec hl).1
    have hdistanceExtra : (distanceRow distance).extra ≤ 13 :=
      (by decide : ∀ r ∈ distanceTable, r.extra ≤ 13) _ (distanceRow_spec hd).1
    have hcode : ∀ symbol, (huffLength symbol).width ≤ 8 := by
      intro symbol
      unfold huffLength
      split <;> simp
    have hwidth : codesWidth (codesMatch length distance) =
        (huffLength (lengthRow length).symbol).width + (lengthRow length).extra + 5 +
          (distanceRow distance).extra := by
      simp only [codesMatch, codesWidth_append, codesWidth_extraCodes]
      simp [codesWidth, huffDistance]
    show codesWidth (codesMatch length distance) ≤ 9 * length
    rw [hwidth]
    by_cases h3 : length = 3
    · subst h3
      have hshort : (huffLength (lengthRow 3).symbol).width + (lengthRow 3).extra = 7 := by decide
      omega
    · have := hcode (lengthRow length).symbol
      omega

/-- What every pass of the loop of COMPRESS keeps: the table holds at the cursor, and the bits placed so far are
the header's and nine for each input byte passed, with room in `OUT` for those of the whole block. -/
structure RoomForBlock (s : State) : Prop where
  table : TableHolds s.inByte s.inLen.toNat s.mfPos.toNat s.pt
  cursor : s.mfPos.toNat ≤ s.inLen.toNat
  placed : s.bitLen ≤ 3 + 9 * s.mfPos.toNat
  room : 9 * s.inLen.toNat + 10 ≤ 8 * s.cfg.outCap.toNat

@[simp] theorem State.noToken_tokenValid (s : State) : s.noToken.tokenValid = false := by
  rw [State.tokenValid, State.noToken_token]; decide

theorem RoomForBlock.noToken {s : State} (h : RoomForBlock s) : RoomForBlock s.noToken :=
  ⟨h.table, h.cursor, h.placed, h.room⟩

/-- A produced Token fits, and its codes placed leave the room for the rest. -/
theorem RoomForBlock.produce {s : State} (h : RoomForBlock s) {tk : Token} {pt : PrefixTable}
    (hi : iterate s.inByte s.inLen.toNat s.mfPos.toNat s.pt = some (some tk, pt)) :
    ∃ u, (s.produce tk pt).emit (codesToken (tokenOfWord tk.word)) = .ok u ∧ RoomForBlock u := by
  obtain ⟨hlegal, hinside, htable⟩ := produced_of_iterate h.table hi
  have hpos := State.toNat_produce_mfPos hinside pt
  have hwidth := codesWidth_token_le hlegal
  have hplaced := h.placed
  have hroom := h.room
  have hlen : (s.produce tk pt).bitLen = s.bitLen := rfl
  have hfit : (s.produce tk pt).bitLen + codesWidth (codesToken tk) ≤ 8 * (s.produce tk pt).cfg.outCap.toNat := by
    rw [hlen, State.produce_cfg]; omega
  have hbits := State.bitLen_putBits (s.produce tk pt) (codesBits (codesToken tk))
    (by rwa [length_codesBits])
  rw [length_codesBits, hlen] at hbits
  rw [tokenOfWord_word hlegal]
  refine ⟨_, State.emit_of_fits hfit, ⟨?_, ?_, ?_, ?_⟩⟩
  · rw [State.putBits_mfPos, hpos]; simpa using htable
  · rw [State.putBits_mfPos, hpos]; simpa using hinside
  · rw [hbits, State.putBits_mfPos, hpos]; omega
  · simpa using hroom

/-- The loop of COMPRESS completes with the room kept, or stops on an unwritten byte (R217, R240). -/
theorem RoomForBlock.compressLoop {s : State} (h : RoomForBlock s) (fuel : Nat) :
    compressLoop fuel s = .error .unwrittenRead ∨ ∃ t, compressLoop fuel s = .ok t ∧ RoomForBlock t := by
  induction fuel generalizing s with
  | zero => exact .inr ⟨s, rfl, h⟩
  | succ fuel ih =>
    obtain ⟨-, hb⟩ | ⟨p, -, hb⟩ | ⟨tk, pt, hi, hb⟩ := mfStepBody_cases s
    · exact .inl (by simp [Machine.compressLoop, hb])
    · exact .inr ⟨s.noToken, by simp [Machine.compressLoop, hb], h.noToken⟩
    · obtain ⟨u, hemit, hu⟩ := h.produce hi
      have hvalid : (s.produce tk pt).tokenValid = true := tokenWordValid_of_iterate hi
      simpa [Machine.compressLoop, hb, hvalid, hemit] using ih hu

/-- Nine bits for each byte of the longest input, and ten more, fit a well-formed `OUT` (R10). -/
theorem Config.room_of_wf {c : Config} (h : c.wf = true) : 9 * c.inCap.toNat + 10 ≤ 8 * c.outCap.toNat := by
  simp only [Config.wf, Bool.and_eq_true, decide_eq_true_eq] at h
  omega

/-- COMPRESS raises nothing but BAD_IN_LEN in a well-formed block: its stream always fits (R217). -/
theorem compress_raised {s : State} {c : Cause} (hwf : s.cfg.wf = true) (h : compress s = .error (.raised c)) :
    c = .badInLen := by
  unfold compress at h
  rcases Nat.lt_or_ge s.cfg.inCap.toNat s.inLen.toNat with hl | hl
  · rw [checkInLen_bad hl] at h; cases h; rfl
  · rw [checkInLen_ok hl] at h
    have hroom := Config.room_of_wf hwf
    have hwidth : codesWidth headerCodes = 3 := rfl
    have hheader : s.datapathInit.emit headerCodes = .ok (s.datapathInit.putBits (codesBits headerCodes)) :=
      State.emit_of_fits (by rw [hwidth]; show 0 + 3 ≤ 8 * s.cfg.outCap.toNat; omega)
    have hstart : RoomForBlock (s.datapathInit.putBits (codesBits headerCodes)) := by
      refine ⟨by simpa using .nil _ _ _, by simp, ?_, by simp; omega⟩
      rw [State.bitLen_putBits _ _ (by show 0 + 3 ≤ 8 * s.cfg.outCap.toNat; omega)]
      simp [State.bitLen, hwidth]
    simp only [compressBody, hheader] at h
    obtain hstop | ⟨u, hloop, hu⟩ := hstart.compressLoop (s.inLen.toNat + 1)
    · simp [hstop] at h
    · have hcursor := hu.cursor
      have hplaced := hu.placed
      have hroom' := hu.room
      have heob : u.emit eobCodes = .ok (u.putBits (codesBits eobCodes)) :=
        State.emit_of_fits (by show u.bitLen + 7 ≤ _; omega)
      simp [hloop, heob] at h

/-! ## The cause each command raises (R231) -/

theorem bpAdd_raised {order : BitOrder} {value : Word} {n : Nat} {s : State} {c : Cause}
    (h : bpAdd order value n s = .error (.raised c)) :
    (legalWidth n = false ∧ c = .badWidth) ∨ (legalWidth n = true ∧ c = .outOverflow) := by
  unfold bpAdd at h
  split at h
  · rename_i hn
    exact .inr ⟨hn, by cases (State.emit_error h).1; rfl⟩
  · rename_i hn
    cases h; exact .inl ⟨Bool.eq_false_iff.2 hn, rfl⟩

theorem seMatch_raised {length distance : Nat} {s : State} {c : Cause}
    (h : seMatch length distance s = .error (.raised c)) :
    (legalLength length = false ∧ c = .badLength) ∨
    (legalLength length = true ∧ legalDistance distance = false ∧ c = .badDistance) ∨
    (legalLength length = true ∧ legalDistance distance = true ∧ c = .outOverflow) := by
  unfold seMatch at h
  split at h
  · rename_i hl
    split at h
    · rename_i hd
      exact .inr (.inr ⟨hl, hd, by cases (State.emit_error h).1; rfl⟩)
    · rename_i hd
      cases h; exact .inr (.inl ⟨hl, Bool.eq_false_iff.2 hd, rfl⟩)
  · rename_i hl
    cases h; exact .inl ⟨Bool.eq_false_iff.2 hl, rfl⟩

theorem seToken_raised {s : State} {c : Cause} (h : seToken s = .error (.raised c)) : c = .outOverflow := by
  unfold seToken at h
  split at h
  · cases (State.emit_error h).1; rfl
  · cases h

theorem mfStep_raised {s : State} {c : Cause} (h : mfStep s = .error (.raised c)) : c = .badInLen := by
  rcases Nat.lt_or_ge s.cfg.inCap.toNat s.inLen.toNat with hl | hl
  · rw [mfStep_bad hl] at h; cases h; rfl
  · rw [mfStep_ok hl] at h
    obtain ⟨-, hb⟩ | ⟨p, -, hb⟩ | ⟨tk, pt, -, hb⟩ := mfStepBody_cases s <;> rw [hb] at h <;> cases h

/-- The cause a command raises is one that the table of causes has beside it (R231). -/
theorem causeRecords_of_bodyOf {i : Instr} {s : State} {c : Cause} {w : CommandWord} (hwf : s.cfg.wf = true)
    (hd : decode w = .ok i) (hb : bodyOf i s = .error (.raised c)) : causeRecords c.code w = true := by
  have hemit : ∀ {cs : List Code}, s.emit cs = .error (.raised c) → c = .outOverflow := fun h => by
    cases (State.emit_error h).1; rfl
  cases i with
  | init => cases hb
  | bpAddLsb value n =>
    obtain ⟨hn, rfl⟩ | ⟨hn, rfl⟩ := bpAdd_raised hb <;> simp [causeRecords, Cause.code, hd, hn]
  | bpAddMsb value n =>
    obtain ⟨hn, rfl⟩ | ⟨hn, rfl⟩ := bpAdd_raised hb <;> simp [causeRecords, Cause.code, hd, hn]
  | bpFinish => cases hb
  | mfStep => cases mfStep_raised hb; simp [causeRecords, Cause.code, hd]
  | seHeader => cases hemit hb; simp [causeRecords, Cause.code, hd]
  | seLiteral lit => cases hemit hb; simp [causeRecords, Cause.code, hd]
  | seMatch length distance =>
    obtain ⟨hl, rfl⟩ | ⟨hl, hdist, rfl⟩ | ⟨hl, hdist, rfl⟩ := seMatch_raised hb <;>
      simp [causeRecords, Cause.code, *]
  | seToken => cases seToken_raised hb; simp [causeRecords, Cause.code, hd]
  | seEob => cases hemit hb; simp [causeRecords, Cause.code, hd]
  | compress => cases compress_raised hwf hb; simp [causeRecords, Cause.code, hd]

/-! ## Which access raises which fault -/

/-- A row of the decoder's table gives a well-formed command if its own command and the rows after it do. -/
theorem wf_of_row {selected : Prop} [Decidable selected] {a i : Instr} {later : Except IllegalCommand Instr}
    (ha : a.wf = true) (hlater : later = .ok i → i.wf = true)
    (h : (if selected then .ok a else later) = .ok i) : i.wf = true := by
  split at h
  · cases h; exact ha
  · exact hlater h

/-- A legal word's command is well formed: its operands are the word's fields (R72, R74). -/
theorem wf_of_decode {w : CommandWord} {i : Instr} (h : decode w = .ok i) : i.wf = true := by
  have hlsb : (Instr.bpAddLsb (valueField w) (widthField w)).wf = true := decide_eq_true (BitVec.isLt _)
  have hmsb : (Instr.bpAddMsb (valueField w) (widthField w)).wf = true := decide_eq_true (BitVec.isLt _)
  have hmatch : (Instr.seMatch (lengthField w) (distanceField w)).wf = true :=
    Bool.and_eq_true_iff.2 ⟨decide_eq_true (BitVec.isLt _), decide_eq_true (BitVec.isLt _)⟩
  unfold decode at h
  refine wf_of_row rfl (wf_of_row hlsb <| wf_of_row hmsb <| wf_of_row rfl <| wf_of_row rfl <| wf_of_row rfl <|
    wf_of_row rfl <| wf_of_row hmatch <| wf_of_row rfl <| wf_of_row rfl <| wf_of_row rfl fun hillegal => ?_) h
  split at hillegal <;> cases hillegal

/-- The encoding of a well-formed command decodes to it. -/
theorem decode_encode_of_wf {i : Instr} (h : i.wf = true) : decode (encode i) = .ok i := by
  cases i with
  | init => exact Laws.Encoding.init h
  | bpAddLsb value n => exact Laws.Encoding.bpAddLsb value n h
  | bpAddMsb value n => exact Laws.Encoding.bpAddMsb value n h
  | bpFinish => exact Laws.Encoding.bpFinish h
  | mfStep => exact Laws.Encoding.mfStep h
  | seHeader => exact Laws.Encoding.seHeader h
  | seLiteral lit => exact Laws.Encoding.seLiteral lit h
  | seMatch length distance => exact Laws.Encoding.seMatch length distance h
  | seToken => exact Laws.Encoding.seToken h
  | seEob => exact Laws.Encoding.seEob h
  | compress => exact Laws.Encoding.compress h

/-- The causes an access of the host can raise, each with the word `FAULT_CMD` records (R35, R231). -/
inductive Raises (s : State) : HostAccess → Cause → CommandWord → Prop where
  /-- An illegal word (R77). -/
  | illegal (w : CommandWord) (e : IllegalCommand) (hd : decode w = .error e) :
      Raises s (.command w) .illegalCmd w
  /-- A legal command whose pseudocode raises. -/
  | command (w : CommandWord) (i : Instr) (c : Cause) (hd : decode w = .ok i)
      (hb : bodyOf i s = .error (.raised c)) : Raises s (.command w) c (encode i)
  /-- A write of `IN` during a run (R51). -/
  | lockedIn (a : Nat) (b : Byte) (hl : s.inLock = true) : Raises s (.writeIn a b) .lockedWrite 0#64
  /-- A write of `IN_LEN` during a run (R38). -/
  | lockedInLen (v : Word) (hl : s.inLock = true) : Raises s (.writeReg 3#4 v) .lockedWrite 0#64

theorem hostReadByte_fault (value : Option Byte) (cap a : Nat) (s : State) :
    (hostReadByte value cap a s).fault = s.fault := by
  unfold hostReadByte
  split
  · rfl
  · split <;> rfl

/-- An access that takes `FAULT` from 0 to 1 is the entry of a fault it raises. -/
theorem access_raises {x : HostAccess} {s t : State} (h : access x s = .next t) (hs : s.fault = false)
    (ht : t.fault = true) : ∃ c w, Raises s x c w ∧ t = s.enterFault c w := by
  have hchanged : t ≠ s := fun e => by rw [e, hs] at ht; cases ht
  cases x with
  | command w =>
    cases hd : decode w with
    | error e =>
      simp only [access, writeCommand_of_illegal hd, State.raise_of_no_fault hs] at h
      cases h; exact ⟨_, _, .illegal w e hd, rfl⟩
    | ok i =>
      simp only [access, writeCommand_of_decode hd, exec_eq_runCommand] at h
      obtain ⟨-, rfl⟩ | ⟨-, hb⟩ | ⟨-, c, hb, rfl⟩ := runCommand_cases h
      · exact absurd rfl hchanged
      · rw [(bodyOf_outside hb).fault, hs] at ht; cases ht
      · exact ⟨_, _, .command w i c hd hb, rfl⟩
  | writeIn a b =>
    simp only [access, hostWriteIn, State.raise_of_no_fault hs] at h
    cases h
    split at ht
    · rw [hs] at ht; cases ht
    · split at ht
      · exact ⟨_, _, .lockedIn a b (by assumption), by simp [*]⟩
      · rw [State.storeIn_fault, hs] at ht; cases ht
  | writeReg r v =>
    simp only [access, hostWriteReg, State.writeRegister, State.raise_of_no_fault hs] at h
    cases h
    split at ht
    · rename_i hr
      subst hr
      split at ht
      · exact ⟨_, _, .lockedInLen v (by assumption), by simp [*]⟩
      · rw [State.withInLen_fault, hs] at ht; cases ht
    · rw [hs] at ht; cases ht
  | readIn a => cases h; rw [hostReadIn, hostReadByte_fault, hs] at ht; cases ht
  | writeOut a b => cases h; exact absurd rfl hchanged
  | readOut a => cases h; rw [hostReadOut, hostReadByte_fault, hs] at ht; cases ht
  | readReg r => cases h; exact absurd (hs.symm.trans ht) Bool.false_ne_true
  | reset => cases h; cases ht

/-- What each raise records is in the table of causes (R231). -/
theorem Raises.causeRecords {s : State} {x : HostAccess} {c : Cause} {w : CommandWord} (h : Raises s x c w)
    (hwf : s.cfg.wf = true) : causeRecords c.code w = true := by
  cases h with
  | illegal w e hd => simp [Machine.causeRecords, Cause.code, hd]
  | command w i c hd hb => exact causeRecords_of_bodyOf hwf (decode_encode_of_wf (wf_of_decode hd)) hb
  | lockedIn a b hl => decide
  | lockedInLen v hl => decide

/-! ## The fault registers -/

/-- The codes of the seven causes are not 0 (R231). -/
theorem Cause.code_ne_zero (c : Cause) : c.code ≠ 0#4 := by cases c <;> decide

/-- The fault registers stay, or they are a fault's that the access raises, or reset's. -/
theorem faultInv_access {x : HostAccess} {s t : State} (h : FaultInv s) (hwf : s.cfg.wf = true)
    (hx : access x s = .next t) : FaultInv t := by
  cases access_effect hx with
  | body w i hd hf hb =>
    have hout := bodyOf_outside hb
    rw [FaultInv, hout.fault, hout.cause, hout.faultCmd]; exact h
  | same x ht => subst ht; exact h
  | raised x c w hf ht =>
    obtain ⟨c', w', hraises, rfl⟩ := access_raises hx hf (by rw [ht, State.enterFault_fault])
    exact ⟨⟨fun _ => c'.code_ne_zero, fun _ => rfl⟩, hraises.causeRecords hwf⟩
  | reset ht => subst ht; exact ⟨by simp, rfl⟩
  | reply x rs d ht => subst ht; exact h
  | storeIn a b hl ha ht => subst ht; exact h
  | storeInLen v hl ht => subst ht; exact h

/-- `FAULT` stays 1 in every access but reset (R236). -/
theorem eq_reset_of_fault_cleared {x : HostAccess} {s t : State} (hx : access x s = .next t)
    (hs : s.fault = true) (ht : t.fault = false) : x = .reset := by
  have hkept : ∀ u : State, t = u → u.fault = s.fault → x = .reset := fun u hu hf => by
    rw [hu, hf, hs] at ht; cases ht
  cases access_effect hx with
  | body w i hd hf hb => exact hkept t rfl (bodyOf_outside hb).fault
  | same x h => exact hkept s h rfl
  | raised x c w hf h => rw [hf] at hs; cases hs
  | reset h => rfl
  | reply x rs d h => exact hkept _ h rfl
  | storeIn a b hl ha h => exact hkept _ h rfl
  | storeInLen v hl h => exact hkept _ h rfl

end Sys2Proof.Machine

open Sys2Proof.Machine in
/-- Settles O59: every fault that an access raises is one the table of causes has beside its word. -/
theorem stepKeepsTheFaultRecordTrue : Obligations.StepKeepsTheFaultRecordTrue := by
  unfold Obligations.StepKeepsTheFaultRecordTrue
  intro s t hs hstep
  exact step_keeps (P := FaultInv) hs hstep (fun _ h => h) fun x u hwf hu hx => faultInv_access hu hwf hx

open Sys2Proof.Machine in
/-- Settles O19: the accesses that clear and that raise a fault. -/
theorem onlyResetClearsFault : Obligations.OnlyResetClearsFault := by
  unfold Obligations.OnlyResetClearsFault
  refine fun s t x hx => ⟨eq_reset_of_fault_cleared hx, fun hs ht => ?_⟩
  obtain ⟨c, w, hraises, -⟩ := access_raises hx hs ht
  cases hraises with
  | illegal w e hd => exact .inl ⟨w, rfl⟩
  | command w i c hd hb => exact .inl ⟨w, rfl⟩
  | lockedIn a b hl => exact .inr ⟨hl, .inl ⟨a, b, rfl⟩⟩
  | lockedInLen v hl => exact .inr ⟨hl, .inr ⟨v, rfl⟩⟩

open Sys2Proof.Machine in
/-- Settles O23: no body writes outside the datapath, and fault entry writes the fault registers alone. -/
theorem commandsLeaveTheInputAlone : Obligations.CommandsLeaveTheInputAlone := by
  unfold Obligations.CommandsLeaveTheInputAlone
  intro i s t h
  rw [exec_eq_runCommand] at h
  obtain ⟨-, rfl⟩ | ⟨-, hb⟩ | ⟨-, c, -, rfl⟩ := runCommand_cases h
  · exact ⟨rfl, rfl, rfl, rfl, rfl, rfl, rfl, .inl ⟨rfl, rfl, rfl⟩⟩
  · have hout := bodyOf_outside hb
    exact ⟨hout.cfg, hout.inMem, hout.inWritten, hout.inLen, hout.pending, hout.replies, hout.draws,
      .inl ⟨hout.fault, hout.cause, hout.faultCmd⟩⟩
  · exact ⟨rfl, rfl, rfl, rfl, rfl, rfl, rfl, .inr ⟨c, rfl⟩⟩

end

/-! # Proofs: the result's length, the register map, and the scan under eviction (O21, O10, O11, O45) -/

section
namespace Sys2Proof.Machine

/-- `OUT_LEN` in each effect of a command (R34). -/
theorem BodyEffect.outLen_cases {i : Instr} {s t : State} (h : BodyEffect s t i) :
    t.outLen = s.outLen ∨ i = .bpFinish ∨ i = .compress ∨ (i = .init ∧ t.outLen = 0#32) := by
  cases h with
  | places i bits hfit h => subst h; exact .inl (s.putBits_outLen bits)
  | finishes h => exact .inr (.inl rfl)
  | noToken h => subst h; exact .inl rfl
  | produces tk pt hlen hi h => subst h; exact .inl rfl
  | inits h => subst h; exact .inr (.inr (.inr ⟨rfl, rfl⟩))
  | compresses h => exact .inr (.inr (.inl rfl))

/-- Registers 10 to 15 read 0 (R36). -/
theorem State.readRegister_of_ten_le {s : State} {r : RegNo} (h : 10 ≤ r.toNat) : s.readRegister r = 0#32 := by
  unfold State.readRegister
  split
  case h_11 => rfl
  all_goals omega

/-- The registers 1 and 2 are the two halves of `FAULT_CMD` (R36). -/
theorem State.readRegister_faultCmd (s : State) : s.readRegister 2#4 ++ s.readRegister 1#4 = s.faultCmd :=
  (eq_append 32 32 s.faultCmd).symm

/-- Every field of a word laid out as `STATUS` reads back (R36): two bits and the four of `CAUSE`, so 64 cases. -/
theorem statusLayout_fields : ∀ (fault inLock : Bool) (cause : BitVec 4),
    let w : Word := 0#23 ++ BitVec.ofBool inLock ++ cause ++ 0#3 ++ BitVec.ofBool fault
    w.getLsbD 0 = fault ∧ w.extractLsb' 1 3 = 0#3 ∧ w.extractLsb' 4 4 = cause ∧ w.getLsbD 8 = inLock ∧
      w.extractLsb' 9 23 = 0#23 := by decide

/-- The fields of `STATUS` (R36). -/
theorem State.status_fields (s : State) :
    s.status.getLsbD 0 = s.fault ∧ s.status.extractLsb' 1 3 = 0#3 ∧ s.status.extractLsb' 4 4 = s.cause ∧
      s.status.getLsbD 8 = s.inLock ∧ s.status.extractLsb' 9 23 = 0#23 :=
  statusLayout_fields s.fault s.inLock s.cause

/-- The scan stops at the first candidate out of the window, so nothing behind such candidates counts (R136). -/
theorem scan_append_far {rd : Nat → Option Byte} {i n : Nat} {far : List Nat} (hfar : ∀ c ∈ far, window < i - c)
    (near : List Nat) (best : Nat × Nat) : scan rd i n (near ++ far) best = scan rd i n near best := by
  induction near generalizing best with
  | nil =>
    cases far with
    | nil => rfl
    | cons c older => simp [scan, hfar c List.mem_cons_self]
  | cons c older ih => simp only [List.cons_append, scan, ih]

/-- From most recent to oldest, the candidates in the window come first, so the scan may see them alone (R29). -/
theorem scan_filter_near {rd : Nat → Option Byte} {i n : Nat} {cs : List Nat} (hs : cs.Pairwise (· > ·))
    (best : Nat × Nat) :
    scan rd i n (cs.filter fun p => decide (i - p ≤ window)) best = scan rd i n cs best := by
  induction cs generalizing best with
  | nil => rfl
  | cons c older ih =>
    obtain ⟨hc, hs'⟩ := List.pairwise_cons.1 hs
    by_cases hw : i - c ≤ window
    · rw [List.filter_cons, if_pos (decide_eq_true hw)]
      simp only [scan, ih hs']
    · have hfar : ∀ p ∈ c :: older, window < i - p := by
        intro p hp
        obtain rfl | hp := List.mem_cons.1 hp
        · omega
        · have := hc p hp; omega
      have hnone : (c :: older).filter (fun p => decide (i - p ≤ window)) = [] :=
        List.filter_eq_nil_iff.2 fun p hp => by rw [decide_eq_true_iff]; have := hfar p hp; omega
      rw [hnone]
      exact (scan_append_far hfar [] best).symm

/-- Behind `m` distinct earlier positions there is only what lies more than `m` back. -/
theorem lt_of_mem_drop {i m : Nat} {cs : List Nat} (hs : cs.Pairwise (· > ·)) (hi : ∀ c ∈ cs, c < i) {c : Nat}
    (hc : c ∈ cs.drop m) : c + m < i := by
  induction cs generalizing i m with
  | nil => simp at hc
  | cons d older ih =>
    cases m with
    | zero => exact hi c hc
    | succ m =>
      obtain ⟨hd, hs'⟩ := List.pairwise_cons.1 hs
      have hlt : c + m < d := ih hs' hd hc
      have := hi d List.mem_cons_self
      omega

/-- The `WINDOW` most recent of the earlier positions are all the scan can use (R29). -/
theorem scan_take_window {rd : Nat → Option Byte} {i n : Nat} {cs : List Nat} (hs : cs.Pairwise (· > ·))
    (hi : ∀ c ∈ cs, c < i) (best : Nat × Nat) : scan rd i n (cs.take window) best = scan rd i n cs best := by
  have hfar : ∀ c ∈ cs.drop window, window < i - c := fun c hc => by have := lt_of_mem_drop hs hi hc; omega
  rw [← scan_append_far hfar, List.take_append_drop]

/-- A write of a register other than `IN_LEN` is ignored (R37). -/
theorem State.writeRegister_of_ne {r : RegNo} (h : r ≠ 3#4) (s : State) (v : Word) : s.writeRegister r v = s :=
  if_neg h

/-- A write of `IN_LEN` outside a run is accepted (R38). -/
theorem State.writeRegister_of_unlocked {s : State} (h : s.inLock = false) (v : Word) :
    s.writeRegister 3#4 v = s.withInLen v := by simp [State.writeRegister, h]

/-- A write of `IN_LEN` during a run raises LOCKED_WRITE (R38). -/
theorem State.writeRegister_of_locked {s : State} (h : s.inLock = true) (v : Word) :
    s.writeRegister 3#4 v = s.raise .lockedWrite 0#64 := by simp [State.writeRegister, h]

end Sys2Proof.Machine

open Sys2Proof.Machine in
/-- Settles O21: `OUT_LEN` in each effect of an access. -/
theorem outLenIsWrittenByFinishes : Obligations.OutLenIsWrittenByFinishes := by
  unfold Obligations.OutLenIsWrittenByFinishes
  intro s t x hx hne
  cases access_effect hx with
  | body w i hd hf hb =>
    obtain heq | rfl | rfl | ⟨rfl, hzero⟩ := (bodyOf_effect hb).outLen_cases
    · exact absurd heq hne
    · exact .inr ⟨w, rfl, .inl hd⟩
    · exact .inr ⟨w, rfl, .inr (.inl hd)⟩
    · exact .inr ⟨w, rfl, .inr (.inr ⟨hd, hzero⟩)⟩
  | same x h => subst h; exact absurd rfl hne
  | raised x c w hf h => subst h; exact absurd rfl hne
  | reset h => subst h; exact .inl ⟨rfl, rfl⟩
  | reply x rs d h => subst h; exact absurd rfl hne
  | storeIn a b hl ha h => subst h; exact absurd rfl hne
  | storeInLen v hl h => subst h; exact absurd rfl hne

open Sys2Proof.Machine in
/-- Settles O45: both evictions drop only candidates behind the point where the scan stops. -/
theorem evictionLeavesTheScanUnchanged : Obligations.EvictionLeavesTheScanUnchanged := by
  unfold Obligations.EvictionLeavesTheScanUnchanged
  intro rd i n ps hs hi
  have hs' : ps.reverse.Pairwise (· > ·) := List.pairwise_reverse.2 hs
  have hi' : ∀ c ∈ ps.reverse, c < i := fun c hc => hi c (List.mem_reverse.1 hc)
  exact ⟨by rw [← List.filter_reverse, scan_filter_near hs'], scan_take_window hs' hi' _⟩

open Sys2Proof.Machine in
/-- Settles O10: the register map, register by register. -/
theorem registerReadsFollowTheMap : Obligations.RegisterReadsFollowTheMap := by
  unfold Obligations.RegisterReadsFollowTheMap
  refine ⟨fun _ _ => rfl, fun s => ?_⟩
  obtain ⟨hfault, hlow, hcause, hlock, hhigh⟩ := s.status_fields
  exact ⟨hfault, hlow, hcause, hlock, hhigh, s.readRegister_faultCmd, rfl, rfl, rfl, rfl, rfl, rfl, rfl,
    fun _ => State.readRegister_of_ten_le⟩

open Sys2Proof.Machine in
/-- Settles O11: what a write at the register port does, by register, lock and fault. -/
theorem registerWritesReachOnlyInLen : Obligations.RegisterWritesReachOnlyInLen := by
  unfold Obligations.RegisterWritesReachOnlyInLen
  intro s r v
  refine ⟨fun hr => ?other, fun hl => ?unlocked, fun hl hf => ?raises, fun hl hf => ?faulted⟩ <;>
    simp only [access, hostWriteReg]
  case other => rw [State.writeRegister_of_ne hr]
  case unlocked => rw [State.writeRegister_of_unlocked hl]; rfl
  case raises => rw [State.writeRegister_of_locked hl, State.raise_of_no_fault hf]; rfl
  case faulted => rw [State.writeRegister_of_locked hl, State.raise_of_fault hf]

end

/-! # Proofs: the host's side of the memories, and what the commands write (O7, O12, O13, O22, O24, O32) -/

section
namespace Sys2Proof.Machine

/-! ## The host's writes and reads of the memories -/

/-- A write at or above IN_CAP is ignored (R51). -/
theorem hostWriteIn_of_outside {s : State} {a : Nat} (h : s.cfg.inCap.toNat ≤ a) (b : Byte) :
    hostWriteIn a b s = s := if_pos h

/-- A write during a run raises LOCKED_WRITE (R51). -/
theorem hostWriteIn_of_locked {s : State} {a : Nat} (h : a < s.cfg.inCap.toNat) (hl : s.inLock = true) (b : Byte) :
    hostWriteIn a b s = s.raise .lockedWrite 0#64 := by simp [hostWriteIn, hl, Nat.not_le.2 h]

/-- A write outside a run stores the byte (R51). -/
theorem hostWriteIn_of_unlocked {s : State} {a : Nat} (h : a < s.cfg.inCap.toNat) (hl : s.inLock = false) (b : Byte) :
    hostWriteIn a b s = s.storeIn a b := by simp [hostWriteIn, hl, Nat.not_le.2 h]

/-- A store to `IN` leaves every other byte and flag as they were (R51). -/
theorem State.sameInAt_storeIn (s : State) {a a' : Nat} (h : a' ≠ a) (b : Byte) : SameInAt s (s.storeIn a b) a' :=
  ⟨by simp [h], by simp [State.inWrittenAt, h]⟩

/-- A read at or above the capacity answers 0x00 (R52, R53). -/
theorem hostReadByte_of_outside {cap a : Nat} (h : cap ≤ a) (value : Option Byte) (s : State) :
    hostReadByte value cap a s = s.reply (.byte 0x00#8) := if_pos h

/-- A read of a byte that holds a value answers it (R52, R53). -/
theorem hostReadByte_some {cap a : Nat} (h : a < cap) (b : Byte) (s : State) :
    hostReadByte (some b) cap a s = s.reply (.byte b) := if_neg (Nat.not_le.2 h)

/-- A read of a byte that holds no value answers the byte drawn at it (R52, R53). -/
theorem hostReadByte_none {cap a : Nat} (h : a < cap) (s : State) :
    hostReadByte none cap a s = (s.reply (.byte (Config.freeByte s.draws))).drawn := if_neg (Nat.not_le.2 h)

/-! ## What a command writes when it raises no fault -/

/-- A command whose pseudocode completes takes the block to the state it gives (R16). -/
theorem exec_of_bodyOf {i : Instr} {s t : State} (hf : s.fault = false) (hb : bodyOf i s = .ok t) :
    exec i s = .next t := by
  rw [exec_eq_runCommand]; exact runCommand_ok hf hb _

/-- A command that does not enter the fault state does nothing (because `FAULT` = 1) or runs its pseudocode. -/
theorem exec_unraised_cases {i : Instr} {s t : State} (h : exec i s = .next t) (hf : t.fault = s.fault) :
    t = s ∨ bodyOf i s = .ok t := by
  rw [exec_eq_runCommand] at h
  obtain ⟨-, ht⟩ | ⟨-, hb⟩ | ⟨hs, c, -, rfl⟩ := runCommand_cases h
  · exact .inl ht
  · exact .inr hb
  · rw [hs] at hf; cases hf

/-- Placing bits that fit moves `BP_K` up to where the stream then ends, and writes `OUT` only in between (R56). -/
theorem State.putBits_outFrame {s : State} {bits : List Bool}
    (hfit : bits ≠ [] → s.bitLen + bits.length ≤ 8 * s.cfg.outCap.toNat) :
    s.bpK.toNat ≤ (s.putBits bits).bpK.toNat ∧
      ∀ a, a < s.bpK.toNat ∨ (s.putBits bits).bpK.toNat ≤ a → SameOutAt s (s.putBits bits) a := by
  cases bits with
  | nil => exact ⟨le_rfl, fun _ _ => ⟨rfl, rfl⟩⟩
  | cons b rest =>
    have hfit := hfit (List.cons_ne_nil b rest)
    have hk := s.bpK_eq
    have hk' : (s.putBits (b :: rest)).bpK.toNat = (s.bitLen + (b :: rest).length) / 8 := by
      rw [State.bpK_eq, s.bitLen_putBits _ hfit]
    rw [hk']
    exact ⟨by omega, fun a => s.sameOutAt_putBits _ a hfit⟩

/-- The effect of a command other than BP_FINISH, MF_STEP, INIT and COMPRESS is bits placed at the cursor. -/
theorem BodyEffect.places_of_ne {i : Instr} {s t : State} (h : BodyEffect s t i)
    (hi : i ≠ .bpFinish ∧ i ≠ .mfStep ∧ i ≠ .init ∧ i ≠ .compress) :
    ∃ bits, (bits ≠ [] → s.bitLen + bits.length ≤ 8 * s.cfg.outCap.toNat) ∧ t = s.putBits bits := by
  obtain ⟨hfinish, hstep, hinit, hcompress⟩ := hi
  cases h with
  | places i bits hfit ht => exact ⟨bits, hfit, ht⟩
  | finishes ht => exact absurd rfl hfinish
  | noToken ht => exact absurd rfl hstep
  | produces tk pt hlen hiter ht => exact absurd rfl hstep
  | inits ht => exact absurd rfl hinit
  | compresses hc => exact absurd rfl hcompress

/-- No command but INIT and COMPRESS lowers `BP_K` or writes a complete byte of `OUT` (R56). -/
theorem BodyEffect.keeps_completeBytes {i : Instr} {s t : State} (h : BodyEffect s t i) (hinit : i ≠ .init)
    (hcompress : i ≠ .compress) :
    s.bpK.toNat ≤ t.bpK.toNat ∧ ∀ a, a < s.bpK.toNat → SameOutAt s t a := by
  cases h with
  | places i bits hfit ht =>
    subst ht
    obtain ⟨hle, hsame⟩ := State.putBits_outFrame hfit
    exact ⟨hle, fun a ha => hsame a (.inl ha)⟩
  | finishes ht =>
    subst ht
    exact ⟨by rw [State.finishBody_bpK], fun a ha => s.sameOutAt_finishBody (Nat.ne_of_lt ha)⟩
  | noToken ht => subst ht; exact ⟨le_rfl, fun _ _ => ⟨rfl, rfl⟩⟩
  | produces tk pt hlen hi ht => subst ht; exact ⟨le_rfl, fun _ _ => ⟨rfl, rfl⟩⟩
  | inits ht => exact absurd rfl hinit
  | compresses hc => exact absurd rfl hcompress

/-- MF_STEP writes nothing but `PT`, `TOKEN`, `MF_POS` and `IN_LOCK` (R133, R143). -/
theorem mfStepBody_frame {s t : State} (h : mfStepBody s = .ok t) :
    t = { s with pt := t.pt, token := t.token, mfPos := t.mfPos, inLock := t.inLock } := by
  obtain rfl | ⟨tk, pt, rfl, -⟩ := mfStepBody_ok h <;> rfl

/-! ## The stream in the bytes of `OUT` (R59) -/

/-- The bits of a complete byte are the stream bits at its place (R32). -/
theorem State.streamBit_complete {s : State} {k r : Nat} (hk : k < s.bpK.toNat) (hr : r < 8) {b : Byte}
    (hb : s.outByte k = some b) : s.streamBit (8 * k + r) = some (b.getLsbD r) := by
  have hbyte : (8 * k + r) / 8 = k := by omega
  have hbit : (8 * k + r) % 8 = r := by omega
  rw [State.streamBit, if_pos (by omega), hbyte, hbit, hb, Option.map_some]

/-- The bits of a clean partial byte are the last stream bits, and 0 past the end of the stream (R31, R32). -/
theorem State.streamBit_partial {s : State} (hc : CurClean s) {r : Nat} (hr : r < 8) :
    (s.streamBit (8 * s.bpK.toNat + r)).getD false = s.cur.getLsbD r := by
  have hbit : (8 * s.bpK.toNat + r) % 8 = r := by omega
  rw [State.streamBit, if_neg (by omega), hbit]
  by_cases hend : r < s.fill.toNat
  · rw [if_pos (by unfold State.bitLen; omega), Option.getD_some]
  · have hpad : s.cur.getLsbD r = false :=
      Nat.testBit_lt_two_pow (lt_of_lt_of_le hc (Nat.pow_le_pow_right Nat.two_pos (by omega)))
    rw [if_neg (by unfold State.bitLen; omega), Option.getD_none, hpad]

/-- After a finish every byte of the result holds the stream bits at its place, zero-padded (R59, R104). -/
theorem State.finishBody_holdsStream {s : State} (h : BitPackerInv s) {k : Nat} (hk : k < s.finishBody.outLen.toNat) :
    ∃ b, s.finishBody.outByte k = some b ∧
      ∀ r, r < 8 → b.getLsbD r = (s.streamBit (8 * k + r)).getD false := by
  obtain ⟨hclean, hfit, hcomplete, -⟩ := h
  rw [State.outByte_finishBody]
  by_cases hlast : k = s.bpK.toNat
  · subst hlast
    have hfill : s.fill ≠ 0#3 := by
      intro h0
      have hzero : s.fill.toNat = 0 := by simp [h0]
      have hlen : s.bitLen = 8 * s.bpK.toNat + s.fill.toNat := rfl
      rw [s.finishBody_outLen hfit] at hk
      omega
    exact ⟨s.cur, if_pos ⟨hfill, rfl⟩, fun r hr => (State.streamBit_partial hclean hr).symm⟩
  · have hlt : k < s.bpK.toNat := by
      have hkeq := s.bpK_eq
      rw [s.finishBody_outLen hfit] at hk
      omega
    obtain ⟨b, hb⟩ := Option.isSome_iff_exists.1 (hcomplete k hlt)
    refine ⟨b, by rw [if_neg fun hp => hlast hp.2, hb], fun r hr => ?_⟩
    rw [State.streamBit_complete hlt hr hb, Option.getD_some]

end Sys2Proof.Machine

open Sys2Proof.Machine in
/-- Settles O12: a write of `IN` by range, lock and fault. -/
theorem hostWritesOfTheMemories : Obligations.HostWritesOfTheMemories := by
  unfold Obligations.HostWritesOfTheMemories
  intro s a b
  refine ⟨fun ha => ?outside, fun ha hl hf => ?raises, fun ha hl hf => ?faulted, fun ha hl => ?stores, rfl⟩ <;>
    simp only [access]
  case outside => rw [hostWriteIn_of_outside ha]
  case raises => rw [hostWriteIn_of_locked ha hl, State.raise_of_no_fault hf]; rfl
  case faulted => rw [hostWriteIn_of_locked ha hl, State.raise_of_fault hf]
  case stores =>
    rw [hostWriteIn_of_unlocked ha hl]
    exact ⟨s.storeIn a b, rfl, rfl, by simp [State.inWrittenAt], by simp, fun _ h => s.sameInAt_storeIn h b⟩

open Sys2Proof.Machine in
/-- Settles O22: the complete bytes in each effect of an access. -/
theorem completeBytesAreFinal : Obligations.CompleteBytesAreFinal := by
  unfold Obligations.CompleteBytesAreFinal
  intro s t x hx hreset hcommand
  cases access_effect hx with
  | body w i hd hf hb =>
    obtain ⟨hinit, hcompress⟩ := hcommand w rfl
    exact (bodyOf_effect hb).keeps_completeBytes (fun h => hinit (h ▸ hd)) (fun h => hcompress (h ▸ hd))
  | same x h => subst h; exact ⟨le_rfl, fun _ _ => ⟨rfl, rfl⟩⟩
  | raised x c w hf h => subst h; exact ⟨le_rfl, fun _ _ => ⟨rfl, rfl⟩⟩
  | reset h => exact absurd rfl hreset
  | reply x rs d h => subst h; exact ⟨le_rfl, fun _ _ => ⟨rfl, rfl⟩⟩
  | storeIn a b hl ha h => subst h; exact ⟨le_rfl, fun _ _ => ⟨rfl, rfl⟩⟩
  | storeInLen v hl h => subst h; exact ⟨le_rfl, fun _ _ => ⟨rfl, rfl⟩⟩

open Sys2Proof.Machine in
/-- Settles O24: the frame of each kind of body; while `FAULT` = 1 nothing changes at all. -/
theorem commandFrames : Obligations.CommandFrames := by
  unfold Obligations.CommandFrames
  refine ⟨fun i s t h hf hi => ?places, fun s t h => ?finish, fun s t h hf => ?mfStep⟩
  case places =>
    have hplaces : i ≠ .bpFinish ∧ i ≠ .mfStep ∧ i ≠ .init ∧ i ≠ .compress := by
      obtain ⟨v, n, rfl⟩ | ⟨v, n, rfl⟩ | rfl | ⟨b, rfl⟩ | ⟨l, d, rfl⟩ | rfl | rfl := hi <;> simp
    obtain rfl | hb := exec_unraised_cases h hf
    · exact ⟨rfl, fun _ _ => ⟨rfl, rfl⟩⟩
    · obtain ⟨bits, hfit, rfl⟩ := (bodyOf_effect hb).places_of_ne hplaces
      obtain ⟨-, hsame⟩ := State.putBits_outFrame hfit
      exact ⟨s.putBits_frame bits, hsame⟩
  case finish =>
    rw [exec_eq_runCommand] at h
    obtain ⟨-, rfl⟩ | ⟨-, hb⟩ | ⟨-, c, hb, -⟩ := runCommand_cases h
    · exact ⟨rfl, fun _ _ => ⟨rfl, rfl⟩⟩
    · cases hb; exact ⟨s.finishBody_frame, fun _ => s.sameOutAt_finishBody⟩
    · cases hb
  case mfStep =>
    obtain rfl | hb := exec_unraised_cases h hf
    · rfl
    · exact mfStepBody_frame (mfStep_ok_inv hb).2

open Sys2Proof.Machine in
/-- Settles O32: BP_FINISH completes, and its result holds the stream. -/
theorem finishedOutputIsTheStream : Obligations.FinishedOutputIsTheStream := by
  unfold Obligations.FinishedOutputIsTheStream
  intro s hf hinv
  have hrun : exec .bpFinish s = .next s.finishBody := exec_of_bodyOf hf rfl
  obtain ⟨-, hfit, -, -⟩ := id hinv
  exact ⟨s.finishBody, hrun, s.finishBody_outLen hfit, fun _ => State.finishBody_holdsStream hinv⟩

open Sys2Proof.Machine in
/-- Settles O7: the oldest access is performed, and a legal word at the command port runs its command. -/
theorem stepRunsTheDecodedCommand : Obligations.StepRunsTheDecodedCommand := by
  unfold Obligations.StepRunsTheDecodedCommand
  intro s w rest i hwf hp hd
  refine ⟨wf_of_decode hd, ?_⟩
  calc step s = access (.command w) (s.withPending rest) := step_of_pending_cons hwf hp
    _ = exec i (s.withPending rest) := writeCommand_of_decode hd _

open Sys2Proof.Machine in
/-- Settles O13: a read by range and by what the byte holds, the same for both memories. -/
theorem hostReadsOfTheMemories : Obligations.HostReadsOfTheMemories := by
  unfold Obligations.HostReadsOfTheMemories
  intro s a
  refine ⟨fun ha => ?inOutside, fun b ha hb => ?inHeld, State.inByte_of_unwritten, fun ha hb => ?inFree,
    fun ha => ?outOutside, fun b ha hb => ?outHeld, State.outByte_of_unwritten, fun ha hb => ?outFree⟩ <;>
    simp only [access, hostReadIn, hostReadOut]
  case inOutside | outOutside => rw [hostReadByte_of_outside ha]; rfl
  case inHeld | outHeld => rw [hb, hostReadByte_some ha]; rfl
  case inFree | outFree => rw [hb, hostReadByte_none ha]; exact ⟨Sys2Proof.Config.freeByte s.draws, rfl⟩

end

/-! # Proofs: the rows of the opcode map, and the encoding of what they select (O2, O3, O4, O5, O1) -/

section
namespace Sys2Proof

/-! ## The decoder as a search of the opcode map (R76) -/

/-- A row of the opcode map: its match, its mask, and the command of a word it selects (R75, R76). -/
abbrev OpcodeRow := CommandWord × CommandWord × (CommandWord → Instr)

/-- A row selects the words that agree with its match on its mask (R76). -/
abbrev OpcodeRow.Selects (r : OpcodeRow) (w : CommandWord) : Prop := w &&& r.2.1 = r.1

/-- The rows of R76, in the order in which `decode` tries them. A match is the opcode and zeros, written here in
the fields of its format (R71 to R74). -/
def opcodeRows : List OpcodeRow :=
  [(0x01#8 ++ 0#56, maskZ, fun _ => .init),
   (0x10#8 ++ 0#6 ++ 0#18 ++ 0#32, maskP, fun w => .bpAddLsb (valueField w) (widthField w)),
   (0x11#8 ++ 0#6 ++ 0#18 ++ 0#32, maskP, fun w => .bpAddMsb (valueField w) (widthField w)),
   (0x12#8 ++ 0#56, maskZ, fun _ => .bpFinish),
   (0x20#8 ++ 0#56, maskZ, fun _ => .mfStep),
   (0x30#8 ++ 0#56, maskZ, fun _ => .seHeader),
   (0x31#8 ++ 0#48 ++ 0#8, maskL, fun w => .seLiteral (litField w)),
   (0x32#8 ++ 0#15 ++ 0#9 ++ 0#16 ++ 0#16, maskM, fun w => .seMatch (lengthField w) (distanceField w)),
   (0x33#8 ++ 0#56, maskZ, fun _ => .seToken),
   (0x34#8 ++ 0#56, maskZ, fun _ => .seEob),
   (0x40#8 ++ 0#56, maskZ, fun _ => .compress)]

/-- The command of the first row that selects the word, and `illegal` where none does. -/
def searchRows (w : CommandWord) (illegal : Except IllegalCommand Instr) :
    List OpcodeRow → Except IllegalCommand Instr
  | [] => illegal
  | r :: rest => if r.Selects w then .ok (r.2.2 w) else searchRows w illegal rest

/-- The decoder searches the rows of the opcode map (R76, R77). -/
theorem decode_eq_searchRows (w : CommandWord) :
    decode w = searchRows w
      (.error (if assignedOpcodes.contains (opcodeField w) then .reservedBitSet else .unassignedOpcode))
      opcodeRows := by
  rw [apply_ite Except.error]; rfl

/-- Where at most one row selects the word, the search answers exactly that row's command. -/
theorem searchRows_ok_iff {w : CommandWord} {e : IllegalCommand} {i : Instr} {rows : List OpcodeRow}
    (hone : ∀ r ∈ rows, ∀ r' ∈ rows, r.Selects w → r'.Selects w → r = r') :
    searchRows w (.error e) rows = .ok i ↔ ∃ r ∈ rows, r.Selects w ∧ i = r.2.2 w := by
  induction rows with
  | nil => simp [searchRows]
  | cons d rest ih =>
    by_cases hd : d.Selects w
    · rw [searchRows, if_pos hd]
      constructor
      · intro h; cases h; exact ⟨d, List.mem_cons_self, hd, rfl⟩
      · rintro ⟨r, hr, hsel, rfl⟩
        rw [hone d List.mem_cons_self r hr hd hsel]
    · rw [searchRows, if_neg hd,
        ih fun r hr r' hr' => hone r (List.mem_cons_of_mem d hr) r' (List.mem_cons_of_mem d hr')]
      simp [hd]

/-- Every row's mask fixes the whole opcode (R76). -/
theorem opcodeField_mask : ∀ r ∈ opcodeRows, opcodeField r.2.1 = BitVec.allOnes 8 := by decide

/-- A row selects only words with the opcode of its match (R70, R76). -/
theorem opcodeField_of_selects {r : OpcodeRow} (hr : r ∈ opcodeRows) {w : CommandWord} (h : r.Selects w) :
    opcodeField w = opcodeField r.1 := by
  calc opcodeField w = opcodeField w &&& opcodeField r.2.1 := by rw [opcodeField_mask r hr, BitVec.and_allOnes]
    _ = opcodeField (w &&& r.2.1) := BitVec.extractLsb'_and.symm
    _ = opcodeField r.1 := by rw [h]

/-- No word is selected by two rows: their opcodes differ (R76). -/
theorem eq_of_selects {w : CommandWord} : ∀ r ∈ opcodeRows, ∀ r' ∈ opcodeRows,
    r.Selects w → r'.Selects w → r = r' := by
  intro r hr r' hr' h h'
  have hdistinct : (opcodeRows.map fun r => opcodeField r.1).Nodup := by decide
  refine List.inj_on_of_nodup_map hdistinct hr hr' ?_
  rw [← opcodeField_of_selects hr h, ← opcodeField_of_selects hr' h']

/-- A word decodes to the command of the row that selects it, and to nothing else (R76). -/
theorem decode_ok_iff_row (w : CommandWord) (i : Instr) :
    decode w = .ok i ↔ ∃ r ∈ opcodeRows, r.Selects w ∧ i = r.2.2 w := by
  rw [decode_eq_searchRows]; exact searchRows_ok_iff eq_of_selects

/-! ## A selected word is the encoding of the row's command (R71 to R74) -/

theorem formatZ_of_selects {w : CommandWord} (op : BitVec 8) (h : w &&& maskZ = (op ++ 0#56 : BitVec 64)) :
    formatZ op = w := by
  rw [and_maskZ] at h; exact h.symm

theorem formatP_of_selects {w : CommandWord} (op : BitVec 8)
    (h : w &&& maskP = (op ++ 0#6 ++ 0#18 ++ 0#32 : BitVec 64)) :
    formatP op (valueField w) (widthField w) = w := by
  obtain ⟨hop, hreserved⟩ := (selects_formatP w op).1 h
  conv_rhs => rw [word_formatP w, hop, hreserved]
  rw [formatP, valueField, widthField, BitVec.ofNat_toNat, BitVec.setWidth_eq]

theorem formatL_of_selects {w : CommandWord} (op : BitVec 8)
    (h : w &&& maskL = (op ++ 0#48 ++ 0#8 : BitVec 64)) : formatL op (litField w) = w := by
  obtain ⟨hop, hreserved⟩ := (selects_formatL w op).1 h
  conv_rhs => rw [word_formatL w, hop, hreserved]
  rfl

theorem formatM_of_selects {w : CommandWord} (op : BitVec 8)
    (h : w &&& maskM = (op ++ 0#15 ++ 0#9 ++ 0#16 ++ 0#16 : BitVec 64)) :
    formatM op (lengthField w) (distanceField w) = w := by
  obtain ⟨hop, hhigh, hlow⟩ := (selects_formatM w op).1 h
  conv_rhs => rw [word_formatM w, hop, hhigh, hlow]
  rw [formatM, lengthField, distanceField, BitVec.ofNat_toNat, BitVec.ofNat_toNat, BitVec.setWidth_eq,
    BitVec.setWidth_eq]

/-- A word is the encoding of the command of the row that selects it, row by row. -/
theorem encode_of_selects {w : CommandWord} : ∀ r ∈ opcodeRows, r.Selects w → encode (r.2.2 w) = w := by
  simp only [opcodeRows, List.forall_mem_cons]
  exact ⟨formatZ_of_selects 0x01#8, formatP_of_selects 0x10#8, formatP_of_selects 0x11#8, formatZ_of_selects 0x12#8,
    formatZ_of_selects 0x20#8, formatZ_of_selects 0x30#8, formatL_of_selects 0x31#8, formatM_of_selects 0x32#8,
    formatZ_of_selects 0x33#8, formatZ_of_selects 0x34#8, formatZ_of_selects 0x40#8, List.forall_mem_nil _⟩

/-- A legal word is the encoding of what it decodes to (log entry 10). -/
theorem encode_of_decode {w : CommandWord} {i : Instr} (h : decode w = .ok i) : encode i = w := by
  obtain ⟨r, hr, hsel, rfl⟩ := (decode_ok_iff_row w i).1 h
  exact encode_of_selects r hr hsel

/-! ## Legal and illegal words by opcode and reserved bits (R71 to R77) -/

/-- The opcodes of Format Z (R71, R76). -/
def opcodesZ : List (BitVec 8) := [0x01#8, 0x12#8, 0x20#8, 0x30#8, 0x33#8, 0x34#8, 0x40#8]

/-- The opcodes of Format P (R72, R76). -/
def opcodesP : List (BitVec 8) := [0x10#8, 0x11#8]

/-- A word is legal exactly when a row selects it. -/
theorem exists_decode_ok_iff_row (w : CommandWord) : (∃ i, decode w = .ok i) ↔ ∃ r ∈ opcodeRows, r.Selects w := by
  simp only [decode_ok_iff_row]
  exact ⟨fun ⟨_, r, hr, hsel, _⟩ => ⟨r, hr, hsel⟩, fun ⟨r, hr, hsel⟩ => ⟨_, r, hr, hsel, rfl⟩⟩

/-- The legal words, format by format: an opcode of the format and no reserved bit set (R71 to R74). -/
theorem exists_decode_ok_iff_format (w : CommandWord) :
    (∃ i, decode w = .ok i) ↔
      (opcodeField w ∈ opcodesZ ∧ w.extractLsb' 0 56 = 0#56) ∨
      (opcodeField w ∈ opcodesP ∧ w.extractLsb' 32 18 = 0#18) ∨
      (opcodeField w = 0x31#8 ∧ w.extractLsb' 8 48 = 0#48) ∨
      (opcodeField w = 0x32#8 ∧ w.extractLsb' 41 15 = 0#15 ∧ w.extractLsb' 16 16 = 0#16) := by
  rw [exists_decode_ok_iff_row]
  simp only [opcodeRows, List.exists_mem_cons_iff, OpcodeRow.Selects, selects_formatZ, selects_formatP,
    selects_formatL, selects_formatM]
  simp only [opcodeField, opcodesZ, opcodesP, List.mem_cons, List.not_mem_nil, false_and, exists_false, or_false,
    or_and_right]
  exact iff_of_eq (by ac_rfl)

/-- The assigned opcodes, format by format (R76). -/
theorem mem_assignedOpcodes_iff_format (op : BitVec 8) :
    op ∈ assignedOpcodes ↔ op ∈ opcodesZ ∨ op ∈ opcodesP ∨ op = 0x31#8 ∨ op = 0x32#8 := by
  simp only [assignedOpcodes, opcodesZ, opcodesP, List.mem_cons, List.not_mem_nil, or_false]
  exact iff_of_eq (by ac_rfl)

/-- No opcode has two formats (R76). -/
theorem opcode_has_one_format :
    (∀ op ∈ opcodesZ, op ∉ opcodesP ∧ op ≠ 0x31#8 ∧ op ≠ 0x32#8) ∧
      (∀ op ∈ opcodesP, op ≠ 0x31#8 ∧ op ≠ 0x32#8) := by decide

/-- The illegal words: no assigned opcode, or a reserved bit of its format set (R77). -/
theorem exists_decode_error_iff_format (w : CommandWord) :
    (∃ e, decode w = .error e) ↔
      opcodeField w ∉ assignedOpcodes ∨
      (opcodeField w ∈ opcodesZ ∧ w.extractLsb' 0 56 ≠ 0#56) ∨
      (opcodeField w ∈ opcodesP ∧ w.extractLsb' 32 18 ≠ 0#18) ∨
      (opcodeField w = 0x31#8 ∧ w.extractLsb' 8 48 ≠ 0#48) ∨
      (opcodeField w = 0x32#8 ∧ (w.extractLsb' 41 15 ≠ 0#15 ∨ w.extractLsb' 16 16 ≠ 0#16)) := by
  have hillegal : (∃ e, decode w = .error e) ↔ ¬ ∃ i, decode w = .ok i := by cases decode w <;> simp
  obtain ⟨hZ, hP⟩ := opcode_has_one_format
  rw [hillegal, exists_decode_ok_iff_format, mem_assignedOpcodes_iff_format]
  by_cases hz : opcodeField w ∈ opcodesZ
  · obtain ⟨hp, hl, hm⟩ := hZ _ hz
    simp [hz, hp, hl, hm]
  by_cases hp : opcodeField w ∈ opcodesP
  · obtain ⟨hl, hm⟩ := hP _ hp
    simp [hz, hp, hl, hm]
  by_cases hl : opcodeField w = 0x31#8
  · rw [hl] at hz hp ⊢
    simp [hz, hp]
  by_cases hm : opcodeField w = 0x32#8
  · rw [hm] at hz hp ⊢
    simp [hz, hp, imp_iff_not_or]
  · simp [hz, hp, hl, hm]

end Sys2Proof

open Sys2Proof Sys2Proof.Machine in
/-- Settles O2: command by command, the fields of the encoding are the operands. -/
theorem decodeOfEncode : Obligations.DecodeOfEncode := by
  unfold Obligations.DecodeOfEncode
  exact fun _ => decode_encode_of_wf

open Sys2Proof Sys2Proof.Machine in
/-- Settles O3: the row that selects the word fixes every bit that is no operand. -/
theorem encodeOfDecode : Obligations.EncodeOfDecode := by
  unfold Obligations.EncodeOfDecode
  exact fun _ _ h => ⟨wf_of_decode h, encode_of_decode h⟩

open Sys2Proof Sys2Proof.Machine in
/-- Settles O4: `decode` searches the rows, and two rows that select one word are the same row. -/
theorem decodeFollowsOpcodeMap : Obligations.DecodeFollowsOpcodeMap := by
  unfold Obligations.DecodeFollowsOpcodeMap
  exact ⟨decode_ok_iff_row, fun _ r hr r' hr' h h' => congrArg Prod.fst (eq_of_selects r hr r' hr' h h')⟩

open Sys2Proof Sys2Proof.Machine in
/-- Settles O5: a word that no row selects, format by format, and the fault it raises. -/
theorem illegalWordsRaiseIllegalCmd : Obligations.IllegalWordsRaiseIllegalCmd := by
  unfold Obligations.IllegalWordsRaiseIllegalCmd
  refine ⟨fun w => ?illegal, fun w e s hd hf => ?raises, ?zeros, ?ones⟩
  case illegal => exact exists_decode_error_iff_format w
  case raises =>
    calc access (.command w) s = .next (s.raise .illegalCmd w) := writeCommand_of_illegal hd s
      _ = .next (Faulted s 1#4 w) := by rw [State.raise_of_no_fault hf]; rfl
  case zeros => exact ⟨.unassignedOpcode, by decide⟩
  case ones => exact ⟨.unassignedOpcode, by decide⟩

open Sys2Proof Sys2Proof.Machine in
/-- Settles O1: each word is decoded by evaluation. -/
theorem decodeWrittenWords : Obligations.DecodeWrittenWords := by
  unfold Obligations.DecodeWrittenWords
  decide

end

/-! # Proofs: the number a token word holds (O6) -/

section
namespace Sys2Proof.Machine

/-- The token word of a legal Token is the number R79 gives. -/
theorem Token.toNat_word {t : Token} (h : t.legal = true) : t.word.toNat = t.wordNumber := by
  cases t with
  | literal b => exact Token.toNat_word_literal b
  | copy length distance =>
    obtain ⟨-, hl, -, hd⟩ := (Token.legal_copy_iff _ _).1 h
    exact Token.toNat_word_copy (by omega) (by omega)

/-- The number of a legal Token's word has bit 31 and nothing above it (R79). -/
theorem Token.wordNumber_bounds {t : Token} (h : t.legal = true) :
    2 ^ 31 ≤ t.wordNumber ∧ t.wordNumber < 2 ^ 32 := by
  cases t with
  | literal b => have hb := b.isLt; simp only [Token.wordNumber]; omega
  | copy length distance =>
    obtain ⟨-, hl, -, hd⟩ := (Token.legal_copy_iff _ _).1 h
    simp only [Token.wordNumber]; omega

/-- The token word of a legal Token has `VALID` = 1 (R79). -/
theorem tokenWordValid_word {t : Token} (h : t.legal = true) : tokenWordValid t.word = true := by
  have hbounds := Token.wordNumber_bounds h
  rw [tokenWordValid_eq, Token.toNat_word h, decide_eq_true_iff]; omega

/-- The no-token word has `VALID` = 0 (R79). -/
theorem tokenWordValid_zero : tokenWordValid 0#32 = false := by decide

end Sys2Proof.Machine

open Sys2Proof.Machine in
/-- Settles O6: the token word's number fixes its bits. -/
theorem tokenWordHoldsItsToken : Obligations.TokenWordHoldsItsToken := by
  unfold Obligations.TokenWordHoldsItsToken
  refine ⟨tokenWordValid_zero, fun t h => ⟨tokenWordValid_word h, tokenOfWord_word h, fun hzero => ?_,
    Token.toNat_word h⟩⟩
  have hvalid := tokenWordValid_word h
  rw [hzero, tokenWordValid_zero] at hvalid
  cases hvalid

end

/-! # Proofs: the accesses of LOAD_INPUT (O14) -/

section
namespace Sys2Proof.Machine

/-- Accesses that all complete are followed by the later ones (R66). -/
theorem accesses_append {xs ys : List HostAccess} {s t : State} (h : accesses xs s = .next t) :
    accesses (xs ++ ys) s = accesses ys t := by
  induction xs generalizing s with
  | nil => cases h; rfl
  | cons x rest ih =>
    simp only [List.cons_append, accesses] at h ⊢
    split at h
    · exact ih h
    · cases h
    · cases h

/-- One more access after accesses that all complete. -/
theorem accesses_concat {xs : List HostAccess} {x : HostAccess} {s t u : State} (h : accesses xs s = .next t)
    (hx : access x t = .next u) : accesses (xs ++ [x]) s = .next u := by
  rw [accesses_append h, accesses, hx]; rfl

/-- `t` is `s` with the first `n` bytes of `x` written to `IN` and nothing else changed. -/
structure State.WroteInput (s t : State) (x : List Byte) (n : Nat) : Prop where
  frame : t = { s with inMem := t.inMem, inWritten := t.inWritten }
  written : ∀ a, a < n → t.inByte a = some (x.getD a 0#8)
  above : ∀ a, n ≤ a → SameInAt s t a

/-- One more byte of `x`. -/
theorem State.WroteInput.succ {s t : State} {x : List Byte} {n : Nat} (h : State.WroteInput s t x n) :
    State.WroteInput s (t.storeIn n (x.getD n 0#8)) x (n + 1) where
  frame := by rw [h.frame]; rfl
  written a ha := by
    rw [State.inByte_storeIn]
    split
    · subst_vars; rfl
    · exact h.written a (by omega)
  above a ha := by
    obtain ⟨hmem, hflag⟩ := t.sameInAt_storeIn (show a ≠ n by omega) (x.getD n 0#8)
    obtain ⟨hmem', hflag'⟩ := h.above a (by omega)
    exact ⟨hmem.trans hmem', hflag.trans hflag'⟩

/-- Outside a run the byte writes below IN_CAP all take effect (R51, R85). -/
theorem accesses_writeIn {s : State} (hl : s.inLock = false) (x : List Byte) {n : Nat}
    (hn : n ≤ s.cfg.inCap.toNat) :
    ∃ t, accesses ((List.range n).map fun j => .writeIn j (x.getD j 0#8)) s = .next t ∧
      State.WroteInput s t x n := by
  induction n with
  | zero => exact ⟨s, rfl, rfl, fun a ha => absurd ha (Nat.not_lt_zero a), fun _ _ => ⟨rfl, rfl⟩⟩
  | succ n ih =>
    obtain ⟨t, hrun, ht⟩ := ih (by omega)
    have hcap : n < t.cfg.inCap.toNat := by rw [ht.frame]; exact hn
    have hlock : t.inLock = false := by rw [ht.frame]; exact hl
    refine ⟨t.storeIn n (x.getD n 0#8), ?_, ht.succ⟩
    rw [List.range_succ, List.map_append]
    exact accesses_concat hrun (by rw [access, hostWriteIn_of_unlocked hcap hlock])

end Sys2Proof.Machine

open Sys2Proof.Machine in
/-- Settles O14: the byte writes by induction on their number, then the write of `IN_LEN`. -/
theorem loadInputHoldsTheInput : Obligations.LoadInputHoldsTheInput := by
  unfold Obligations.LoadInputHoldsTheInput
  intro s x hl hx
  obtain ⟨t, hrun, ht⟩ := accesses_writeIn hl x hx
  have hlock : t.inLock = false := by rw [ht.frame]; exact hl
  have hcap := s.cfg.inCap.isLt
  refine ⟨t.withInLen (BitVec.ofNat 32 x.length), ?run, ⟨?length, fun j hj => ?bytes⟩, ?frame, ht.above⟩
  case run =>
    exact accesses_concat hrun (by rw [access, hostWriteReg, State.writeRegister_of_unlocked hlock])
  case length => rw [State.withInLen_inLen, BitVec.toNat_ofNat, Nat.mod_eq_of_lt (by omega)]
  case bytes =>
    rw [List.getElem?_eq_getElem hj, ← List.getD_eq_getElem x 0#8 hj]
    exact ht.written j hj
  case frame => rw [ht.frame]; rfl

end

/-! # Proofs: BP_ADD_LSB and BP_ADD_MSB place bits (O25, O26, O27, O28, O29) -/

section
namespace Sys2Proof.Machine

/-- A command whose pseudocode raises a fault enters the fault state from the state before it (R16, R232). -/
theorem exec_of_raised {i : Instr} {s : State} {c : Cause} (hf : s.fault = false)
    (hb : bodyOf i s = .error (.raised c)) : exec i s = .next (Faulted s c.code (encode i)) := by
  rw [exec_eq_runCommand]; exact runCommand_raised hf hb _

/-- Bits that fit, placed at a clean partial byte, are in the stream, and nothing else changes (R56, R101). -/
theorem State.placesBits_putBits {s : State} {bits : List Bool} (hclean : CurClean s)
    (hfit : s.bitLen + bits.length ≤ 8 * s.cfg.outCap.toNat) : PlacesBits s (s.putBits bits) bits := by
  have hstream := s.streamBit_putBits bits hclean hfit
  obtain ⟨-, hout⟩ := State.putBits_outFrame (bits := bits) fun _ => hfit
  refine ⟨s.bitLen_putBits bits hfit, fun j hj => ?earlier, fun j hj => ?placed, s.curClean_putBits bits hclean,
    hout, s.putBits_frame bits⟩
  case earlier => rw [hstream, if_pos hj]
  case placed => rw [hstream, if_neg (by omega), Nat.add_sub_cancel_left]

/-! ## The two commands as one, by the order of their bits (R102, R103) -/

/-- The command that places bits in the given order: BP_ADD_LSB or BP_ADD_MSB. -/
def BitOrder.add : BitOrder → Word → Nat → Instr
  | .lsbFirst => .bpAddLsb
  | .msbFirst => .bpAddMsb

/-- The bits of `value` that the command places, in stream order. -/
def BitOrder.addBits (order : BitOrder) (value : Word) (n : Nat) : List Bool :=
  (Code.mk value.toNat n order).bits

theorem BitOrder.bodyOf_add (order : BitOrder) (value : Word) (n : Nat) :
    bodyOf (order.add value n) = bpAdd order value n := by cases order <;> rfl

@[simp] theorem BitOrder.length_addBits (order : BitOrder) (value : Word) (n : Nat) :
    (order.addBits value n).length = n := Code.length_bits _

/-- More than 32 bits raise BAD_WIDTH (R102, R103). -/
theorem exec_add_of_wide {s : State} {n : Nat} (order : BitOrder) (value : Word) (hf : s.fault = false)
    (hn : 32 < n) : exec (order.add value n) s = .next (Faulted s 2#4 (encode (order.add value n))) := by
  refine exec_of_raised (c := .badWidth) hf ?_
  rw [order.bodyOf_add, bpAdd, if_neg (by rw [legalWidth_iff]; omega)]

/-- Bits that do not fit raise OUT_OVERFLOW (R110). -/
theorem exec_add_of_full {s : State} {n : Nat} (order : BitOrder) (value : Word) (hf : s.fault = false)
    (hn : n ≤ 32) (hfull : 8 * s.cfg.outCap.toNat < s.bitLen + n) :
    exec (order.add value n) s = .next (Faulted s 5#4 (encode (order.add value n))) := by
  refine exec_of_raised (c := .outOverflow) hf ?_
  rw [order.bodyOf_add, bpAdd, if_pos ((legalWidth_iff n).2 hn)]
  obtain ⟨hfit, -⟩ | ⟨-, he⟩ := s.emit_cases [⟨value.toNat, n, order⟩]
  · exact absurd hfit (Nat.not_le.2 hfull)
  · exact he

/-- Bits that fit are placed, and no fault is raised (R102, R103). -/
theorem exec_add_of_fits {s : State} {n : Nat} (order : BitOrder) (value : Word) (hf : s.fault = false)
    (hn : n ≤ 32) (hfit : s.bitLen + n ≤ 8 * s.cfg.outCap.toNat) :
    exec (order.add value n) s = .next (s.putBits (order.addBits value n)) := by
  refine exec_of_bodyOf hf ?_
  rw [order.bodyOf_add, bpAdd, if_pos ((legalWidth_iff n).2 hn), State.emit_of_fits hfit, codesBits_cons,
    codesBits_nil, List.append_nil, BitOrder.addBits]

/-- Everything an add can do while `FAULT` = 0: BAD_WIDTH, OUT_OVERFLOW, or its bits at the cursor. -/
theorem exec_add_effect {s : State} (order : BitOrder) (value : Word) (n : Nat) (hf : s.fault = false) :
    (32 < n → exec (order.add value n) s = .next (Faulted s 2#4 (encode (order.add value n)))) ∧
    (n ≤ 32 → 8 * s.cfg.outCap.toNat < s.bitLen + n →
      exec (order.add value n) s = .next (Faulted s 5#4 (encode (order.add value n)))) ∧
    (n ≤ 32 → s.bitLen + n ≤ 8 * s.cfg.outCap.toNat → CurClean s →
      ∃ t, exec (order.add value n) s = .next t ∧ PlacesBits s t (order.addBits value n)) := by
  refine ⟨exec_add_of_wide order value hf, exec_add_of_full order value hf, fun hn hfit hclean => ?_⟩
  exact ⟨_, exec_add_of_fits order value hf hn hfit,
    State.placesBits_putBits hclean (by rwa [BitOrder.length_addBits])⟩

/-! ## Which bits of the value are placed (R109) -/

/-- The order of BP_ADD_MSB is the reverse of that of BP_ADD_LSB (R103). -/
theorem bitsMsbFirst_eq_reverse (v n : Nat) : bitsMsbFirst v n = (bitsLsbFirst v n).reverse := by
  have hrange : (List.range n).reverse = (List.range n).map (n - 1 - ·) := by
    conv_lhs => rw [List.range_eq_range', List.reverse_range', Nat.zero_add]
  rw [bitsMsbFirst, bitsLsbFirst, ← List.map_reverse, hrange, List.map_map]
  rfl

/-- The bits placed are the low `n` bits of the value and no other (R109). -/
theorem Code.bits_congr {v v' n : Nat} (order : BitOrder) (h : ∀ j, j < n → v.testBit j = v'.testBit j) :
    (Code.mk v n order).bits = (Code.mk v' n order).bits := by
  have hlsb : bitsLsbFirst v n = bitsLsbFirst v' n :=
    List.map_congr_left fun j hj => h j (List.mem_range.1 hj)
  cases order with
  | lsbFirst => exact hlsb
  | msbFirst => simp only [Code.bits, bitsMsbFirst_eq_reverse, hlsb]

/-- The low bits of a number that is written into a `value` operand are the number's own. -/
theorem BitOrder.addBits_ofNat (order : BitOrder) (a : Nat) {n : Nat} (hn : n ≤ 32) :
    order.addBits (BitVec.ofNat 32 a) n = (Code.mk a n order).bits := by
  refine Code.bits_congr order fun j hj => ?_
  rw [BitVec.toNat_ofNat, Nat.testBit_mod_two_pow, decide_eq_true (by omega), Bool.true_and]

/-- An add sees only the low `n` bits of its value (R109). -/
theorem exec_add_congr {s : State} {v v' : Word} {n : Nat} (order : BitOrder) (hn : n ≤ 32)
    (hfit : s.bitLen + n ≤ 8 * s.cfg.outCap.toNat) (h : ∀ j, j < n → v.getLsbD j = v'.getLsbD j) :
    exec (order.add v n) s = exec (order.add v' n) s := by
  cases hf : s.fault with
  | true => simp only [exec_eq_runCommand, runCommand_of_fault hf]
  | false =>
    have hbits : order.addBits v n = order.addBits v' n := Code.bits_congr order h
    rw [exec_add_of_fits order v hf hn hfit, exec_add_of_fits order v' hf hn hfit, hbits]

/-! ## The split laws (R107, R108) -/

/-- The low `p` bits of a number and the bits above them. -/
theorem bitsLsbFirst_split {a p : Nat} (ha : a < 2 ^ p) (b q : Nat) :
    bitsLsbFirst (a + b * 2 ^ p) (p + q) = bitsLsbFirst a p ++ bitsLsbFirst b q := by
  have hbit : ∀ j, (a + b * 2 ^ p).testBit j = if j < p then a.testBit j else b.testBit (j - p) := by
    intro j
    rw [Nat.add_comm, Nat.mul_comm, Nat.testBit_two_pow_mul_add b ha]
  simp only [bitsLsbFirst, List.range_add, List.map_append, List.map_map]
  congr 1 <;> refine List.map_congr_left fun j hj => ?_
  · rw [hbit, if_pos (List.mem_range.1 hj)]
  · simp [hbit]

/-- The high bits of a number and then its low `q` bits: the LSB split read from the other end. -/
theorem bitsMsbFirst_split {b q : Nat} (hb : b < 2 ^ q) (a p : Nat) :
    bitsMsbFirst (a * 2 ^ q + b) (p + q) = bitsMsbFirst a p ++ bitsMsbFirst b q := by
  simp only [bitsMsbFirst_eq_reverse]
  rw [Nat.add_comm (a * 2 ^ q), Nat.add_comm p, bitsLsbFirst_split hb, List.reverse_append]

/-- Two adds leave the same state as one add whose bits are theirs in sequence (R101). -/
theorem exec_add_split {s : State} {order : BitOrder} {a b c p q : Nat} (hf : s.fault = false)
    (hpq : p + q ≤ 32) (hfit : s.bitLen + (p + q) ≤ 8 * s.cfg.outCap.toNat)
    (hbits : (Code.mk c (p + q) order).bits = (Code.mk a p order).bits ++ (Code.mk b q order).bits) :
    ∃ t u, exec (order.add (BitVec.ofNat 32 a) p) s = .next t ∧
      exec (order.add (BitVec.ofNat 32 b) q) t = .next u ∧
      exec (order.add (BitVec.ofNat 32 c) (p + q)) s = .next u := by
  have hfirst := exec_add_of_fits order (BitVec.ofNat 32 a) hf (n := p) (by omega) (by omega)
  have hlen := s.bitLen_putBits (order.addBits (BitVec.ofNat 32 a) p)
    (by rw [BitOrder.length_addBits]; omega)
  rw [BitOrder.length_addBits] at hlen
  have hsecond := exec_add_of_fits (s := s.putBits (order.addBits (BitVec.ofNat 32 a) p)) order
    (BitVec.ofNat 32 b) (n := q) (by rw [State.putBits_fault, hf]) (by omega)
    (by rw [hlen, State.putBits_cfg]; omega)
  refine ⟨_, _, hfirst, hsecond, ?_⟩
  rw [exec_add_of_fits order _ hf hpq hfit, ← State.putBits_append, order.addBits_ofNat c hpq,
    order.addBits_ofNat a (by omega), order.addBits_ofNat b (by omega), hbits]

end Sys2Proof.Machine

open Sys2Proof.Machine in
/-- Settles O25: the effect of an add in the order of BP_ADD_LSB. -/
theorem bpAddLsbPlacesLowBitsFirst : Obligations.BpAddLsbPlacesLowBitsFirst := by
  unfold Obligations.BpAddLsbPlacesLowBitsFirst
  exact fun _ value n hf => exec_add_effect .lsbFirst value n hf

open Sys2Proof.Machine in
/-- Settles O26: the effect of an add in the order of BP_ADD_MSB. -/
theorem bpAddMsbPlacesHighBitsFirst : Obligations.BpAddMsbPlacesHighBitsFirst := by
  unfold Obligations.BpAddMsbPlacesHighBitsFirst
  exact fun _ value n hf => exec_add_effect .msbFirst value n hf

open Sys2Proof.Machine in
/-- Settles O27: equal low bits are the same bits placed, in either order. -/
theorem highBitsAreIgnored : Obligations.HighBitsAreIgnored := by
  unfold Obligations.HighBitsAreIgnored
  intro s v v' n hn hfit h
  exact ⟨exec_add_congr .lsbFirst hn hfit h, exec_add_congr .msbFirst hn hfit h⟩

open Sys2Proof.Machine in
/-- Settles O28: the bits of `a + b * 2 ^ p` from the low end are those of `a` and then those of `b`. -/
theorem lsbSplitLaw : Obligations.LsbSplitLaw := by
  unfold Obligations.LsbSplitLaw
  intro s a b p q hf hpq ha _ hfit
  exact exec_add_split (order := .lsbFirst) hf hpq hfit (bitsLsbFirst_split ha b q)

open Sys2Proof.Machine in
/-- Settles O29: the bits of `a * 2 ^ q + b` from the high end are those of `a` and then those of `b`. -/
theorem msbSplitLaw : Obligations.MsbSplitLaw := by
  unfold Obligations.MsbSplitLaw
  intro s a b p q hf hpq _ hb hfit
  exact exec_add_split (order := .msbFirst) hf hpq hfit (bitsMsbFirst_split hb a p)

end

/-! # Proofs: BP_FINISH writes the partial byte and disturbs no later add (O30, O31) -/

section
namespace Sys2Proof.Machine

/-! ## What a finish writes (R104) -/

theorem State.fill_pos {s : State} (h : s.fill ≠ 0#3) : 0 < s.fill.toNat :=
  Nat.pos_of_ne_zero fun h0 => h (BitVec.eq_of_toNat_eq h0)

/-- A partial byte of a stream that fits has its address in `OUT` (R110). -/
theorem State.bpK_lt_of_fill {s : State} (hfit : StreamFits s) (h : s.fill ≠ 0#3) :
    s.bpK.toNat < s.cfg.outCap.toNat := by
  have hpos := State.fill_pos h
  unfold StreamFits State.bitLen at hfit
  omega

/-- A clean partial byte is zero from `FILL` up (R31). -/
theorem CurClean.getLsbD_eq_false {s : State} (h : CurClean s) {j : Nat} (hj : s.fill.toNat ≤ j) :
    s.cur.getLsbD j = false :=
  Nat.testBit_lt_two_pow (lt_of_lt_of_le h (Nat.pow_le_pow_right Nat.two_pos hj))

theorem State.finishBody_of_fill_zero {s : State} (h : s.fill = 0#3) : s.finishBody = s.withOutLen s.bpK :=
  if_pos h

theorem State.finishBody_of_fill {s : State} (h : s.fill ≠ 0#3) :
    s.finishBody = (s.storeOut s.bpK.toNat s.cur).withOutLen (s.bpK + 1#32) := if_neg h

/-! ## Adds after a finish (R106) -/

/-- The bit cursor is the same in both states: `BP_K`, `CUR` and `FILL` (R31). -/
structure SameCursor (s t : State) : Prop where
  bpK : t.bpK = s.bpK
  cur : t.cur = s.cur
  fill : t.fill = s.fill

theorem SameCursor.bitLen {s t : State} (h : SameCursor s t) : t.bitLen = s.bitLen := by
  rw [State.bitLen, h.bpK, h.fill, State.bitLen]

theorem SameCursor.putBit {s t : State} (h : SameCursor s t) (b : Bool) : SameCursor (s.putBit b) (t.putBit b) := by
  have hcur : t.curWith b = s.curWith b := by rw [State.curWith, h.cur, h.fill, State.curWith]
  unfold State.putBit
  rw [h.fill]
  split
  · exact ⟨congrArg (· + 1#32) h.bpK, rfl, rfl⟩
  · exact ⟨h.bpK, hcur, congrArg (· + 1#3) h.fill⟩

/-- Where the cursor goes depends on the cursor and on the bits placed alone (R100). -/
theorem SameCursor.putBits {s t : State} (h : SameCursor s t) (bits : List Bool) :
    SameCursor (s.putBits bits) (t.putBits bits) := by
  induction bits generalizing s t with
  | nil => exact h
  | cons b rest ih => exact ih (h.putBit b)

theorem State.sameCursor_finishBody (s : State) : SameCursor s s.finishBody :=
  ⟨s.finishBody_bpK, s.finishBody_cur, s.finishBody_fill⟩

/-- A finish changes no stream bit: the byte it writes is above the complete bytes (R32, R106). -/
theorem State.streamBit_finishBody (s : State) (j : Nat) : s.finishBody.streamBit j = s.streamBit j := by
  have hcursor := s.sameCursor_finishBody
  unfold State.streamBit
  rw [hcursor.bpK, hcursor.bitLen, hcursor.cur]
  by_cases hj : j < 8 * s.bpK.toNat
  · have hbyte : s.finishBody.outByte (j / 8) = s.outByte (j / 8) := by
      rw [State.outByte_finishBody, if_neg fun h => by omega]
    rw [if_pos hj, if_pos hj, hbyte]
  · rw [if_neg hj, if_neg hj]

/-- Bits placed after a finish leave the stream as if the finish had not happened (R106). -/
theorem State.streamBit_putBits_finishBody {s : State} {bits : List Bool} (hclean : CurClean s)
    (hfit : s.bitLen + bits.length ≤ 8 * s.cfg.outCap.toNat) (j : Nat) :
    (s.finishBody.putBits bits).streamBit j = (s.putBits bits).streamBit j := by
  have hlen := s.sameCursor_finishBody.bitLen
  rw [s.streamBit_putBits bits hclean hfit, State.streamBit_putBits _ bits (by simpa using hclean)
    (by rwa [hlen, State.finishBody_cfg]), hlen, State.streamBit_finishBody]

/-- Bits that do not complete the partial byte leave OUT[BP_K] alone (R104). -/
theorem State.sameOutAt_bpK_putBits {s : State} {bits : List Bool}
    (hfit : s.bitLen + bits.length ≤ 8 * s.cfg.outCap.toNat) (hpartial : s.fill.toNat + bits.length < 8) :
    SameOutAt s (s.putBits bits) s.bpK.toNat := by
  refine s.sameOutAt_putBits bits _ hfit (.inr ?_)
  unfold State.bitLen
  omega

/-- BP_FINISH does nothing while `FAULT` = 1 and finishes otherwise (R104, R234). -/
theorem exec_bpFinish_cases {s t : State} (h : exec .bpFinish s = .next t) :
    (s.fault = true ∧ t = s) ∨ (s.fault = false ∧ t = s.finishBody) := by
  rw [exec_eq_runCommand] at h
  obtain hfaulted | ⟨hf, hb⟩ | ⟨-, c, hb, -⟩ := runCommand_cases h
  · exact .inl hfaulted
  · cases hb; exact .inr ⟨hf, rfl⟩
  · cases hb

/-- An add goes on from the same cursor after a finish, and leaves the finished byte alone until it completes
(R104, R106). -/
theorem exec_add_finishBody {s : State} {n : Nat} (order : BitOrder) (v : Word) (hf : s.fault = false)
    (hclean : CurClean s) (hn : n ≤ 32) (hfit : s.bitLen + n ≤ 8 * s.cfg.outCap.toNat) :
    ∃ s' t', exec (order.add v n) s = .next s' ∧ exec (order.add v n) s.finishBody = .next t' ∧
      t'.bpK = s'.bpK ∧ t'.cur = s'.cur ∧ t'.fill = s'.fill ∧ (∀ j, t'.streamBit j = s'.streamBit j) ∧
      (s.fill.toNat + n < 8 → SameOutAt s.finishBody t' s.bpK.toNat) := by
  have hcursor := s.sameCursor_finishBody
  have hafter := hcursor.putBits (order.addBits v n)
  have hfit' : s.finishBody.bitLen + n ≤ 8 * s.finishBody.cfg.outCap.toNat := by
    rwa [hcursor.bitLen, State.finishBody_cfg]
  refine ⟨_, _, exec_add_of_fits order v hf hn hfit,
    exec_add_of_fits order v (s.finishBody_fault.trans hf) hn hfit', hafter.bpK, hafter.cur, hafter.fill,
    State.streamBit_putBits_finishBody hclean (by rwa [BitOrder.length_addBits]), fun hpartial => ?_⟩
  have hsame := State.sameOutAt_bpK_putBits (s := s.finishBody) (bits := order.addBits v n)
    (by rwa [BitOrder.length_addBits]) (by rwa [BitOrder.length_addBits, hcursor.fill])
  rwa [hcursor.bpK] at hsame

end Sys2Proof.Machine

open Sys2Proof.Machine in
/-- Settles O30: the two cases of a finish, with and without a partial byte. -/
theorem bpFinishWritesThePartialByte : Obligations.BpFinishWritesThePartialByte := by
  unfold Obligations.BpFinishWritesThePartialByte
  intro s hf hfit
  have hrun : exec .bpFinish s = .next s.finishBody := exec_of_bodyOf hf rfl
  have hlen := s.finishBody_outLen hfit
  refine ⟨s.finishBody, hrun, s.finishBody_frame, hlen, fun h0 => ?complete, fun h0 => ?partialByte,
    fun a ha => s.sameOutAt_finishBody ha⟩
  case complete => rw [State.finishBody_of_fill_zero h0]; exact ⟨rfl, rfl, rfl⟩
  case partialByte =>
    have hpos := State.fill_pos h0
    have hlast : s.finishBody.outLen.toNat = s.bpK.toNat + 1 := by
      have hk := s.bpK_eq
      have hfill := s.fill_eq
      omega
    have hwritten : s.finishBody.outWrittenAt s.bpK.toNat = true := by
      simp [State.finishBody_of_fill h0, State.outWrittenAt]
    have hbyte : s.finishBody.outByte s.bpK.toNat = some s.cur := by
      rw [State.outByte_finishBody, if_pos ⟨h0, rfl⟩]
    exact ⟨State.bpK_lt_of_fill hfit h0, hlast, hwritten, s.cur, hbyte, rfl,
      fun hclean _ => hclean.getLsbD_eq_false⟩

open Sys2Proof.Machine in
/-- Settles O31: a finish neither moves the cursor nor changes what a second finish writes. -/
theorem bpFinishIsIdempotent : Obligations.BpFinishIsIdempotent := by
  unfold Obligations.BpFinishIsIdempotent
  intro s t h
  obtain ⟨hfault, rfl⟩ | ⟨hfault, rfl⟩ := exec_bpFinish_cases h
  · exact ⟨h, fun hf => by rw [hfault] at hf; cases hf⟩
  · have hagain : exec .bpFinish s.finishBody = .next s.finishBody.finishBody :=
      exec_of_bodyOf (s.finishBody_fault.trans hfault) rfl
    refine ⟨by rwa [State.finishBody_finishBody] at hagain, fun hf hclean v n hn hfit => ?_⟩
    rintro add (hadd : add ∈ [BitOrder.lsbFirst.add v n, BitOrder.msbFirst.add v n])
    obtain rfl | rfl := List.mem_pair.1 hadd
    · exact exec_add_finishBody .lsbFirst v hf hclean hn hfit
    · exact exec_add_finishBody .msbFirst v hf hclean hn hfit

end

/-! # Proofs: MF_STEP by its iteration (O41, O42, O43, O44) -/

section
namespace Sys2Proof.Machine

variable {rd : Nat → Option Byte}

/-! ## One iteration, case by case -/

/-- With no input left the iteration produces no Token (R133). -/
theorem iterate_of_end {n i : Nat} (h : n ≤ i) (pt : PrefixTable) : iterate rd n i pt = some (none, pt) :=
  if_pos h

/-- With one or two bytes left the iteration produces the Literal and registers nothing (R134). -/
theorem iterate_of_tail {n i : Nat} {b : Byte} (hi : i < n) (hn : n < i + 3) (hb : rd i = some b)
    (pt : PrefixTable) : iterate rd n i pt = some (some (.literal b), pt) := by
  have htail : n - i < minMatch := show n - i < 3 by omega
  rw [iterate, if_neg (by omega), if_pos htail, hb]

/-- With three or more bytes left the iteration scans the candidates of the key, then registers the position
(R132, R135, R140, R141). -/
theorem iterate_of_scan {n i : Nat} {k : Key} {b : Byte} {pt : PrefixTable} {best : Nat × Nat} (hi : i + 3 ≤ n)
    (hk : keyAt rd i = some k) (hb : rd i = some b)
    (hs : scan rd i n (PrefixTable.positions pt k).reverse (0, 0) = some best) :
    iterate rd n i pt =
      some (some (if minMatch ≤ best.1 then .copy best.1 best.2 else .literal b), PrefixTable.register pt k i) := by
  have hfull : ¬ n - i < minMatch := show ¬ n - i < 3 by omega
  rw [iterate, if_neg (by omega), if_neg hfull, hk, hb]
  simp only [hs]

/-! ## MF_STEP by what its iteration answers (R144) -/

section Exec

variable {s : State} (hf : s.fault = false)
include hf

/-- MF_STEP whose iteration produces no Token. -/
theorem exec_mfStep_noToken (hlen : s.inLen.toNat ≤ s.cfg.inCap.toNat) {pt : PrefixTable}
    (hi : iterate s.inByte s.inLen.toNat s.mfPos.toNat s.pt = some (none, pt)) :
    exec .mfStep s = .next s.noToken := by
  have hbody : mfStepBody s = .ok s.noToken := by rw [mfStepBody, hi]
  exact exec_of_bodyOf hf ((mfStep_ok hlen).trans hbody)

/-- MF_STEP whose iteration produces a Token. -/
theorem exec_mfStep_produce (hlen : s.inLen.toNat ≤ s.cfg.inCap.toNat) {tk : Token} {pt : PrefixTable}
    (hi : iterate s.inByte s.inLen.toNat s.mfPos.toNat s.pt = some (some tk, pt)) :
    exec .mfStep s = .next (s.produce tk pt) := by
  have hbody : mfStepBody s = .ok (s.produce tk pt) := by rw [mfStepBody, hi]
  exact exec_of_bodyOf hf ((mfStep_ok hlen).trans hbody)

/-- MF_STEP whose iteration reads an unwritten byte (R131). -/
theorem exec_mfStep_unwritten (hlen : s.inLen.toNat ≤ s.cfg.inCap.toNat)
    (hi : iterate s.inByte s.inLen.toNat s.mfPos.toNat s.pt = none) :
    exec .mfStep s = .fault .unwrittenRead := by
  have hbody : mfStepBody s = .error .unwrittenRead := by rw [mfStepBody, hi]
  rw [exec_eq_runCommand]
  exact runCommand_unwritten hf ((mfStep_ok hlen).trans hbody) _

end Exec

/-- MF_STEP stops only past its `IN_LEN` check and in its iteration. -/
theorem exec_mfStep_fault {s : State} {f : Fault} (h : exec .mfStep s = .fault f) :
    s.inLen.toNat ≤ s.cfg.inCap.toNat ∧ iterate s.inByte s.inLen.toNat s.mfPos.toNat s.pt = none := by
  rw [exec_eq_runCommand] at h
  obtain ⟨-, hstop⟩ := runCommand_fault h
  change mfStep s = .error .unwrittenRead at hstop
  rcases Nat.lt_or_ge s.cfg.inCap.toNat s.inLen.toNat with hl | hl
  · rw [mfStep_bad hl] at hstop; cases hstop
  · refine ⟨hl, ?_⟩
    rw [mfStep_ok hl] at hstop
    obtain ⟨hi, -⟩ | ⟨p, -, hok⟩ | ⟨tk, p, -, hok⟩ := mfStepBody_cases s
    · exact hi
    · rw [hok] at hstop; cases hstop
    · rw [hok] at hstop; cases hstop

/-- The table's invariant is what an iteration relies on (R28). -/
theorem tableHolds_of_inv {s : State} (h : PrefixTableInv s) :
    TableHolds s.inByte s.inLen.toNat s.mfPos.toNat s.pt := by
  obtain ⟨-, -, htable, -⟩ := (prefixTableInv_iff s).1 h
  exact htable

/-! ## The best candidate within the window (R136 to R139, R151) -/

/-- The candidates of a list of positions that are within the window (R136). -/
abbrev nearCandidates (i : Nat) (ps : List Nat) : List Nat := ps.filter fun c => decide (i - c ≤ window)

theorem mem_nearCandidates {i c : Nat} {ps : List Nat} : c ∈ nearCandidates i ps ↔ c ∈ ps ∧ i - c ≤ window := by
  rw [nearCandidates, List.mem_filter, decide_eq_true_iff]

/-- With no candidate within the window the scan keeps the best it started from (R136). -/
theorem scan_of_near_nil {i n : Nat} {ps : List Nat} {best : Nat × Nat} (hps : ps.Pairwise (· < ·))
    (hnear : nearCandidates i ps = []) (h : scan rd i n ps.reverse (0, 0) = some best) : best = (0, 0) := by
  obtain ⟨-, hbest | ⟨c, hc, hw, -⟩, -⟩ := scan_spec (List.pairwise_reverse.2 hps) h
  · exact hbest
  · have hmem : c ∈ nearCandidates i ps := mem_nearCandidates.2 ⟨List.mem_reverse.1 hc, hw⟩
    rw [hnear] at hmem
    cases hmem

/-- With a candidate within the window the scan answers the longest of them, the most recent among equals
(R137, R139). -/
theorem scan_of_near {i n : Nat} {ps : List Nat} {best : Nat × Nat} (hps : ps.Pairwise (· < ·))
    (hrd : ∀ j, j < n → (rd j).isSome = true) (hearlier : ∀ p ∈ ps, p ≤ i) (hnear : nearCandidates i ps ≠ [])
    (h : scan rd i n ps.reverse (0, 0) = some best) :
    ∃ c ∈ nearCandidates i ps, extend rd c i n = some best.1 ∧ best.2 = i - c ∧
      ∀ c' ∈ nearCandidates i ps, ∀ L', extend rd c' i n = some L' → L' ≤ best.1 ∧ (c < c' → L' < best.1) := by
  obtain ⟨-, hbest, hlongest⟩ := scan_spec (List.pairwise_reverse.2 hps) h
  have hmax : ∀ c' ∈ nearCandidates i ps, ∀ L', extend rd c' i n = some L' → L' ≤ best.1 := by
    intro c' hc' L' hL'
    obtain ⟨hmem, hw⟩ := mem_nearCandidates.1 hc'
    exact hlongest (Nat.zero_le _) c' (List.mem_reverse.2 hmem) hw L' hL'
  obtain rfl | ⟨c, hc, hw, hext, hdist, -, hrecent⟩ := hbest
  · obtain ⟨c', hc'⟩ := List.exists_mem_of_ne_nil _ hnear
    obtain ⟨hmem, -⟩ := mem_nearCandidates.1 hc'
    obtain ⟨L', hL'⟩ := Option.isSome_iff_exists.1 (extend_isSome (i := i) hrd (hearlier c' hmem))
    have hmin : 3 ≤ L' := (extend_spec hL').1
    have hzero : L' ≤ 0 := hmax c' hc' L' hL'
    omega
  · refine ⟨c, mem_nearCandidates.2 ⟨List.mem_reverse.1 hc, hw⟩, hext, hdist, fun c' hc' L' hL' => ?_⟩
    obtain ⟨hmem, -⟩ := mem_nearCandidates.1 hc'
    exact ⟨hmax c' hc' L' hL', fun hlt => hrecent c' (List.mem_reverse.2 hmem) hlt L' hL'⟩

/-- The match length of a candidate with the position's key is what `extend` answers for it (R138). -/
theorem matchLength_iff_extend {s : State} {c i : Nat} {k : Key} (hload : InputLoaded s)
    (hi : i + 3 ≤ s.inLen.toNat) (hc : c ≤ i) (hkey : keyAt s.inByte i = some k)
    (hkey' : keyAt s.inByte c = some k) (L : Nat) :
    MatchLength s c i L ↔ extend s.inByte c i s.inLen.toNat = some L := by
  obtain ⟨R, hR⟩ := Option.isSome_iff_exists.1 (extend_isSome (i := i) hload hc)
  obtain ⟨hmin, hmax, hinside, hequal, hstop⟩ := extend_spec hR
  have hinside : i + R ≤ s.inLen.toNat := hinside hi
  have hbytes : ∀ m, m < R → s.inByte (c + m) = s.inByte (i + m) := fun m hm => by
    by_cases h3 : m < 3
    · exact (bytes_eq_of_keyAt_eq hkey' hkey m h3).1
    · exact (hequal m (show 3 ≤ m by omega) hm).1
  have hstop : R = maxMatch ∨ i + R = s.inLen.toNat ∨ s.inByte (c + R) ≠ s.inByte (i + R) := by
    obtain hfull | hend | ⟨x, y, hx, hy, hne⟩ := hstop
    · exact .inl hfull
    · exact .inr (.inl (by omega))
    · exact .inr (.inr (by simpa [hx, hy] using hne))
  rw [hR, Option.some.injEq]
  constructor
  · rintro ⟨⟨-, hmaxL, hinsideL⟩, hbytesL, hstopL⟩
    rcases Nat.lt_trichotomy R L with hlt | heq | hgt
    · obtain hfull | hend | hne := hstop
      · omega
      · omega
      · exact absurd (hbytesL R hlt) hne
    · exact heq
    · obtain hfull | hend | hne := hstopL
      · omega
      · omega
      · exact absurd (hbytes L hgt) hne
  · rintro rfl
    exact ⟨⟨hmin, hmax, hinside⟩, hbytes, hstop⟩

end Sys2Proof.Machine

open Sys2Proof.Machine in
/-- Settles O41: the iteration answers no Token. -/
theorem mfStepAtEndOfInput : Obligations.MfStepAtEndOfInput := by
  unfold Obligations.MfStepAtEndOfInput
  intro s hf hlen hend
  exact exec_mfStep_noToken hf hlen (iterate_of_end hend s.pt)

open Sys2Proof.Machine in
/-- Settles O42: the iteration on the tail produces the Literal and keeps the table. -/
theorem mfStepOnTheTail : Obligations.MfStepOnTheTail := by
  unfold Obligations.MfStepOnTheTail
  intro s b hf hlen hleft htail hb
  have hpos : BitVec.ofNat 32 (s.mfPos.toNat + 1) = s.mfPos + 1#32 := by
    rw [BitVec.ofNat_add, BitVec.ofNat_toNat, BitVec.setWidth_eq]
  rw [exec_mfStep_produce hf hlen (iterate_of_tail (by omega) (by omega) hb s.pt), ← hpos]
  rfl

open Sys2Proof.Machine in
/-- Settles O44: what the iteration reads, and that it answers over loaded input. -/
theorem mfStepStopsOnlyOnUnwrittenInput : Obligations.MfStepStopsOnlyOnUnwrittenInput := by
  unfold Obligations.MfStepStopsOnlyOnUnwrittenInput
  intro s hf
  refine ⟨fun hbad => ?badInLen, fun hlen => ⟨fun hi hb => ?atCursor, fun hi j hj hb => ?inKey⟩,
    fun f hstop hinv => ?onlyUnwritten⟩
  case badInLen => exact exec_of_raised (i := .mfStep) hf (mfStep_bad hbad)
  case atCursor => exact exec_mfStep_unwritten hf hlen (iterate_none_of_byte hi hb s.pt)
  case inKey => exact exec_mfStep_unwritten hf hlen (iterate_none_of_key hi hj hb s.pt)
  case onlyUnwritten =>
    obtain ⟨hlen, hnone⟩ := exec_mfStep_fault hstop
    refine ⟨by cases f; rfl, hlen, ?_⟩
    by_contra hwritten
    have hload : InputLoaded s := fun j hj => by
      rw [Option.isSome_iff_ne_none]
      exact fun hj' => hwritten ⟨j, hj, hj'⟩
    have hanswers := iterate_table_isSome (tableHolds_of_inv hinv) hload
    rw [hnone] at hanswers
    cases hanswers

open Sys2Proof.Machine in
/-- Settles O43: the iteration emits the scan's best, and the scan's best is the best candidate. -/
theorem mfStepFindsTheBestMatch : Obligations.MfStepFindsTheBestMatch := by
  unfold Obligations.MfStepFindsTheBestMatch
  intro s hf hlen hload hinv hi
  have htable := tableHolds_of_inv hinv
  obtain ⟨k, hk⟩ := Option.isSome_iff_exists.1 (keyAt_isSome hload hi)
  obtain ⟨b, hb⟩ := Option.isSome_iff_exists.1 (hload s.mfPos.toNat (by omega))
  have hearlier : ∀ p ∈ PrefixTable.positions s.pt k, p ≤ s.mfPos.toNat := fun p hp => (htable.earlier k p hp).le
  obtain ⟨best, hscan⟩ := Option.isSome_iff_exists.1 (scan_isSome (i := s.mfPos.toNat) hload
    (fun c hc => hearlier c (List.mem_reverse.1 hc)) (0, 0))
  have hexec := exec_mfStep_produce hf hlen (iterate_of_scan hi hk hb hscan)
  refine ⟨k, b, hk, hb, fun hnone => ?literal, fun hsome => ?longest⟩
  case literal =>
    obtain rfl := scan_of_near_nil (htable.rising k) hnone hscan
    exact hexec
  case longest =>
    have hlength : ∀ c ∈ PrefixTable.positions s.pt k, ∀ L,
        MatchLength s c s.mfPos.toNat L ↔ extend s.inByte c s.mfPos.toNat s.inLen.toNat = some L := fun c hc =>
      matchLength_iff_extend hload hi (hearlier c hc) hk (htable.keyed k c hc)
    obtain ⟨c, hc, hext, hdist, hbest⟩ := scan_of_near (htable.rising k) hload hearlier hsome hscan
    obtain ⟨hmem, -⟩ := mem_nearCandidates.1 hc
    refine ⟨c, hc, best.1, (hlength c hmem _).2 hext, ?_, fun c' hc' L' hL' => ?_, ?_⟩
    · have := htable.earlier k c hmem; omega
    · exact hbest c' hc' L' ((hlength c' (mem_nearCandidates.1 hc').1 L').1 hL')
    · rw [hexec, if_pos (extend_spec hext).1, ← hdist]
      rfl

end

/-! # Proofs: the Tokens of an input and what they stand for (O46, O47) -/

section
namespace Sys2Proof.Machine

/-- The reader of the bytes of `x`. -/
abbrev readerOf (x : List Byte) : Nat → Option Byte := fun j => x[j]?

theorem readerOf_isSome (x : List Byte) : ∀ j, j < x.length → (readerOf x j).isSome = true :=
  fun j hj => by simp [hj]

theorem tokensFrom_of_token {x : List Byte} {i : Nat} {pt pt' : PrefixTable} {t : Token}
    (h : iterate (readerOf x) x.length i pt = some (some t, pt')) (fuel : Nat) :
    tokensFrom x (fuel + 1) i pt = t :: tokensFrom x fuel (i + t.consumed) pt' := by
  rw [tokensFrom, h]

theorem tokensFrom_of_end {x : List Byte} {i : Nat} (h : x.length ≤ i) (fuel : Nat) (pt : PrefixTable) :
    tokensFrom x fuel i pt = [] := by
  cases fuel with
  | zero => rfl
  | succ fuel => rw [tokensFrom, iterate_of_end h]

/-! ## What every Token sequence of the MatchFinder is (R145, R147, R148) -/

/-- The Tokens of a run over `x` from position `i` to its end: each is legal, lies inside the input and says
what the bytes it covers are. -/
inductive TokenRun (x : List Byte) : Nat → List Token → Prop where
  | done : TokenRun x x.length []
  | token {i : Nat} {t : Token} {ts : List Token} (legal : t.legal = true) (inside : i + t.consumed ≤ x.length)
      (describes : t.Matches (readerOf x) i) (rest : TokenRun x (i + t.consumed) ts) : TokenRun x i (t :: ts)

/-- With enough iterations the Tokens from a position are a run, since each one moves the cursor (R147). -/
theorem tokenRun_tokensFrom {x : List Byte} {fuel i : Nat} {pt : PrefixTable}
    (htable : TableHolds (readerOf x) x.length i pt) (hi : i ≤ x.length) (hfuel : x.length < i + fuel) :
    TokenRun x i (tokensFrom x fuel i pt) := by
  induction fuel generalizing i pt with
  | zero => omega
  | succ fuel ih =>
    obtain ⟨r, hr⟩ := Option.isSome_iff_exists.1 (iterate_table_isSome htable (readerOf_isSome x))
    obtain ⟨hend, -⟩ | ⟨-, t, pt', rfl, hlegal, hinside, hmatches, htable'⟩ := iterate_table htable hr
    · obtain rfl : i = x.length := by omega
      rw [tokensFrom_of_end hend]
      exact .done
    · have hmoves := Token.one_le_consumed hlegal
      rw [tokensFrom_of_token hr]
      exact .token hlegal hinside hmatches (ih htable' hinside (by omega))

theorem tokenRun_mfTokens (x : List Byte) : TokenRun x 0 (mfTokens x) :=
  tokenRun_tokensFrom (.nil _ _ _) (Nat.zero_le _) (by omega)

theorem TokenRun.legal {x : List Byte} {i : Nat} {ts : List Token} (h : TokenRun x i ts) :
    ∀ t ∈ ts, t.legal = true := by
  induction h with
  | done => simp
  | token hlegal _ _ _ ih => exact List.forall_mem_cons.2 ⟨hlegal, ih⟩

/-- The Tokens cover what is left of the input exactly once (R148). -/
theorem TokenRun.sum_consumed {x : List Byte} {i : Nat} {ts : List Token} (h : TokenRun x i ts) :
    i + (ts.map Token.consumed).sum = x.length := by
  induction h with
  | done => rfl
  | token _ _ _ _ ih => rw [List.map_cons, List.sum_cons, ← Nat.add_assoc, ih]

/-! ## What the Tokens stand for (R148) -/

/-- Copying byte by byte reproduces bytes that equal those `distance` back, overlap included. -/
theorem copyBack_take {x : List Byte} {distance length i : Nat} (hpos : 1 ≤ distance) (hback : distance ≤ i)
    (hinside : i + length ≤ x.length) (hequal : ∀ k, k < length → x[i + k]? = x[i - distance + k]?) :
    copyBack distance length (x.take i) = some (x.take (i + length)) := by
  induction length generalizing i with
  | zero => rfl
  | succ length ih =>
    have hlen : (x.take i).length = i := List.length_take_of_le (by omega)
    have hcopied : (x.take i)[i - distance]? = some x[i] := by
      rw [List.getElem?_take_of_lt (by omega), ← List.getElem?_eq_getElem]
      exact (hequal 0 (Nat.succ_pos _)).symm
    have hrest : ∀ k, k < length → x[i + 1 + k]? = x[i + 1 - distance + k]? := fun k hk => by
      have := hequal (k + 1) (by omega)
      rwa [show i + (k + 1) = i + 1 + k by omega, show i - distance + (k + 1) = i + 1 - distance + k by omega] at this
    rw [copyBack, hlen, if_pos ⟨hpos, hback⟩, hcopied]
    simp only
    rw [List.take_append_getElem, ih (by omega) (by omega) hrest, Nat.add_right_comm i 1 length, Nat.add_assoc]

/-- A legal Token that describes the bytes at `i` extends the first `i` bytes past those it covers. -/
theorem expandToken_take {x : List Byte} {i : Nat} {t : Token} (hlegal : t.legal = true)
    (hinside : i + t.consumed ≤ x.length) (hmatches : t.Matches (readerOf x) i) :
    expandToken (x.take i) t = some (x.take (i + t.consumed)) := by
  cases t with
  | literal b =>
    obtain ⟨hi, rfl⟩ := List.getElem?_eq_some_iff.1 hmatches
    exact congrArg some (List.take_append_getElem hi)
  | copy length distance =>
    obtain ⟨-, -, hpos, -⟩ := (Token.legal_copy_iff _ _).1 hlegal
    obtain ⟨hback, hequal⟩ := hmatches
    exact copyBack_take hpos hback hinside hequal

theorem TokenRun.expandTokens_take {x : List Byte} {i : Nat} {ts : List Token} (h : TokenRun x i ts) :
    expandTokens (x.take i) ts = some x := by
  induction h with
  | done => rw [List.take_length]; rfl
  | token hlegal hinside hmatches _ ih => rw [expandTokens, expandToken_take hlegal hinside hmatches]; exact ih

/-! ## Inputs too short for a Match (R150) -/

/-- With at most two bytes left every Token is a Literal, whatever the table holds (R134). -/
theorem tokensFrom_tail {x : List Byte} {fuel i : Nat} (htail : x.length ≤ i + 2) (hfuel : x.length < i + fuel)
    (pt : PrefixTable) : tokensFrom x fuel i pt = (x.drop i).map Token.literal := by
  induction fuel generalizing i with
  | zero => rw [List.drop_eq_nil_of_le (by omega)]; rfl
  | succ fuel ih =>
    by_cases hi : i < x.length
    · have hb : readerOf x i = some x[i] := List.getElem?_eq_getElem hi
      rw [tokensFrom_of_token (iterate_of_tail hi (by omega) hb pt), ih (by show _ ≤ i + 1 + 2; omega)
        (by show _ < i + 1 + fuel; omega), List.drop_eq_getElem_cons hi]
      rfl
    · rw [tokensFrom_of_end (by omega), List.drop_eq_nil_of_le (by omega)]
      rfl

/-- The first iteration finds the table empty, so it produces a Literal (R135, R141). -/
theorem iterate_nil_of_three {x : List Byte} (h : x.length = 3) :
    ∃ k, iterate (readerOf x) x.length 0 [] = some (some (.literal x[0]), PrefixTable.register [] k 0) := by
  obtain ⟨k, hk⟩ := Option.isSome_iff_exists.1 (keyAt_isSome (i := 0) (readerOf_isSome x) (by omega))
  exact ⟨k, iterate_of_scan (best := (0, 0)) (by omega) hk (List.getElem?_eq_getElem (by omega)) rfl⟩

end Sys2Proof.Machine

open Sys2Proof.Machine in
/-- Settles O46: the Tokens are a run over the input. -/
theorem tokensReproduceTheInput : Obligations.TokensReproduceTheInput := by
  unfold Obligations.TokensReproduceTheInput
  intro x
  have hrun := tokenRun_mfTokens x
  exact ⟨hrun.legal, by simpa using hrun.sum_consumed, hrun.expandTokens_take⟩

open Sys2Proof.Machine in
/-- Settles O47: two bytes are a tail, and of three bytes the first one meets an empty table. -/
theorem smallInputsGiveLiterals : Obligations.SmallInputsGiveLiterals := by
  unfold Obligations.SmallInputsGiveLiterals
  intro x hx
  rw [mfTokens]
  rcases Nat.lt_or_eq_of_le hx with hshort | hthree
  · exact tokensFrom_tail (by omega) (by omega) []
  · obtain ⟨k, hfirst⟩ := iterate_nil_of_three hthree
    rw [tokensFrom_of_token hfirst, tokensFrom_tail (by show _ ≤ 0 + 1 + 2; omega) (by show _ < 0 + 1 + _; omega)]
    exact (congrArg (List.map Token.literal) (List.drop_eq_getElem_cons (by omega))).symm

end

/-! # Proofs: the rows the lookup selects and the Codes made of them (O38, O39, O40) -/

section
namespace Sys2Proof.Machine

/-! ## The rows of a table leave no gap (R170, R171, R187) -/

/-- Where the range of a row ends (its start and 2^extra values), another row has already started, up to `last`. -/
abbrev RowsMeet (table : List TableRow) (last : Nat) : Prop :=
  ∀ r ∈ table, last < r.start + 2 ^ r.extra ∨ ∃ r' ∈ table, r.start < r'.start ∧ r'.start ≤ r.start + 2 ^ r.extra

theorem lengthTable_meets : RowsMeet lengthTable 258 := by decide

theorem distanceTable_meets : RowsMeet distanceTable 32768 := by decide

/-- The offset of a value in the last row that starts at or below it fits the row's extra bits: otherwise the next
row starts at or below the value too. -/
theorem RowsMeet.offset_lt {table : List TableRow} {last v : Nat} {row : TableRow} (h : RowsMeet table last)
    (hrow : row ∈ table) (hlast : ∀ r ∈ table, r.start ≤ v → r.start ≤ row.start) (hv : v ≤ last) :
    v - row.start < 2 ^ row.extra := by
  by_contra hout
  have hpast : row.start + 2 ^ row.extra ≤ v := by
    have hpos := Nat.two_pow_pos row.extra
    omega
  obtain hend | ⟨r', hr', hlater, hstart⟩ := h row hrow
  · omega
  · exact absurd (hlast r' hr' (hstart.trans hpast)) (Nat.not_le.2 hlater)

theorem lengthRow_offset_lt {length : Nat} (h3 : 3 ≤ length) (h258 : length ≤ 258) :
    length - (lengthRow length).start < 2 ^ (lengthRow length).extra := by
  obtain ⟨hmem, -, hlast⟩ := lengthRow_spec h3
  exact lengthTable_meets.offset_lt hmem hlast h258

theorem distanceRow_offset_lt {distance : Nat} (h1 : 1 ≤ distance) (hw : distance ≤ 32768) :
    distance - (distanceRow distance).start < 2 ^ (distanceRow distance).extra := by
  obtain ⟨hmem, -, hlast⟩ := distanceRow_spec h1
  exact distanceTable_meets.offset_lt hmem hlast hw

/-! ## The Codes of the rows (R187, R188) -/

/-- The value has no bit at or above the width, and the width is one of R188's. -/
abbrev Code.Fits (c : Code) : Prop := c.value < 2 ^ c.width ∧ 1 ≤ c.width ∧ c.width ≤ 13

/-- What the lengths' side of a Match is made of: a code of 7 or 8 bits and at most 5 extra bits. -/
theorem lengthTable_codes : ∀ r ∈ lengthTable,
    (huffLength r.symbol).Fits ∧ 7 ≤ (huffLength r.symbol).width ∧ (huffLength r.symbol).width ≤ 8 ∧ r.extra ≤ 5 := by
  decide

/-- What the distances' side of a Match is made of: a code of 5 bits and at most 13 extra bits. -/
theorem distanceTable_codes : ∀ r ∈ distanceTable, (huffDistance r.symbol).Fits ∧ r.extra ≤ 13 := by decide

theorem codesLiteral_fit (b : Byte) : ∀ c ∈ codesLiteral b, c.Fits := by
  have hb := b.isLt
  unfold codesLiteral
  split <;> intro c hc <;> obtain rfl := List.mem_singleton.1 hc
  · show b.toNat + 0x30 < 2 ^ 8 ∧ 1 ≤ 8 ∧ 8 ≤ 13; omega
  · show b.toNat - 144 + 0x190 < 2 ^ 9 ∧ 1 ≤ 9 ∧ 9 ≤ 13; omega

theorem extraCodes_fit {row : TableRow} {v : Nat} (hv : v - row.start < 2 ^ row.extra) (hextra : row.extra ≤ 13) :
    ∀ c ∈ extraCodes row v, c.Fits := by
  unfold extraCodes
  split <;> intro c hc
  · obtain rfl := List.mem_singleton.1 hc
    exact ⟨hv, ‹0 < row.extra›, hextra⟩
  · cases hc

theorem codesMatch_fit {length distance : Nat} (h : (Token.copy length distance).legal = true) :
    ∀ c ∈ codesMatch length distance, c.Fits := by
  obtain ⟨h3, h258, h1, hw⟩ := (Token.legal_copy_iff _ _).1 h
  obtain ⟨hlength, -, -, hlextra⟩ := lengthTable_codes _ (lengthRow_spec h3).1
  obtain ⟨hdistance, hdextra⟩ := distanceTable_codes _ (distanceRow_spec h1).1
  simp only [codesMatch, List.forall_mem_append, List.forall_mem_singleton]
  exact ⟨⟨⟨hlength, extraCodes_fit (lengthRow_offset_lt h3 h258) (by omega)⟩, hdistance⟩,
    extraCodes_fit (distanceRow_offset_lt h1 hw) hdextra⟩

/-- The bits of a Match, field by field (R178). -/
theorem codesWidth_codesMatch (length distance : Nat) : codesWidth (codesMatch length distance) =
    (huffLength (lengthRow length).symbol).width + (lengthRow length).extra + 5 + (distanceRow distance).extra := by
  simp only [codesMatch, codesWidth_append, codesWidth_extraCodes]
  rfl

end Sys2Proof.Machine

open Sys2Proof.Machine in
/-- Settles O38: a value past the range of its row would lie in the next row; the rest is read off the two tables. -/
theorem lookupSelectsTheRow : Obligations.LookupSelectsTheRow := by
  unfold Obligations.LookupSelectsTheRow
  refine ⟨fun length h3 h258 => ?_, fun distance h1 hw => ?_, by decide⟩
  · obtain ⟨hmem, hstart, -⟩ := lengthRow_spec h3
    exact ⟨hmem, hstart, lengthRow_offset_lt h3 h258⟩
  · obtain ⟨hmem, hstart, -⟩ := distanceRow_spec h1
    exact ⟨hmem, hstart, distanceRow_offset_lt h1 hw⟩

open Sys2Proof.Machine in
/-- Settles O39, Token by Token; the header and the end of block are three fixed Codes. -/
theorem codesFitTheirWidths : Obligations.CodesFitTheirWidths := by
  unfold Obligations.CodesFitTheirWidths
  refine ⟨fun t h => ?_, by decide⟩
  cases t with
  | literal b => exact codesLiteral_fit b
  | copy length distance => exact codesMatch_fit h

open Sys2Proof.Machine in
/-- Settles O40: the four fields of a Match take 7 or 8, 0 to 5, 5 and 0 to 13 bits. -/
theorem tokenBitCounts : Obligations.TokenBitCounts := by
  unfold Obligations.TokenBitCounts
  refine ⟨fun b => ?_, fun length distance h => ?_⟩
  · simp only [codesToken, codesLiteral]
    split
    · exact .inl rfl
    · exact .inr rfl
  · have hbytes : codesWidth (codesToken (.copy length distance)) ≤ 9 * length := codesWidth_token_le h
    obtain ⟨h3, -, h1, -⟩ := (Token.legal_copy_iff _ _).1 h
    obtain ⟨-, h7, h8, hlextra⟩ := lengthTable_codes _ (lengthRow_spec h3).1
    obtain ⟨-, hdextra⟩ := distanceTable_codes _ (distanceRow_spec h1).1
    refine ⟨?_, ?_, hbytes⟩ <;> rw [codesToken, codesWidth_codesMatch] <;> omega

end

/-! # Proofs: the commands of the SymbolEncoder (O33 to O37) -/

section
namespace Sys2Proof.Machine

/-! ## A command whose pseudocode is one `emit` (R105, R110) -/

/-- Codes that do not fit raise OUT_OVERFLOW (R110). -/
theorem exec_emit_of_full {i : Instr} {s : State} {cs : List Code} (hf : s.fault = false)
    (hb : bodyOf i s = s.emit cs) (hfull : 8 * s.cfg.outCap.toNat < s.bitLen + codesWidth cs) :
    exec i s = .next (Faulted s 5#4 (encode i)) := by
  refine exec_of_raised (c := .outOverflow) hf ?_
  obtain ⟨hfit, -⟩ | ⟨-, he⟩ := s.emit_cases cs
  · exact absurd hfit (Nat.not_le.2 hfull)
  · rw [hb, he]

/-- Codes that fit are placed, and no fault is raised (R105). -/
theorem exec_emit_of_fits {i : Instr} {s : State} {cs : List Code} (hf : s.fault = false)
    (hb : bodyOf i s = s.emit cs) (hfit : s.bitLen + codesWidth cs ≤ 8 * s.cfg.outCap.toNat) :
    exec i s = .next (s.putBits (codesBits cs)) :=
  exec_of_bodyOf hf (hb.trans (State.emit_of_fits hfit))

/-- Everything such a command can do while `FAULT` = 0: OUT_OVERFLOW, or the bits of its Codes at the cursor. -/
theorem exec_emit_effect {i : Instr} {s : State} {cs : List Code} {bits : List Bool} (hf : s.fault = false)
    (hb : bodyOf i s = s.emit cs) (hbits : codesBits cs = bits) :
    (8 * s.cfg.outCap.toNat < s.bitLen + bits.length → exec i s = .next (Faulted s 5#4 (encode i))) ∧
    (s.bitLen + bits.length ≤ 8 * s.cfg.outCap.toNat → CurClean s →
      ∃ t, exec i s = .next t ∧ PlacesBits s t bits) := by
  subst hbits
  rw [length_codesBits]
  refine ⟨exec_emit_of_full hf hb, fun hfit hclean => ⟨_, exec_emit_of_fits hf hb hfit, ?_⟩⟩
  exact State.placesBits_putBits hclean (by rwa [length_codesBits])

/-! ## The bits of the Codes -/

/-- The bits of a Literal's code (R173). -/
theorem codesBits_codesLiteral (b : Byte) : codesBits (codesLiteral b) =
    if b.toNat ≤ 143 then bitsMsbFirst (b.toNat + 0x30) 8 else bitsMsbFirst (b.toNat - 144 + 0x190) 9 := by
  unfold codesLiteral
  split <;> exact List.append_nil _

/-- The bits of a length symbol's code (R174). -/
theorem bits_huffLength (symbol : Nat) : (huffLength symbol).bits =
    if symbol ≤ 279 then bitsMsbFirst (symbol - 256) 7 else bitsMsbFirst (symbol - 280 + 0xC0) 8 := by
  unfold huffLength
  split <;> rfl

/-- The bits of a Match, field by field (R178). -/
theorem codesBits_codesMatch (length distance : Nat) : codesBits (codesMatch length distance) =
    (huffLength (lengthRow length).symbol).bits ++
      bitsLsbFirst (length - (lengthRow length).start) (lengthRow length).extra ++
      bitsMsbFirst (distanceRow distance).symbol 5 ++
      bitsLsbFirst (distance - (distanceRow distance).start) (distanceRow distance).extra := by
  simp only [codesMatch, codesBits_append, codesBits_extraCodes, codesBits_cons, codesBits_nil, List.append_nil]
  rfl

/-! ## The checks of SE_MATCH and the Token of SE_TOKEN (R182, R184) -/

theorem seMatch_of_bad_length {length : Nat} (h : length < 3 ∨ 258 < length) (distance : Nat) (s : State) :
    seMatch length distance s = .error (.raised .badLength) :=
  if_neg (by rw [legalLength_iff]; omega)

theorem seMatch_of_bad_distance {length distance : Nat} (h3 : 3 ≤ length) (h258 : length ≤ 258)
    (h : distance < 1 ∨ 32768 < distance) (s : State) :
    seMatch length distance s = .error (.raised .badDistance) := by
  rw [seMatch, if_pos ((legalLength_iff _).2 ⟨h3, h258⟩), if_neg (by rw [legalDistance_iff]; omega)]

theorem seMatch_of_legal {length distance : Nat} (h : (Token.copy length distance).legal = true) (s : State) :
    seMatch length distance s = s.emit (codesMatch length distance) := by
  obtain ⟨h3, h258, h1, hw⟩ := (Token.legal_copy_iff _ _).1 h
  rw [seMatch, if_pos ((legalLength_iff _).2 ⟨h3, h258⟩), if_pos ((legalDistance_iff _).2 ⟨h1, hw⟩)]

theorem seToken_of_invalid {s : State} (h : s.tokenValid = false) : seToken s = .ok s := by
  rw [seToken, if_neg (by rw [h]; decide)]

theorem seToken_of_word {s : State} {tk : Token} (h : tk.legal = true) (hs : s.token = tk.word) :
    seToken s = s.emit (codesToken tk) := by
  have hvalid : s.tokenValid = true := by rw [State.tokenValid, hs, tokenWordValid_word h]
  rw [seToken, if_pos hvalid, hs, tokenOfWord_word h]

/-- SE_LITERAL and SE_MATCH emit the Codes of the Token whose fields they are given (R179). -/
theorem bodyOf_emitCommand {tk : Token} (h : tk.legal = true) (s : State) :
    bodyOf tk.emitCommand s = s.emit (codesToken tk) := by
  cases tk with
  | literal b => rfl
  | copy length distance => exact seMatch_of_legal h s

end Sys2Proof.Machine

open Sys2Proof Sys2Proof.Machine in
/-- Settles O33: HEADER_CODES are the bits 1, 1, 0. -/
theorem seHeaderPlacesTheBlockHeader : Obligations.SeHeaderPlacesTheBlockHeader := by
  unfold Obligations.SeHeaderPlacesTheBlockHeader
  intro s hf
  have hbits : codesBits headerCodes = [true, true, false] := by decide
  have hword : encode .seHeader = 0x3000000000000000#64 := by decide
  exact hword ▸ exec_emit_effect (i := .seHeader) hf rfl hbits

open Sys2Proof Sys2Proof.Machine in
/-- Settles O34: EOB_CODES are seven 0 bits. -/
theorem seEobPlacesSevenZeros : Obligations.SeEobPlacesSevenZeros := by
  unfold Obligations.SeEobPlacesSevenZeros
  intro s hf
  have hbits : codesBits eobCodes = List.replicate 7 false := by decide
  have hword : encode .seEob = 0x3400000000000000#64 := by decide
  exact hword ▸ exec_emit_effect (i := .seEob) hf rfl hbits

open Sys2Proof.Machine in
/-- Settles O35: every byte has a code, so the only check is for room. -/
theorem seLiteralPlacesTheLiteralCode : Obligations.SeLiteralPlacesTheLiteralCode := by
  unfold Obligations.SeLiteralPlacesTheLiteralCode
  intro s lit hf
  exact exec_emit_effect hf rfl (codesBits_codesLiteral lit)

open Sys2Proof.Machine in
/-- Settles O36, check by check in the order of R235; the rows are those of the two lookups. -/
theorem seMatchPlacesTheMatchCodes : Obligations.SeMatchPlacesTheMatchCodes := by
  unfold Obligations.SeMatchPlacesTheMatchCodes
  intro s length distance hf
  refine ⟨fun h => ?badLength, fun h3 h258 h => ?badDistance, fun h3 h258 h1 hw => ?legal⟩
  case badLength => exact exec_of_raised (i := .seMatch length distance) hf (seMatch_of_bad_length h distance s)
  case badDistance => exact exec_of_raised (i := .seMatch length distance) hf (seMatch_of_bad_distance h3 h258 h s)
  case legal =>
    obtain ⟨hlmem, hlrow⟩ := lengthRow_spec h3
    obtain ⟨hdmem, hdrow⟩ := distanceRow_spec h1
    have hbody := seMatch_of_legal ((Token.legal_copy_iff _ _).2 ⟨h3, h258, h1, hw⟩) s
    refine ⟨_, hlmem, _, hdmem, hlrow, hdrow, ?_⟩
    rw [← bits_huffLength]
    exact exec_emit_effect hf hbody (codesBits_codesMatch length distance)

open Sys2Proof Sys2Proof.Machine in
/-- Settles O37: SE_TOKEN and the command of the Token's fields emit the same Codes. -/
theorem seTokenEmitsTheToken : Obligations.SeTokenEmitsTheToken := by
  unfold Obligations.SeTokenEmitsTheToken
  refine ⟨fun s hf hvalid => exec_of_bodyOf hf (seToken_of_invalid hvalid), fun s tk hf hlegal hs => ?_⟩
  have hbody : bodyOf .seToken s = s.emit (codesToken tk) := seToken_of_word hlegal hs
  have hword : encode .seToken = 0x3300000000000000#64 := by decide
  simp only [length_codesBits]
  refine ⟨fun hfull => hword ▸ exec_emit_of_full hf hbody hfull, fun hfit hclean => ?_⟩
  exact ⟨_, exec_emit_of_fits hf hbody hfit, exec_emit_of_fits hf (bodyOf_emitCommand hlegal s) hfit,
    State.placesBits_putBits hclean (by rwa [length_codesBits])⟩

end

/-! # Proofs: the block of an input, its bits and its bytes (O53) -/

section
namespace Sys2Proof.Machine

/-! ## How long the block is (R189, R215) -/

/-- The codes of legal Tokens take at most nine bits for each byte they cover. -/
theorem codesWidth_tokens_le {ts : List Token} (h : ∀ t ∈ ts, t.legal = true) :
    codesWidth (ts.flatMap codesToken) ≤ 9 * (ts.map Token.consumed).sum := by
  induction ts with
  | nil => exact le_rfl
  | cons t ts ih =>
    obtain ⟨ht, hts⟩ := List.forall_mem_cons.1 h
    have hfirst := codesWidth_token_le ht
    have hrest := ih hts
    rw [List.flatMap_cons, codesWidth_append, List.map_cons, List.sum_cons]
    omega

/-- The bits of a block: the header's, the Tokens' and the seven of the end of block (R185). -/
theorem blockBits_eq (x : List Byte) : blockBits x =
    codesBits headerCodes ++ codesBits ((mfTokens x).flatMap codesToken) ++ codesBits eobCodes := by
  rw [blockBits, blockCodes, codesBits_append, codesBits_append]

/-- Ten bits frame the block, and the Tokens cover each input byte once (R215). -/
theorem length_blockBits_le (x : List Byte) : (blockBits x).length ≤ 9 * x.length + 10 := by
  have hrun := tokenRun_mfTokens x
  have htokens := codesWidth_tokens_le hrun.legal
  have hsum := hrun.sum_consumed
  have hheader : codesWidth headerCodes = 3 := rfl
  have heob : codesWidth eobCodes = 7 := rfl
  rw [blockBits_eq, List.length_append, List.length_append]
  simp only [length_codesBits]
  omega

/-! ## The bytes of a bit stream (R59) -/

@[simp] theorem length_packBytes (bits : List Bool) : (packBytes bits).length = (bits.length + 7) / 8 := by
  simp [packBytes]

/-- Bit `r` of the number a list of bits stands for, the first bit lowest. -/
theorem testBit_foldr_bits (bits : List Bool) (r : Nat) :
    (bits.foldr (fun (b : Bool) acc => b.toNat + 2 * acc) 0).testBit r = bits[r]?.getD false := by
  induction bits generalizing r with
  | nil => simp
  | cons b rest ih =>
    have hbit : ∀ acc : Nat, b.toNat + 2 * acc = Nat.bit b acc := fun acc => by cases b <;> simp [Nat.bit]; omega
    rw [List.foldr_cons, hbit]
    cases r with
    | zero => simp
    | succ r => rw [Nat.testBit_bit_succ, ih, List.getElem?_cons_succ]

theorem getLsbD_byteOfBits (bits : List Bool) {r : Nat} (hr : r < 8) :
    (byteOfBits bits).getLsbD r = bits[r]?.getD false := by
  rw [byteOfBits, BitVec.getLsbD_ofNat, testBit_foldr_bits, decide_eq_true hr, Bool.true_and]

/-- Bit `r` of byte `k` is stream bit `8 * k + r`, and 0 past the end of the stream. -/
theorem getLsbD_packedByte (bits : List Bool) (k : Nat) {r : Nat} (hr : r < 8) :
    (byteOfBits ((bits.drop (8 * k)).take 8)).getLsbD r = bits[8 * k + r]?.getD false := by
  rw [getLsbD_byteOfBits _ hr, List.getElem?_take_of_lt hr, List.getElem?_drop]

theorem getElem?_packBytes {bits : List Bool} {k : Nat} (hk : 8 * k < bits.length) :
    (packBytes bits)[k]? = some (byteOfBits ((bits.drop (8 * k)).take 8)) := by
  have hrange : k < (bits.length + 7) / 8 := by omega
  simp [packBytes, hrange]

/-- The byte with the stream bits of place `k` is the one the stream packs into there. -/
theorem getElem?_packBytes_of_bits {bits : List Bool} {k : Nat} {b : Byte} (hk : 8 * k < bits.length)
    (hb : ∀ r, r < 8 → b.getLsbD r = bits[8 * k + r]?.getD false) : (packBytes bits)[k]? = some b := by
  rw [getElem?_packBytes hk]
  exact congrArg some (BitVec.eq_of_getLsbD_eq fun r hr => by rw [getLsbD_packedByte bits k hr, hb r hr])

end Sys2Proof.Machine

open Sys2Proof.Machine in
/-- Settles O53: the bytes hold the bits of the block, at most nine for each input byte and ten more. -/
theorem outputIsBounded : Obligations.OutputIsBounded := by
  unfold Obligations.OutputIsBounded
  intro x
  have hbits := length_blockBits_le x
  rw [compressBytes, length_packBytes]
  omega

end

/-! # Proofs: INIT, and COMPRESS by what its loop does (O48, O49, O50, O51, O52) -/

section
namespace Sys2Proof.Machine

/-! ## The MatchFinder's state is apart from the BitPacker's (R218) -/

/-- Placing a bit neither reads nor writes what is discarded. -/
theorem State.discardMatchFinder_putBit (s : State) (b : Bool) :
    (s.putBit b).discardMatchFinder = s.discardMatchFinder.putBit b :=
  apply_ite State.discardMatchFinder _ _ _

theorem State.discardMatchFinder_putBits (s : State) (bits : List Bool) :
    (s.putBits bits).discardMatchFinder = s.discardMatchFinder.putBits bits := by
  induction bits generalizing s with
  | nil => rfl
  | cons b rest ih => rw [State.putBits_cons, ih, State.discardMatchFinder_putBit, ← State.putBits_cons]

theorem State.discardMatchFinder_finishBody (s : State) :
    s.finishBody.discardMatchFinder = s.discardMatchFinder.finishBody :=
  apply_ite State.discardMatchFinder _ _ _

/-- The fresh state of R210 has nothing to discard. -/
theorem State.discardMatchFinder_datapathInit (s : State) : s.datapathInit.discardMatchFinder = s.datapathInit := rfl

/-! ## The loop of COMPRESS, pass by pass (R211) -/

/-- The state after a pass that produces a Token: the Token's bits are placed. -/
def State.afterToken (s : State) (tk : Token) (pt : PrefixTable) : State :=
  (s.produce tk pt).putBits (codesBits (codesToken tk))

theorem State.discardMatchFinder_afterToken (s : State) (tk : Token) (pt : PrefixTable) :
    (s.afterToken tk pt).discardMatchFinder = s.discardMatchFinder.putBits (codesBits (codesToken tk)) :=
  State.discardMatchFinder_putBits _ _

@[simp] theorem State.afterToken_inByte (s : State) (tk : Token) (pt : PrefixTable) :
    (s.afterToken tk pt).inByte = s.inByte := State.putBits_inByte _ _

@[simp] theorem State.afterToken_inLen (s : State) (tk : Token) (pt : PrefixTable) :
    (s.afterToken tk pt).inLen = s.inLen := State.putBits_inLen _ _

@[simp] theorem State.afterToken_pt (s : State) (tk : Token) (pt : PrefixTable) :
    (s.afterToken tk pt).pt = pt := State.putBits_pt _ _

theorem State.toNat_afterToken_mfPos {s : State} {tk : Token}
    (h : s.mfPos.toNat + tk.consumed ≤ s.inLen.toNat) (pt : PrefixTable) :
    (s.afterToken tk pt).mfPos.toNat = s.mfPos.toNat + tk.consumed := by
  rw [State.afterToken, State.putBits_mfPos, State.toNat_produce_mfPos h]

/-- Everything one pass of the loop can do with room for the block: stop on an unwritten byte, leave at the end of
the input, or place the codes of a Token that describes the input at the cursor and go on. -/
theorem RoomForBlock.pass_cases {s : State} (h : RoomForBlock s) (fuel : Nat) :
    (iterate s.inByte s.inLen.toNat s.mfPos.toNat s.pt = none ∧
      Machine.compressLoop (fuel + 1) s = .error .unwrittenRead) ∨
    (s.inLen.toNat ≤ s.mfPos.toNat ∧ Machine.compressLoop (fuel + 1) s = .ok s.noToken) ∨
    (∃ tk pt, iterate s.inByte s.inLen.toNat s.mfPos.toNat s.pt = some (some tk, pt) ∧ tk.legal = true ∧
      s.mfPos.toNat + tk.consumed ≤ s.inLen.toNat ∧ tk.Matches s.inByte s.mfPos.toNat ∧
      RoomForBlock (s.afterToken tk pt) ∧
      Machine.compressLoop (fuel + 1) s = Machine.compressLoop fuel (s.afterToken tk pt)) := by
  obtain ⟨hi, hb⟩ | ⟨p, hi, hb⟩ | ⟨tk, pt, hi, hb⟩ := mfStepBody_cases s
  · exact .inl ⟨hi, by simp [Machine.compressLoop, hb]⟩
  · obtain ⟨hend, -⟩ | ⟨-, tk, pt, he, -⟩ := iterate_table h.table hi
    · exact .inr (.inl ⟨hend, by simp [Machine.compressLoop, hb]⟩)
    · cases he
  · obtain ⟨-, he⟩ | ⟨-, tk', pt', he, hlegal, hinside, hmatches, -⟩ := iterate_table h.table hi <;> cases he
    obtain ⟨u, hemit, hroom⟩ := h.produce hi
    have hu : u = s.afterToken tk pt := by
      obtain ⟨-, hu⟩ := State.emit_ok hemit
      rwa [tokenOfWord_word hlegal] at hu
    subst hu
    have hvalid : (s.produce tk pt).tokenValid = true := tokenWordValid_of_iterate hi
    exact .inr (.inr ⟨tk, pt, hi, hlegal, hinside, hmatches, hroom, by
      simp [Machine.compressLoop, hb, hvalid, hemit]⟩)

/-- Over an input in memory the loop places the codes of the input's Tokens (R147, R211). -/
theorem RoomForBlock.compressLoop_tokens {s : State} {x : List Byte} (h : RoomForBlock s) (hx : HoldsInput s x)
    (fuel : Nat) : ∃ u, Machine.compressLoop fuel s = .ok u ∧ u.discardMatchFinder =
      s.discardMatchFinder.putBits (codesBits ((tokensFrom x fuel s.mfPos.toNat s.pt).flatMap codesToken)) := by
  induction fuel generalizing s with
  | zero => exact ⟨s, rfl, rfl⟩
  | succ fuel ih =>
    obtain ⟨hlen, hbytes⟩ := id hx
    have hiter : iterate s.inByte s.inLen.toNat s.mfPos.toNat s.pt =
        iterate (readerOf x) x.length s.mfPos.toNat s.pt := by
      rw [hlen]
      exact iterate_congr hbytes fun k p hp => (h.table.earlier k p hp).le
    obtain ⟨hnone, -⟩ | ⟨hend, hloop⟩ | ⟨tk, pt, hi, -, hinside, -, hroom, hloop⟩ := h.pass_cases fuel
    · have hanswers := iterate_table_isSome h.table fun j hj => by
        rw [hbytes j (by omega)]; exact readerOf_isSome x j (by omega)
      rw [hnone] at hanswers
      cases hanswers
    · refine ⟨_, hloop, ?_⟩
      rw [tokensFrom_of_end (by omega)]
      rfl
    · obtain ⟨u, hrest, hu⟩ := ih hroom (by simpa [HoldsInput] using hx)
      refine ⟨u, hloop.trans hrest, ?_⟩
      rw [hu, State.discardMatchFinder_afterToken, State.toNat_afterToken_mfPos hinside, State.afterToken_pt,
        tokensFrom_of_token (hiter ▸ hi), List.flatMap_cons, codesBits_append, State.putBits_append]

/-- The bytes a Token describes are written if those before it are: a copied byte is an earlier one. -/
theorem Token.Matches.isSome {rd : Nat → Option Byte} {i : Nat} {tk : Token} (h : tk.Matches rd i)
    (hlegal : tk.legal = true) (hbelow : ∀ j, j < i → (rd j).isSome = true) :
    ∀ j, j < i + tk.consumed → (rd j).isSome = true := by
  cases tk with
  | literal b =>
    intro j hj
    have hj : j < i + 1 := hj
    obtain hlt | rfl := Nat.lt_succ_iff_lt_or_eq.1 hj
    · exact hbelow j hlt
    · rw [show rd j = some b from h]; rfl
  | copy length distance =>
    obtain ⟨-, -, hpos, -⟩ := (Token.legal_copy_iff _ _).1 hlegal
    obtain ⟨hback, hequal⟩ := h
    intro j
    induction j using Nat.strong_induction_on with
    | _ j ih =>
      intro hj
      have hj : j < i + length := hj
      rcases Nat.lt_or_ge j i with hlt | hge
      · exact hbelow j hlt
      · have hcopied := hequal (j - i) (by omega)
        rw [show i + (j - i) = j by omega] at hcopied
        rw [hcopied]
        exact ih _ (by omega) (by show _ < i + length; omega)

/-- A loop that leaves by its own exit has read every input byte (R131, R240). -/
theorem RoomForBlock.loaded_of_compressLoop {s u : State} {fuel : Nat} (h : RoomForBlock s)
    (hread : ∀ j, j < s.mfPos.toNat → (s.inByte j).isSome = true) (hfuel : s.inLen.toNat < s.mfPos.toNat + fuel)
    (hl : Machine.compressLoop fuel s = .ok u) : InputLoaded s := by
  induction fuel generalizing s with
  | zero =>
    have hcursor := h.cursor
    omega
  | succ fuel ih =>
    obtain ⟨-, hloop⟩ | ⟨hend, -⟩ | ⟨tk, pt, -, hlegal, hinside, hmatches, hroom, hloop⟩ := h.pass_cases fuel
    · rw [hloop] at hl; cases hl
    · exact fun j hj => hread j (by omega)
    · have hmoves := Token.one_le_consumed hlegal
      have hpos := State.toNat_afterToken_mfPos hinside pt
      have hloaded : InputLoaded (s.afterToken tk pt) := by
        refine ih hroom (fun j hj => ?_) (by rw [State.afterToken_inLen]; omega) (hloop ▸ hl)
        rw [State.afterToken_inByte]
        exact hmatches.isSome hlegal hread j (by omega)
      simpa only [InputLoaded, State.afterToken_inByte, State.afterToken_inLen] using hloaded

/-! ## What a stream placed in the fresh state and finished leaves (R59, R104, R210) -/

@[simp] theorem State.datapathInit_bitLen (s : State) : s.datapathInit.bitLen = 0 := rfl

section Finished

variable {s : State} {bits : List Bool} (hfit : bits.length ≤ 8 * s.cfg.outCap.toNat)
include hfit

theorem State.datapathInit_fits : s.datapathInit.bitLen + bits.length ≤ 8 * s.datapathInit.cfg.outCap.toNat := by
  simpa using hfit

theorem State.bitLen_putBits_datapathInit : (s.datapathInit.putBits bits).bitLen = bits.length := by
  rw [State.bitLen_putBits _ _ (State.datapathInit_fits hfit), State.datapathInit_bitLen, Nat.zero_add]

theorem State.bitPackerInv_putBits_datapathInit : BitPackerInv (s.datapathInit.putBits bits) := by
  refine ⟨State.curClean_putBits _ _ (by simp), ?fits,
    State.outByte_isSome_putBits_below _ _ (State.datapathInit_fits hfit) (by simp), by simp⟩
  case fits =>
    rw [StreamFits, State.bitLen_putBits_datapathInit hfit, State.putBits_cfg]
    exact hfit

/-- The stream of a fresh block is its bits. -/
theorem State.streamBit_putBits_datapathInit (j : Nat) : (s.datapathInit.putBits bits).streamBit j = bits[j]? := by
  rw [State.streamBit_putBits _ _ (by simp) (State.datapathInit_fits hfit), State.datapathInit_bitLen,
    if_neg (Nat.not_lt_zero j), Nat.sub_zero]

theorem State.toNat_outLen_finished :
    (s.datapathInit.putBits bits).finishBody.outLen.toNat = (bits.length + 7) / 8 := by
  obtain ⟨-, hstream, -⟩ := State.bitPackerInv_putBits_datapathInit hfit
  rw [State.finishBody_outLen _ hstream, State.bitLen_putBits_datapathInit hfit]

/-- The finished result is the bytes of the stream (R59). -/
theorem State.holdsOutput_finished : HoldsOutput (s.datapathInit.putBits bits).finishBody (packBytes bits) := by
  have hout := State.toNat_outLen_finished hfit
  refine ⟨by rw [hout, length_packBytes], fun k hk => ?_⟩
  rw [length_packBytes] at hk
  obtain ⟨b, hb, hstream⟩ := State.finishBody_holdsStream (State.bitPackerInv_putBits_datapathInit hfit)
    (k := k) (by omega)
  rw [hb, getElem?_packBytes_of_bits (by omega) fun r hr => ?_]
  rw [hstream r hr, State.streamBit_putBits_datapathInit hfit]

/-- Past the result `OUT` is as before (R56, R104). -/
theorem State.sameOutAt_finished {a : Nat} (ha : (packBytes bits).length ≤ a) :
    SameOutAt s (s.datapathInit.putBits bits).finishBody a := by
  rw [length_packBytes] at ha
  have hbits := State.bitLen_putBits_datapathInit hfit
  have hk := (s.datapathInit.putBits bits).bpK_eq
  have hf := (s.datapathInit.putBits bits).fill_eq
  obtain ⟨hread, hwritten⟩ := State.sameOutAt_putBits s.datapathInit bits a (State.datapathInit_fits hfit)
    (.inr (by rw [State.datapathInit_bitLen]; omega))
  by_cases hfill : (s.datapathInit.putBits bits).fill = 0#3
  · rw [State.finishBody_of_fill_zero hfill]
    exact ⟨hread, hwritten⟩
  · have hpos := State.fill_pos hfill
    obtain ⟨hread', hwritten'⟩ := State.sameOutAt_finishBody (s.datapathInit.putBits bits) (a := a) (by omega)
    exact ⟨hread'.trans hread, hwritten'.trans hwritten⟩

end Finished

/-- COMPRESS writes nothing but the result, the bit cursor and `OUT_LEN`, and leaves the MatchFinder fresh. -/
theorem State.finished_frame (s : State) (bits : List Bool) :
    let t := (s.datapathInit.putBits bits).finishBody
    t = { s with
      outMem := t.outMem, outWritten := t.outWritten, bpK := t.bpK, cur := t.cur, fill := t.fill,
      outLen := t.outLen, pt := [], mfPos := 0#32, token := 0#32, inLock := false } := by
  apply State.ext <;> simp

/-! ## COMPRESS by its loop (R211, R217) -/

/-- Where the loop of COMPRESS starts: the header's bits are placed in the fresh state. -/
def State.blockStart (s : State) : State := s.datapathInit.putBits (codesBits headerCodes)

section WellFormed

variable {s : State} (hwf : s.cfg.wf = true) (hlen : s.inLen.toNat ≤ s.cfg.inCap.toNat)
include hwf hlen

/-- The header fits, and leaves room for the rest of the block (R10). -/
theorem blockStart_spec : s.datapathInit.emit headerCodes = .ok s.blockStart ∧ RoomForBlock s.blockStart := by
  have hroom := Config.room_of_wf hwf
  have hwidth : (codesBits headerCodes).length = 3 := rfl
  have hfit : (codesBits headerCodes).length ≤ 8 * s.cfg.outCap.toNat := by omega
  refine ⟨State.emit_of_fits (by simpa using hfit), ?table, ?cursor, ?placed, ?room⟩
  case table => simpa [State.blockStart] using TableHolds.nil _ _ _
  case cursor => simp [State.blockStart]
  case placed => rw [State.blockStart, State.bitLen_putBits_datapathInit hfit]; omega
  case room => simp [State.blockStart]; omega

/-- Everything COMPRESS can do past its `IN_LEN` check: stop in its loop on an unwritten byte, or end the block
(R217, R240). -/
theorem compress_cases :
    (compressLoop (s.inLen.toNat + 1) s.blockStart = .error .unwrittenRead ∧ compress s = .error .unwrittenRead) ∨
    ∃ u, compressLoop (s.inLen.toNat + 1) s.blockStart = .ok u ∧
      compress s = .ok (u.putBits (codesBits eobCodes)).finishBody.discardMatchFinder := by
  obtain ⟨hheader, hstart⟩ := blockStart_spec hwf hlen
  obtain hstop | ⟨u, hloop, hu⟩ := hstart.compressLoop (s.inLen.toNat + 1)
  · exact .inl ⟨hstop, by simp [compress, checkInLen_ok hlen, compressBody, hheader, hstop]⟩
  · have hcursor := hu.cursor
    have hplaced := hu.placed
    have hroom := hu.room
    have heob : u.emit eobCodes = .ok (u.putBits (codesBits eobCodes)) :=
      State.emit_of_fits (by show u.bitLen + 7 ≤ _; omega)
    exact .inr ⟨u, hloop, by simp [compress, checkInLen_ok hlen, compressBody, hheader, hloop, heob]⟩

/-- With an input byte that was never written COMPRESS stops with UNWRITTEN_READ (R240). -/
theorem compress_of_not_loaded (hx : ¬ InputLoaded s) : compress s = .error .unwrittenRead := by
  obtain ⟨-, hstop⟩ | ⟨u, hloop, -⟩ := compress_cases hwf hlen
  · exact hstop
  · obtain ⟨-, hstart⟩ := blockStart_spec hwf hlen
    have hloaded := hstart.loaded_of_compressLoop (by simp [State.blockStart]) (by simp [State.blockStart]) hloop
    exact absurd (by simpa [InputLoaded, State.blockStart] using hloaded) hx

end WellFormed

/-- COMPRESS of an input in memory finishes the block of the input, placed in the fresh state (R211, R212). -/
theorem compress_of_holdsInput {s : State} {x : List Byte} (hwf : s.cfg.wf = true)
    (hlen : x.length ≤ s.cfg.inCap.toNat) (hx : HoldsInput s x) :
    compress s = .ok (s.datapathInit.putBits (blockBits x)).finishBody := by
  obtain ⟨hinLen, -⟩ := id hx
  have hlen' : s.inLen.toNat ≤ s.cfg.inCap.toNat := by omega
  obtain ⟨-, hstart⟩ := blockStart_spec hwf hlen'
  obtain ⟨u, hloop, hu⟩ := hstart.compressLoop_tokens (x := x) (by simpa [HoldsInput, State.blockStart] using hx)
    (s.inLen.toNat + 1)
  have htokens : tokensFrom x (s.inLen.toNat + 1) s.blockStart.mfPos.toNat s.blockStart.pt = mfTokens x := by
    rw [State.blockStart, State.putBits_mfPos, State.putBits_pt, hinLen]
    rfl
  rw [htokens, State.blockStart, State.discardMatchFinder_putBits, State.discardMatchFinder_datapathInit] at hu
  obtain ⟨hstop, -⟩ | ⟨u', hloop', hcompress⟩ := compress_cases hwf hlen'
  · rw [hloop] at hstop; cases hstop
  · obtain rfl : u = u' := by rw [hloop] at hloop'; cases hloop'; rfl
    rw [hcompress, State.discardMatchFinder_finishBody, State.discardMatchFinder_putBits, hu, blockBits_eq,
      State.putBits_append, State.putBits_append]

/-- A loaded input is some byte sequence in memory (R23). -/
theorem exists_holdsInput {s : State} (h : InputLoaded s) : ∃ x, HoldsInput s x := by
  refine ⟨(List.range s.inLen.toNat).map fun j => (s.inByte j).getD 0#8, by simp, fun j hj => ?_⟩
  rw [List.length_map, List.length_range] at hj
  obtain ⟨b, hb⟩ := Option.isSome_iff_exists.1 (h j hj)
  simp [hj, hb]

/-! ## The command COMPRESS (R211) -/

/-- The block of an input that fits a well-formed `IN` fits `OUT` (R10, R215). -/
theorem blockBits_fit {c : Config} {x : List Byte} (hwf : c.wf = true) (hlen : x.length ≤ c.inCap.toNat) :
    (blockBits x).length ≤ 8 * c.outCap.toNat := by
  have hroom := Config.room_of_wf hwf
  have hbits := length_blockBits_le x
  omega

/-- COMPRESS of an input in memory, as a command (R211, R212). -/
theorem exec_compress_of_holdsInput {s : State} {x : List Byte} (hwf : s.cfg.wf = true) (hf : s.fault = false)
    (hlen : x.length ≤ s.cfg.inCap.toNat) (hx : HoldsInput s x) :
    exec .compress s = .next (s.datapathInit.putBits (blockBits x)).finishBody :=
  exec_of_bodyOf hf (compress_of_holdsInput hwf hlen hx)

/-- COMPRESS over an unwritten input byte, as a command (R240). -/
theorem exec_compress_of_not_loaded {s : State} (hwf : s.cfg.wf = true) (hf : s.fault = false)
    (hlen : s.inLen.toNat ≤ s.cfg.inCap.toNat) (hx : ¬ InputLoaded s) :
    exec .compress s = .fault .unwrittenRead := by
  rw [exec_eq_runCommand]
  exact runCommand_unwritten hf (compress_of_not_loaded hwf hlen hx) _

/-- An input longer than `IN` raises BAD_IN_LEN (R211). -/
theorem compress_of_bad_length {s : State} (h : s.cfg.inCap.toNat < s.inLen.toNat) :
    compress s = .error (.raised .badInLen) := by
  rw [compress, checkInLen_bad h]

end Sys2Proof.Machine

open Sys2Proof.Machine in
/-- Settles O48: INIT's body always completes, and no command runs while `FAULT` = 1. -/
theorem initStartsAFreshCall : Obligations.InitStartsAFreshCall := by
  unfold Obligations.InitStartsAFreshCall
  refine fun s => ⟨fun hf => ?_, fun hf => exec_of_bodyOf hf rfl⟩
  rw [exec_eq_runCommand, runCommand_of_fault hf]

open Sys2Proof.Machine in
/-- Settles O49: COMPRESS finishes the block of the input, and a finished stream is the bytes it packs into. -/
theorem compressComputesCompress : Obligations.CompressComputesCompress := by
  unfold Obligations.CompressComputesCompress
  intro s x hwf hf hlen hx
  have hfit := blockBits_fit hwf hlen
  obtain ⟨hclean, -⟩ := State.bitPackerInv_putBits_datapathInit hfit
  have hcursor := (s.datapathInit.putBits (blockBits x)).sameCursor_finishBody
  refine ⟨_, exec_compress_of_holdsInput hwf hf hlen hx, State.holdsOutput_finished hfit, ?bitLen, ?clean,
    fun a => State.sameOutAt_finished hfit, s.finished_frame _⟩
  case bitLen => rw [hcursor.bitLen, State.bitLen_putBits_datapathInit hfit]
  case clean => rw [hcursor.cur, hcursor.fill]; exact hclean

open Sys2Proof Sys2Proof.Machine in
/-- Settles O50: the three ways COMPRESS ends, by its `IN_LEN` check and by whether the input is loaded. -/
theorem compressAlwaysSucceedsOnLoadedInput : Obligations.CompressAlwaysSucceedsOnLoadedInput := by
  unfold Obligations.CompressAlwaysSucceedsOnLoadedInput
  intro s hwf hf
  refine ⟨fun hbad => ?badInLen, fun hlen hload => ?loaded, fun hlen => exec_compress_of_not_loaded hwf hf hlen⟩
  case badInLen =>
    have hword : encode .compress = 0x4000000000000000#64 := by decide
    exact hword ▸ exec_of_raised (i := .compress) hf (compress_of_bad_length hbad)
  case loaded =>
    obtain ⟨x, hx⟩ := exists_holdsInput hload
    obtain ⟨hxlen, -⟩ := id hx
    exact ⟨_, exec_compress_of_holdsInput hwf hf (hxlen ▸ hlen) hx, by simpa using hf⟩

open Sys2Proof.Machine in
/-- Settles O51: with no Token the block is its header and its end, ten bits. -/
theorem compressOfTheEmptyInput : Obligations.CompressOfTheEmptyInput := by
  unfold Obligations.CompressOfTheEmptyInput
  have hbytes : compressBytes [] = [0x03#8, 0x00#8] := by decide
  refine ⟨hbytes, fun s hwf hf hzero => ?_⟩
  have hx : HoldsInput s [] := ⟨by rw [hzero]; rfl, by simp⟩
  obtain ⟨t, hexec, ⟨hlen, hout⟩, hbits, -⟩ := compressComputesCompress s [] hwf hf (Nat.zero_le _) hx
  rw [hbytes] at hlen hout
  exact ⟨t, hexec, BitVec.eq_of_toNat_eq hlen, hbits, hout 0 (by decide), hout 1 (by decide)⟩

open Sys2Proof.Machine in
/-- Settles O52: both states stop, or both finish the block of the one input they hold, from a fresh cursor. -/
theorem compressDependsOnlyOnTheInput : Obligations.CompressDependsOnlyOnTheInput := by
  unfold Obligations.CompressDependsOnlyOnTheInput
  intro s s' hwf hcfg hf hf' hinLen hlen hbytes
  have hwf' : s'.cfg.wf = true := hcfg ▸ hwf
  by_cases hload : InputLoaded s
  · obtain ⟨x, hx⟩ := exists_holdsInput hload
    obtain ⟨hxlen, hxbytes⟩ := id hx
    have hx' : HoldsInput s' x := ⟨by rw [hinLen, hxlen], fun j hj => by rw [hbytes j (by omega), hxbytes j hj]⟩
    have hcap : x.length ≤ s.cfg.inCap.toNat := by omega
    have hcap' : x.length ≤ s'.cfg.inCap.toNat := by rwa [hcfg]
    have hfresh : SameCursor s.datapathInit s'.datapathInit := ⟨rfl, rfl, rfl⟩
    have hcursor := hfresh.putBits (blockBits x)
    obtain ⟨hout, hresult⟩ := State.holdsOutput_finished (blockBits_fit hwf hcap)
    obtain ⟨hout', hresult'⟩ := State.holdsOutput_finished (blockBits_fit hwf' hcap')
    refine .inr ⟨_, _, exec_compress_of_holdsInput hwf hf hcap hx, exec_compress_of_holdsInput hwf' hf' hcap' hx',
      BitVec.eq_of_toNat_eq (hout'.trans hout.symm), ?_, ?_, ?_, fun a ha => ?_⟩
    · rw [State.finishBody_bpK, State.finishBody_bpK, hcursor.bpK]
    · rw [State.finishBody_cur, State.finishBody_cur, hcursor.cur]
    · rw [State.finishBody_fill, State.finishBody_fill, hcursor.fill]
    · rw [hout] at ha
      rw [hresult a ha, hresult' a ha]
  · have hload' : ¬ InputLoaded s' := fun h => hload fun j hj => by
      rw [← hbytes j hj]; exact h j (by rwa [hinLen])
    exact .inl ⟨exec_compress_of_not_loaded hwf hf hlen hload,
      exec_compress_of_not_loaded hwf' hf' (by rwa [hcfg, hinLen]) hload'⟩

end

/-! # Proofs: the decoder reads the block of an input back (O54) -/

section
namespace Sys2Proof.Machine

/-! ## The bits of the bytes a stream packs into (R59) -/

/-- Bit `r` of byte `k` comes at place `8 * k + r`. -/
theorem getElem?_bytesBits (y : List Byte) (k : Nat) {r : Nat} (hr : r < 8) :
    (bytesBits y)[8 * k + r]? = y[k]?.map fun b => b.getLsbD r := by
  induction y generalizing k with
  | nil => simp [bytesBits]
  | cons b rest ih =>
    have hlen : ((List.range 8).map fun j => b.getLsbD j).length = 8 := rfl
    rw [bytesBits, List.flatMap_cons]
    cases k with
    | zero => rw [List.getElem?_append_left (by omega)]; simp [hr]
    | succ k =>
      rw [List.getElem?_append_right (by omega), hlen, show 8 * (k + 1) + r - 8 = 8 * k + r by omega]
      exact ih k

/-- The bytes a stream packs into start with the bits of the stream; what follows is padding. -/
theorem prefix_bytesBits_packBytes (bits : List Bool) : bits <+: bytesBits (packBytes bits) := by
  refine List.prefix_iff_getElem?.2 fun j hj => ?_
  have hr : j % 8 < 8 := Nat.mod_lt j (by decide)
  have hplace : 8 * (j / 8) + j % 8 = j := Nat.div_add_mod j 8
  have hbit := getElem?_bytesBits (packBytes bits) (j / 8) hr
  rwa [getElem?_packBytes (by omega), Option.map_some, getLsbD_packedByte bits _ hr, hplace,
    List.getElem?_eq_getElem hj, Option.getD_some] at hbit

/-! ## Reading a field back (R102, R103) -/

theorem bitsMsbFirst_succ (v n : Nat) : bitsMsbFirst v (n + 1) = v.testBit n :: bitsMsbFirst v n := by
  simp [bitsMsbFirst_eq_reverse, bitsLsbFirst, List.range_succ]

theorem bitsLsbFirst_succ (v n : Nat) : bitsLsbFirst v (n + 1) = v.testBit 0 :: bitsLsbFirst (v / 2) n := by
  simp [bitsLsbFirst, List.range_succ_eq_map, Function.comp_def, Nat.testBit_succ]

/-- Reading `n` bits that were placed high bit first gives the low `n` bits of the value. -/
theorem takeMsb_bitsMsbFirst (v n : Nat) (rest : List Bool) :
    takeMsb n (bitsMsbFirst v n ++ rest) = some (v % 2 ^ n, rest) := by
  induction n with
  | zero => simp [takeMsb, bitsMsbFirst, Nat.mod_one]
  | succ n ih =>
    rw [bitsMsbFirst_succ, List.cons_append, takeMsb, ih, Nat.toNat_testBit, Nat.mod_pow_succ, Nat.add_comm,
      Nat.mul_comm]

/-- Reading `n` bits that were placed low bit first gives the low `n` bits of the value. -/
theorem takeLsb_bitsLsbFirst (v n : Nat) (rest : List Bool) :
    takeLsb n (bitsLsbFirst v n ++ rest) = some (v % 2 ^ n, rest) := by
  induction n generalizing v with
  | zero => simp [takeLsb, bitsLsbFirst, Nat.mod_one]
  | succ n ih =>
    rw [bitsLsbFirst_succ, List.cons_append, takeLsb, ih, Nat.pow_succ', Nat.mod_mul, Nat.toNat_testBit, pow_zero,
      Nat.div_one]

/-- A code is read back as its number. -/
theorem takeMsb_of_lt {v n : Nat} (hv : v < 2 ^ n) (rest : List Bool) :
    takeMsb n (bitsMsbFirst v n ++ rest) = some (v, rest) := by
  rw [takeMsb_bitsMsbFirst, Nat.mod_eq_of_lt hv]

/-- The first `p` bits of a code with `q` bits more are its high bits. -/
theorem takeMsb_of_longer {v p : Nat} (q : Nat) (hv : v / 2 ^ q < 2 ^ p) (rest : List Bool) :
    ∃ rest', takeMsb p (bitsMsbFirst v (p + q) ++ rest) = some (v / 2 ^ q, rest') := by
  have hsplit : bitsMsbFirst v (p + q) = bitsMsbFirst (v / 2 ^ q) p ++ bitsMsbFirst (v % 2 ^ q) q := by
    rw [← bitsMsbFirst_split (Nat.mod_lt v (Nat.two_pow_pos q)), Nat.mul_comm, Nat.div_add_mod]
  exact ⟨_, by rw [hsplit, List.append_assoc, takeMsb_of_lt hv]⟩

/-! ## Reading a symbol back (R81, R82, R173, R174) -/

/-- A 7-bit code is that of a symbol from 256 up. -/
theorem takeSymbol_of_seven {v : Nat} (hv : v ≤ 23) (rest : List Bool) :
    takeSymbol (bitsMsbFirst v 7 ++ rest) = some (256 + v, rest) := by
  simp only [takeSymbol, takeMsb_of_lt (show v < 2 ^ 7 by omega)]
  rw [if_pos hv]

/-- An 8-bit code below 192 is that of a byte up to 143. -/
theorem takeSymbol_of_eight_low {v : Nat} (h48 : 48 ≤ v) (h191 : v ≤ 191) (rest : List Bool) :
    takeSymbol (bitsMsbFirst v 8 ++ rest) = some (v - 48, rest) := by
  obtain ⟨rest', hfirst⟩ := takeMsb_of_longer (v := v) (p := 7) 1 (by omega) rest
  simp only [takeSymbol, hfirst, takeMsb_of_lt (show v < 2 ^ 8 by omega)]
  rw [if_neg (by omega), if_pos (by omega)]

/-- An 8-bit code from 192 up is that of a symbol from 280 up. -/
theorem takeSymbol_of_eight_high {v : Nat} (h192 : 192 ≤ v) (h199 : v ≤ 199) (rest : List Bool) :
    takeSymbol (bitsMsbFirst v 8 ++ rest) = some (280 + (v - 192), rest) := by
  obtain ⟨rest', hfirst⟩ := takeMsb_of_longer (v := v) (p := 7) 1 (by omega) rest
  simp only [takeSymbol, hfirst, takeMsb_of_lt (show v < 2 ^ 8 by omega)]
  rw [if_neg (by omega), if_neg (by omega), if_pos (by omega)]

/-- A 9-bit code is that of a byte from 144 up. -/
theorem takeSymbol_of_nine {v : Nat} (h400 : 400 ≤ v) (h511 : v ≤ 511) (rest : List Bool) :
    takeSymbol (bitsMsbFirst v 9 ++ rest) = some (144 + (v - 400), rest) := by
  obtain ⟨rest', hfirst⟩ := takeMsb_of_longer (v := v) (p := 7) 2 (by omega) rest
  simp only [takeSymbol, hfirst, takeMsb_of_lt (show v < 2 ^ 9 by omega)]
  rw [if_neg (by omega), if_neg (by omega), if_neg (by omega)]

theorem takeSymbol_codesLiteral (b : Byte) (rest : List Bool) :
    takeSymbol (codesBits (codesLiteral b) ++ rest) = some (b.toNat, rest) := by
  have hb := b.isLt
  rw [codesBits_codesLiteral]
  split
  · rw [takeSymbol_of_eight_low (by omega) (by omega), Nat.add_sub_cancel]
  · rw [takeSymbol_of_nine (by omega) (by omega), show 144 + (b.toNat - 144 + 0x190 - 400) = b.toNat by omega]

theorem takeSymbol_huffLength {symbol : Nat} (hlow : 256 ≤ symbol) (hhigh : symbol ≤ 287) (rest : List Bool) :
    takeSymbol ((huffLength symbol).bits ++ rest) = some (symbol, rest) := by
  rw [bits_huffLength]
  split
  · rw [takeSymbol_of_seven (by omega), show 256 + (symbol - 256) = symbol by omega]
  · rw [takeSymbol_of_eight_high (by omega) (by omega), show 280 + (symbol - 280 + 0xC0 - 192) = symbol by omega]

theorem takeSymbol_eobCodes (rest : List Bool) : takeSymbol (codesBits eobCodes ++ rest) = some (256, rest) :=
  takeSymbol_of_seven (v := 0) (by decide) rest

/-! ## Reading a length and a distance back (R170, R171, R178) -/

/-- A value in the range of its row is read back from the row's symbol and the value's extra bits. -/
theorem takeExtra_of_row {table : List TableRow} {row : TableRow} {v : Nat}
    (hrow : table.find? (fun r => r.symbol == row.symbol) = some row) (hstart : row.start ≤ v)
    (hoffset : v - row.start < 2 ^ row.extra) (rest : List Bool) :
    takeExtra table row.symbol (bitsLsbFirst (v - row.start) row.extra ++ rest) = some (v, rest) := by
  simp only [takeExtra, hrow, takeLsb_bitsLsbFirst, Nat.mod_eq_of_lt hoffset, Nat.add_sub_cancel' hstart]

/-- Each symbol of the length table has one row, above the byte symbols and the end of block. -/
theorem lengthTable_symbols : ∀ row ∈ lengthTable,
    lengthTable.find? (fun r => r.symbol == row.symbol) = some row ∧ 257 ≤ row.symbol ∧ row.symbol ≤ 285 := by
  decide

/-- Each symbol of the distance table has one row, and fits its five bits. -/
theorem distanceTable_symbols : ∀ row ∈ distanceTable,
    distanceTable.find? (fun r => r.symbol == row.symbol) = some row ∧ row.symbol < 2 ^ 5 := by
  decide

/-! ## Reading a Token, and a block, back (R81, R83, R216) -/

/-- The codes of a Token are decoded to the bytes the Token adds. -/
theorem inflateSymbols_token {t : Token} {acc acc' : List Byte} (hlegal : t.legal = true)
    (hexpand : expandToken acc t = some acc') (fuel : Nat) (rest : List Bool) :
    inflateSymbols (fuel + 1) (codesBits (codesToken t) ++ rest) acc = inflateSymbols fuel rest acc' := by
  cases t with
  | literal b =>
    cases hexpand
    have hsymbol := takeSymbol_codesLiteral b rest
    simp only [inflateSymbols, codesToken, hsymbol, if_pos b.isLt, BitVec.ofNat_toNat, BitVec.setWidth_eq]
  | copy length distance =>
    obtain ⟨h3, h258, h1, hw⟩ := (Token.legal_copy_iff _ _).1 hlegal
    obtain ⟨hlmem, hlstart, -⟩ := lengthRow_spec h3
    obtain ⟨hdmem, hdstart, -⟩ := distanceRow_spec h1
    obtain ⟨hlrow, h257, h285⟩ := lengthTable_symbols _ hlmem
    obtain ⟨hdrow, h32⟩ := distanceTable_symbols _ hdmem
    have hlength := takeExtra_of_row hlrow hlstart (lengthRow_offset_lt h3 h258)
    have hdistance := takeExtra_of_row hdrow hdstart (distanceRow_offset_lt h1 hw)
    have hsymbol := takeSymbol_huffLength (show 256 ≤ (lengthRow length).symbol by omega) (by omega)
    have hcopy : copyBack distance length acc = some acc' := hexpand
    have hbyte : ¬ (lengthRow length).symbol < 256 := by omega
    have hend : (lengthRow length).symbol ≠ 256 := by omega
    simp only [inflateSymbols, codesToken, codesBits_codesMatch, List.append_assoc, hsymbol, hbyte, hend, if_false,
      hlength, takeMsb_of_lt h32, hdistance, hcopy]

/-- The codes of Tokens and an end of block are decoded to the bytes the Tokens stand for, whatever follows. -/
theorem inflateSymbols_tokens {ts : List Token} {acc y : List Byte} {fuel : Nat} (hlegal : ∀ t ∈ ts, t.legal = true)
    (hexpand : expandTokens acc ts = some y) (hfuel : ts.length ≤ fuel) (rest : List Bool) :
    inflateSymbols (fuel + 1) (codesBits (ts.flatMap codesToken) ++ (codesBits eobCodes ++ rest)) acc = some y := by
  induction ts generalizing acc fuel with
  | nil =>
    cases hexpand
    simp [inflateSymbols, takeSymbol_eobCodes]
  | cons t ts ih =>
    obtain ⟨ht, hts⟩ := List.forall_mem_cons.1 hlegal
    rw [List.length_cons] at hfuel
    rw [expandTokens] at hexpand
    split at hexpand
    · rename_i acc' hfirst
      rw [List.flatMap_cons, codesBits_append, List.append_assoc, inflateSymbols_token ht hfirst,
        show fuel = fuel - 1 + 1 by omega]
      exact ih hts hexpand (by omega)
    · cases hexpand

/-- Each Token takes at least one bit. -/
theorem length_le_codesWidth_tokens (ts : List Token) : ts.length ≤ codesWidth (ts.flatMap codesToken) := by
  induction ts with
  | nil => exact Nat.zero_le _
  | cons t ts ih =>
    have hfirst := codesWidth_token_pos t
    rw [List.flatMap_cons, codesWidth_append, List.length_cons]
    omega

/-- The block of an input is decoded to the input, whatever follows its end (R81, R83). -/
theorem inflateBits_blockBits (x : List Byte) (rest : List Bool) : inflateBits (blockBits x ++ rest) = some x := by
  have hrun := tokenRun_mfTokens x
  have hheader : codesBits headerCodes = [true, true, false] := by decide
  have hcount := length_le_codesWidth_tokens (mfTokens x)
  rw [blockBits_eq, hheader, List.append_assoc, List.append_assoc]
  refine inflateSymbols_tokens hrun.legal hrun.expandTokens_take ?_ rest
  show (mfTokens x).length ≤ (codesBits ((mfTokens x).flatMap codesToken) ++ (codesBits eobCodes ++ rest)).length
  rw [List.length_append, length_codesBits]
  omega

/-- The decoder turns compress(x) back into x (R216). -/
theorem inflateBytes_compressBytes (x : List Byte) : inflateBytes (compressBytes x) = some x := by
  obtain ⟨pad, hpad⟩ := prefix_bytesBits_packBytes (blockBits x)
  rw [inflateBytes, compressBytes, ← hpad, inflateBits_blockBits]

end Sys2Proof.Machine

open Sys2Proof.Machine in
/-- Settles O54: COMPRESS leaves compress(x) in `OUT`, and its bytes are decoded Token by Token. -/
theorem compressRoundTrips : Obligations.CompressRoundTrips := by
  unfold Obligations.CompressRoundTrips
  intro s x hwf hf hlen hx
  obtain ⟨t, hexec, hout, -⟩ := compressComputesCompress s x hwf hf hlen hx
  exact ⟨t, compressBytes x, hexec, hout, inflateBytes_compressBytes x⟩

end

/-! # Proofs: the fault state, and the one cause a command reports (O16, O17, O18) -/

section
namespace Sys2Proof.Machine

/-! ## The fault registers of one access (R232 to R234) -/

/-- While `FAULT` = 1 a word at the command port does nothing, legal or not (R234). -/
theorem access_command_of_fault {s : State} (h : s.fault = true) (w : CommandWord) :
    access (.command w) s = .next s := by
  cases hd : decode w with
  | error e => rw [access, writeCommand_of_illegal hd, State.raise_of_fault h]
  | ok i => rw [access, writeCommand_of_decode hd, exec_eq_runCommand, runCommand_of_fault h]

/-- Once a fault is recorded, no access but reset changes its record (R233). -/
theorem AccessEffect.faultRegisters {x : HostAccess} {s t : State} (h : AccessEffect s t x) (hs : s.fault = true)
    (hx : x ≠ .reset) : t.fault = s.fault ∧ t.cause = s.cause ∧ t.faultCmd = s.faultCmd := by
  cases h with
  | body w i hd hf hb => rw [hf] at hs; cases hs
  | same x h => subst h; exact ⟨rfl, rfl, rfl⟩
  | raised x c w hf h => rw [hf] at hs; cases hs
  | reset h => exact absurd rfl hx
  | reply x rs d h => subst h; exact ⟨rfl, rfl, rfl⟩
  | storeIn a b hl ha h => subst h; exact ⟨rfl, rfl, rfl⟩
  | storeInLen v hl h => subst h; exact ⟨rfl, rfl, rfl⟩

/-- What `FAULT_CMD` records is the access's word: a legal word is the encoding of its command (R35). -/
theorem Raises.faultWord {s : State} {x : HostAccess} {c : Cause} {w : CommandWord} (h : Raises s x c w) :
    w = x.faultWord := by
  cases h with
  | illegal w e hd => rfl
  | command w i c hd hb => exact encode_of_decode hd
  | lockedIn a b hl => rfl
  | lockedInLen v hl => rfl

/-- The codes of the causes are 1 to 7 (R231). -/
theorem Cause.code_bounds (c : Cause) : 1 ≤ c.code.toNat ∧ c.code.toNat ≤ 7 := by cases c <;> decide

/-! ## The cause a command raises is the first condition that holds (R235) -/

/-- In a stream that fits, Codes raise OUT_OVERFLOW exactly when the command's bits do not fit (R110). -/
theorem emit_raises_iff_overflow {i : Instr} {s : State} {cs : List Code} {c : Cause} (hfits : StreamFits s)
    (hbits : bitsToPlace i s = codesWidth cs) :
    s.emit cs = .error (.raised c) ↔ firstCause.overflow i s = some c := by
  rw [firstCause.overflow, hbits]
  obtain ⟨hfit, he⟩ | ⟨hfull, he⟩ := s.emit_cases cs
  · rw [he, if_neg (by omega)]
    exact ⟨nofun, nofun⟩
  · rw [he, if_pos (by omega)]
    simp

theorem firstCause_add (order : BitOrder) (value : Word) (n : Nat) (s : State) :
    firstCause (order.add value n) s =
      if 32 < n then some .badWidth else firstCause.overflow (order.add value n) s := by
  cases order <;> rw [BitOrder.add, firstCause, if_neg (by simp)]

/-- BAD_WIDTH comes before OUT_OVERFLOW. -/
theorem add_raises_iff_firstCause {s : State} {c : Cause} (hfits : StreamFits s) (order : BitOrder) (value : Word)
    (n : Nat) : bpAdd order value n s = .error (.raised c) ↔ firstCause (order.add value n) s = some c := by
  rw [firstCause_add, bpAdd]
  by_cases hn : n ≤ 32
  · rw [if_pos ((legalWidth_iff n).2 hn), if_neg (by omega)]
    exact emit_raises_iff_overflow hfits (by cases order <;> rfl)
  · rw [if_neg (by rwa [legalWidth_iff]), if_pos (by omega)]
    simp

/-- BAD_LENGTH comes before BAD_DISTANCE, and both before OUT_OVERFLOW. -/
theorem seMatch_raises_iff_firstCause {s : State} {c : Cause} (hfits : StreamFits s) (length distance : Nat) :
    seMatch length distance s = .error (.raised c) ↔ firstCause (.seMatch length distance) s = some c := by
  rw [firstCause, if_neg (by simp)]
  by_cases hlength : length < 3 ∨ 258 < length
  · rw [seMatch_of_bad_length hlength, if_pos hlength]
    simp
  by_cases hdistance : distance < 1 ∨ 32768 < distance
  · rw [seMatch_of_bad_distance (by omega) (by omega) hdistance, if_neg hlength, if_pos hdistance]
    simp
  · rw [seMatch_of_legal ((Token.legal_copy_iff _ _).2 (by omega)), if_neg hlength, if_neg hdistance]
    exact emit_raises_iff_overflow hfits rfl

/-- A command that places no bits is never checked for room. -/
theorem overflow_of_no_bits {i : Instr} {s : State} (h : bitsToPlace i s = 0) : firstCause.overflow i s = none := by
  rw [firstCause.overflow, h, if_neg (by omega)]

theorem seToken_raises_iff_overflow {s : State} {c : Cause} (hfits : StreamFits s) :
    seToken s = .error (.raised c) ↔ firstCause.overflow .seToken s = some c := by
  cases hvalid : s.tokenValid with
  | false =>
    rw [seToken_of_invalid hvalid, overflow_of_no_bits (by simp [bitsToPlace, hvalid])]
    exact ⟨nofun, nofun⟩
  | true =>
    rw [seToken, if_pos hvalid]
    exact emit_raises_iff_overflow hfits (if_pos hvalid)

/-- A Literal's code has the width of R173's split. -/
theorem bitsToPlace_seLiteral (lit : Byte) (s : State) :
    bitsToPlace (.seLiteral lit) s = codesWidth (codesLiteral lit) := by
  rw [bitsToPlace, codesLiteral]
  split <;> rfl

/-- MF_STEP and COMPRESS check `IN_LEN` first and have no other condition. -/
theorem firstCause_of_inLen {i : Instr} (hi : i = .mfStep ∨ i = .compress) (s : State) :
    firstCause i s = if s.cfg.inCap.toNat < s.inLen.toNat then some .badInLen else none := by
  have hnone : firstCause.overflow i s = none := overflow_of_no_bits (by obtain rfl | rfl := hi <;> rfl)
  obtain rfl | rfl := hi <;> simp only [firstCause, true_or, or_true, true_and] <;> rw [hnone]

/-- A command that raises BAD_IN_LEN for a long input and nothing else raises its first condition. -/
theorem raises_iff_firstCause_of_inLen {i : Instr} {s : State} {c : Cause} (hi : i = .mfStep ∨ i = .compress)
    (hlong : s.cfg.inCap.toNat < s.inLen.toNat → bodyOf i s = .error (.raised .badInLen))
    (hshort : s.inLen.toNat ≤ s.cfg.inCap.toNat → bodyOf i s ≠ .error (.raised c)) :
    bodyOf i s = .error (.raised c) ↔ firstCause i s = some c := by
  rw [firstCause_of_inLen hi]
  rcases Nat.lt_or_ge s.cfg.inCap.toNat s.inLen.toNat with hl | hl
  · rw [hlong hl, if_pos hl]
    simp
  · rw [if_neg (Nat.not_lt.2 hl)]
    exact ⟨fun h => absurd h (hshort hl), nofun⟩

theorem mfStep_raises_nothing {s : State} (hlen : s.inLen.toNat ≤ s.cfg.inCap.toNat) (c : Cause) :
    mfStep s ≠ .error (.raised c) := by
  rw [mfStep_ok hlen]
  obtain ⟨-, hb⟩ | ⟨p, -, hb⟩ | ⟨tk, pt, -, hb⟩ := mfStepBody_cases s <;> rw [hb] <;> exact nofun

theorem compress_raises_nothing {s : State} (hwf : s.cfg.wf = true) (hlen : s.inLen.toNat ≤ s.cfg.inCap.toNat)
    (c : Cause) : compress s ≠ .error (.raised c) := by
  obtain ⟨-, hb⟩ | ⟨u, -, hb⟩ := compress_cases hwf hlen <;> rw [hb] <;> exact nofun

/-- The one cause a command's pseudocode raises is the first condition that holds. -/
theorem bodyOf_raises_iff_firstCause {s : State} (hwf : s.cfg.wf = true) (hfits : StreamFits s) (i : Instr)
    (c : Cause) : bodyOf i s = .error (.raised c) ↔ firstCause i s = some c := by
  have hemit : ∀ {cs : List Code}, bitsToPlace i s = codesWidth cs →
      (s.emit cs = .error (.raised c) ↔ firstCause.overflow i s = some c) := emit_raises_iff_overflow hfits
  cases i with
  | init => simp [bodyOf, firstCause, overflow_of_no_bits (i := .init) (s := s) rfl]
  | bpAddLsb value n => exact add_raises_iff_firstCause hfits .lsbFirst value n
  | bpAddMsb value n => exact add_raises_iff_firstCause hfits .msbFirst value n
  | bpFinish => simp [bodyOf, firstCause, overflow_of_no_bits (i := .bpFinish) (s := s) rfl]
  | mfStep => exact raises_iff_firstCause_of_inLen (.inl rfl) mfStep_bad fun hl => mfStep_raises_nothing hl c
  | seHeader => simpa [bodyOf, firstCause] using hemit (cs := headerCodes) rfl
  | seLiteral lit => simpa [bodyOf, firstCause] using hemit (bitsToPlace_seLiteral lit s)
  | seMatch length distance => exact seMatch_raises_iff_firstCause hfits length distance
  | seToken => simpa [bodyOf, firstCause] using seToken_raises_iff_overflow hfits
  | seEob => simpa [bodyOf, firstCause] using hemit (cs := eobCodes) rfl
  | compress =>
    exact raises_iff_firstCause_of_inLen (.inr rfl) compress_of_bad_length fun hl =>
      compress_raises_nothing hwf hl c

end Sys2Proof.Machine

open Sys2Proof.Machine in
/-- Settles O16: a faulted block runs no command, and no access but reset writes the fault registers again. -/
theorem faultedBlockIgnoresCommands : Obligations.FaultedBlockIgnoresCommands := by
  unfold Obligations.FaultedBlockIgnoresCommands
  refine ⟨fun s w hs => access_command_of_fault hs w, fun s t x hs hx h => ?_⟩
  obtain ⟨hfault, hcause, hcmd⟩ := (access_effect h).faultRegisters hs hx
  exact ⟨hfault.trans hs, hcause, hcmd⟩

open Sys2Proof.Machine in
/-- Settles O17: an access that takes `FAULT` to 1 is the entry of a fault it raises, with its own word. -/
theorem faultsArePrecise : Obligations.FaultsArePrecise := by
  unfold Obligations.FaultsArePrecise
  intro s t x hs h ht
  obtain ⟨c, w, hraises, rfl⟩ := access_raises h hs ht
  obtain ⟨hlow, hhigh⟩ := c.code_bounds
  exact ⟨hlow, hhigh, by rw [hraises.faultWord]; rfl⟩

open Sys2Proof Sys2Proof.Machine in
/-- Settles O18: a command's pseudocode raises exactly the first condition that holds, and fault entry records it. -/
theorem faultPriority : Obligations.FaultPriority := by
  unfold Obligations.FaultPriority
  intro w s hwf hfits
  refine ⟨fun hs => access_command_of_fault hs w, fun hs e hd => ?illegal,
    fun hs i hd => ⟨fun c hc => ?raises, fun hnone t h => ?silent⟩⟩
  case illegal =>
    obtain ⟨-, hraises, -⟩ := illegalWordsRaiseIllegalCmd
    exact hraises w e s hd hs
  case raises =>
    calc access (.command w) s = exec i s := writeCommand_of_decode hd s
      _ = .next (Faulted s c.code (encode i)) :=
        exec_of_raised hs ((bodyOf_raises_iff_firstCause hwf hfits i c).2 hc)
      _ = .next (Faulted s c.code w) := by rw [encode_of_decode hd]
  case silent =>
    rw [access, writeCommand_of_decode hd, exec_eq_runCommand] at h
    obtain ⟨hf, -⟩ | ⟨-, hb⟩ | ⟨-, c, hb, -⟩ := runCommand_cases h
    · rw [hs] at hf; cases hf
    · exact (bodyOf_outside hb).fault.trans hs
    · have hsome := (bodyOf_raises_iff_firstCause hwf hfits i c).1 hb
      rw [hnone] at hsome; cases hsome

end

/-! # Proofs: the reset state (O9, O55) -/

section
namespace Sys2Proof.Machine

/-! ## Reset as an event and as a state (R260) -/

/-- Reset answers the reset state of the same block, and the host's side stays (log entry 15). -/
theorem access_reset (s : State) : access .reset s =
    .next { State.resetWith s.cfg with pending := s.pending, replies := s.replies, draws := s.draws } := rfl

/-- The reset state is what reset makes of itself. -/
theorem State.resetBlock_resetWith (c : Config) : (State.resetWith c).resetBlock = State.resetWith c := rfl

@[simp] theorem State.resetWith_inWrittenAt (c : Config) (a : Nat) : (State.resetWith c).inWrittenAt a = false :=
  rfl

@[simp] theorem State.resetWith_outWrittenAt (c : Config) (a : Nat) : (State.resetWith c).outWrittenAt a = false :=
  rfl

theorem State.resetWith_status (c : Config) : (State.resetWith c).status = 0#32 :=
  (by decide : (0#23 ++ BitVec.ofBool false ++ 0#4 ++ 0#3 ++ BitVec.ofBool false : Word) = 0#32)

/-- After reset only the registers of the two capacities read anything but 0 (R36). -/
theorem State.resetWith_readRegister (c : Config) {r : RegNo} (hin : r ≠ 8#4) (hout : r ≠ 9#4) :
    (State.resetWith c).readRegister r = 0#32 := by
  unfold State.readRegister
  split
  case h_1 => exact State.resetWith_status c
  case h_3 => exact BitVec.extractLsb'_zero
  case h_9 h => exact absurd (BitVec.eq_of_toNat_eq h) hin
  case h_10 h => exact absurd (BitVec.eq_of_toNat_eq h) hout
  all_goals rfl

/-! ## Reset from any state gives every invariant -/

/-- No fault is recorded after reset (R35, R231). -/
theorem faultInv_resetBlock (s : State) : FaultInv s.resetBlock := ⟨by simp, rfl⟩

/-- Reset leaves a packed output, a fresh MatchFinder, no token and no fault (R26, R28, R30, R31, R35). -/
theorem inv_resetBlock (s : State) : Inv s.resetBlock := by
  obtain ⟨hmemory, hpacker⟩ := PackedOutput.resetBlock s
  obtain ⟨hcursor, htable⟩ := RunInv.of_fresh s.resetBlock_mfPos s.resetBlock_pt s.resetBlock_inLock
  exact ⟨hmemory, hpacker, hcursor, htable, .inl s.resetBlock_token, faultInv_resetBlock s⟩

theorem inv_resetWith (c : Config) : Inv (State.resetWith c) := by
  rw [← State.resetBlock_resetWith c]
  exact inv_resetBlock _

/-- IN_CAP = 2^20 and OUT_CAP = 2^21 are a well-formed pair (R10). -/
theorem wf_chosen : Config.chosen.wf = true := by decide

end Sys2Proof.Machine

open Sys2Proof.Machine in
/-- Settles O9: reset answers the reset state, whose elements and registers are read off one by one. -/
theorem resetLeavesTheResetState : Obligations.ResetLeavesTheResetState := by
  unfold Obligations.ResetLeavesTheResetState
  refine ⟨fun s => ⟨_, access_reset s, rfl⟩, fun c => ?_⟩
  exact ⟨rfl, rfl, rfl, rfl, rfl, rfl, rfl, rfl, rfl, rfl, rfl, rfl, rfl, State.resetWith_inWrittenAt c,
    State.resetWith_outWrittenAt c, rfl, rfl, fun _ => State.resetWith_readRegister c⟩

open Sys2Proof.Machine in
/-- Settles O55: reset meets the invariants from any state, so in every configuration, and the chosen one is
well formed. -/
theorem resetMeetsTheInvariants : Obligations.ResetMeetsTheInvariants := by
  unfold Obligations.ResetMeetsTheInvariants
  exact ⟨inv_resetWith, inv_resetWith _, wf_chosen⟩

end
